-- ==== Sys2Proof/Word.lean ====
section
/-! DEFINITION. The word and byte types. Every register and every address is 32 bits wide (00_scope R2). -/

namespace Sys2Proof

/-- A 32-bit register value or address (00_scope R2, R8). -/
abbrev Word := BitVec 32

/-- One byte of the address space (20_memory R29). -/
abbrev Byte := BitVec 8

end Sys2Proof
end

