-- ==== Sys2Proof/Config.lean ====
section
/-! DEFINITION. What a loaded core is configured with (00_scope R7) and the values the spec leaves free. -/

namespace Sys2Proof

/-- The four instruction sets (00_scope R2). -/
inductive Isa where
  | mips
  | arm
  | powerPc
  | x86
  deriving DecidableEq, Repr

/-- `REG_RESET`: whether registers read 0 after a load, or have no value until written (10_state R28). -/
inductive RegReset where
  | zero
  | unknown
  deriving DecidableEq, Repr

/-- `MIPS_OVERFLOW`: what signed overflow of `add`, `sub`, `addi` does (41_mips_alu R88). -/
inductive OverflowMode where
  | fault
  | wrap
  deriving DecidableEq, Repr

/-- `ARM_PC_BIAS`: 8, or the alternative 4 (44_arm R118). -/
inductive ArmPcBias where
  | eight
  | four
  deriving DecidableEq, Repr

/-- `IO_MAP`: where the MMIO registers and the two stub ranges lie, as offsets from `IO_BASE`
(20_memory R41). The defaults are the table of that rule. -/
structure IoMap where
  uartStatus   : Nat := 0x000
  uartData     : Nat := 0x004
  timerControl : Nat := 0x100
  timerValue   : Nat := 0x104
  intMask      : Nat := 0x200
  gpio         : Nat := 0x300
  networkBase  : Nat := 0x1000
  networkSize  : Nat := 0x1000
  videoBase    : Nat := 0x2000
  videoSize    : Nat := 0x1000
  deriving DecidableEq, Repr

/-- The parameters of 00_scope R7 that are fixed while an image is loaded, with the table's defaults.
`LOAD_ADDR` is an argument of `Load`, and the bases are constants.
DESIGN CHOICE (assumption 2): `isa` is `mips` before any load; nothing reads it in `Idle`. -/
structure Config where
  isa               : Isa := .mips
  ramSize           : Nat := 0x01000000
  ioMap             : IoMap := {}
  regReset          : RegReset := .zero
  r0Hardwired       : Bool := true
  overflow          : OverflowMode := .fault
  armPcBias         : ArmPcBias := .eight
  alignCheck        : Bool := false
  cycleBudget       : Option Nat := none
  stopCheckInterval : Nat := 1
  deriving DecidableEq, Repr

/-- The six register slots of an I/O map, in the order of the table of 20_memory R41. -/
def IoMap.slots (m : IoMap) : List Nat :=
  [m.uartStatus, m.uartData, m.timerControl, m.timerValue, m.intMask, m.gpio]

/-- What 20_memory R41 asks of an I/O map: slots 4-aligned and apart, stub ranges apart from each other
and from the slots, all of it inside the window of `2^28` bytes. -/
def IoMap.wf (m : IoMap) : Bool :=
  m.slots.all (fun o => o % 4 == 0 && decide (o + 4 ≤ 0x10000000)
    && decide (o + 4 ≤ m.networkBase ∨ m.networkBase + m.networkSize ≤ o)
    && decide (o + 4 ≤ m.videoBase ∨ m.videoBase + m.videoSize ≤ o))
  && decide m.slots.Nodup
  && decide (m.networkBase + m.networkSize ≤ m.videoBase ∨ m.videoBase + m.videoSize ≤ m.networkBase)
  && decide (m.networkBase + m.networkSize ≤ 0x10000000)
  && decide (m.videoBase + m.videoSize ≤ 0x10000000)

/-- The limits 00_scope R7 puts on the parameters. -/
def Config.wf (c : Config) : Bool :=
  decide (0 < c.ramSize) && decide (c.ramSize ≤ 0x70000000)
  && decide (1 ≤ c.stopCheckInterval) && c.ioMap.wf

/-- FREE VALUE (assumption 7): what the `n`-th byte read of `TIMER_VALUE` gives. 20_memory R42 and R45
fix no value, so nothing here does: the constant has no body that a proof could see. -/
opaque Config.timerDraw : Nat → Byte

end Sys2Proof
end

