-- ==== Sys2Proof/Syntax.lean ====
section
/-! DEFINITION. The instructions: one constructor per row of spec/opcode_table.json, its operands named
and sized as the row's fields (30_encoding R54, R57, R61, R63). -/

namespace Sys2Proof

/-- Every instruction of the four cores, in the order of the opcode table. -/
inductive Instr where
  -- MIPS (30_encoding R56)
  | mipsSll (rt rd sa : BitVec 5)
  | mipsSrl (rt rd sa : BitVec 5)
  | mipsJr (rs : BitVec 5)
  | mipsSyscall (code : BitVec 20)
  | mipsAdd (rs rt rd : BitVec 5)
  | mipsSub (rs rt rd : BitVec 5)
  | mipsAnd (rs rt rd : BitVec 5)
  | mipsOr (rs rt rd : BitVec 5)
  | mipsNor (rs rt rd : BitVec 5)
  | mipsBeq (rs rt : BitVec 5) (imm : BitVec 16)
  | mipsBne (rs rt : BitVec 5) (imm : BitVec 16)
  | mipsAddi (rs rt : BitVec 5) (imm : BitVec 16)
  | mipsAndi (rs rt : BitVec 5) (imm : BitVec 16)
  | mipsOri (rs rt : BitVec 5) (imm : BitVec 16)
  | mipsXori (rs rt : BitVec 5) (imm : BitVec 16)
  | mipsLw (rs rt : BitVec 5) (imm : BitVec 16)
  | mipsSw (rs rt : BitVec 5) (imm : BitVec 16)
  -- ARM (30_encoding R60)
  | armAddImm (rn rd rot : BitVec 4) (imm8 : BitVec 8)
  | armAddReg (rn rd rm : BitVec 4)
  | armSubImm (rn rd rot : BitVec 4) (imm8 : BitVec 8)
  | armSubReg (rn rd rm : BitVec 4)
  | armMovImm (rd rot : BitVec 4) (imm8 : BitVec 8)
  | armMovReg (rd rm : BitVec 4)
  | armB (imm24 : BitVec 24)
  | armBl (imm24 : BitVec 24)
  -- PowerPC (30_encoding R62)
  | ppcAddi (rD rA : BitVec 5) (simm : BitVec 16)
  | ppcSubf (rD rA rB : BitVec 5)
  | ppcAdd (rD rA rB : BitVec 5)
  | ppcOr (rS rA rB : BitVec 5)
  -- x86 (30_encoding R64)
  | x86Add (reg rm : BitVec 3)
  | x86Sub (reg rm : BitVec 3)
  | x86Mov (reg rm : BitVec 3)
  deriving DecidableEq, Repr

/-- The instruction set whose map holds the instruction. -/
def Instr.isa : Instr → Isa
  | .mipsSll _ _ _ | .mipsSrl _ _ _ | .mipsJr _ | .mipsSyscall _ => .mips
  | .mipsAdd _ _ _ | .mipsSub _ _ _ | .mipsAnd _ _ _ | .mipsOr _ _ _ | .mipsNor _ _ _ => .mips
  | .mipsBeq _ _ _ | .mipsBne _ _ _ | .mipsAddi _ _ _ | .mipsAndi _ _ _ | .mipsOri _ _ _ => .mips
  | .mipsXori _ _ _ | .mipsLw _ _ _ | .mipsSw _ _ _ => .mips
  | .armAddImm _ _ _ _ | .armAddReg _ _ _ | .armSubImm _ _ _ _ | .armSubReg _ _ _ => .arm
  | .armMovImm _ _ _ | .armMovReg _ _ | .armB _ | .armBl _ => .arm
  | .ppcAddi _ _ _ | .ppcSubf _ _ _ | .ppcAdd _ _ _ | .ppcOr _ _ _ => .powerPc
  | .x86Add _ _ | .x86Sub _ _ | .x86Mov _ _ => .x86

end Sys2Proof
end

