-- ==== Sys2Proof/WellFormed.lean ====
section
/-! DEFINITION. Which terms of `Instr` are instructions: the operand fields have their encoded widths by
type, and no ARM register operand is `r15` (30_encoding R59 step 3, 44_arm R109). -/

namespace Sys2Proof

/-- An ARM operand register: `r15` is the program counter and is no operand (10_state R16). -/
def armRegOk (r : BitVec 4) : Bool := r != 15#4

/-- The constraints on operands that the widths of the fields do not already say. -/
def Instr.wf : Instr → Bool
  | .mipsSll _ _ _ | .mipsSrl _ _ _ | .mipsJr _ | .mipsSyscall _ => true
  | .mipsAdd _ _ _ | .mipsSub _ _ _ | .mipsAnd _ _ _ | .mipsOr _ _ _ | .mipsNor _ _ _ => true
  | .mipsBeq _ _ _ | .mipsBne _ _ _ | .mipsAddi _ _ _ | .mipsAndi _ _ _ | .mipsOri _ _ _ => true
  | .mipsXori _ _ _ | .mipsLw _ _ _ | .mipsSw _ _ _ => true
  | .armAddImm rn rd _ _ => armRegOk rn && armRegOk rd
  | .armAddReg rn rd rm => armRegOk rn && armRegOk rd && armRegOk rm
  | .armSubImm rn rd _ _ => armRegOk rn && armRegOk rd
  | .armSubReg rn rd rm => armRegOk rn && armRegOk rd && armRegOk rm
  | .armMovImm rd _ _ => armRegOk rd
  | .armMovReg rd rm => armRegOk rd && armRegOk rm
  | .armB _ | .armBl _ => true
  | .ppcAddi _ _ _ | .ppcSubf _ _ _ | .ppcAdd _ _ _ | .ppcOr _ _ _ => true
  | .x86Add _ _ | .x86Sub _ _ | .x86Mov _ _ => true

end Sys2Proof
end

