-- ==== Sys2Proof/Decode.lean ====
section
/-! DEFINITION. Decoding and encoding, from the opcode maps of 30_encoding (R56, R60, R62, R64), and the
byte order in which instruction words lie in memory (20_memory R38). -/

namespace Sys2Proof

/-! ### Words and bytes -/

/-- The field of `len` bits of `w` whose lowest bit is `lo` (00_scope R8). -/
def field (w : Word) (lo len : Nat) : BitVec len := w.extractLsb' lo len

/-- The word whose field from bit `lo` up is `v` and whose other bits are 0 (00_scope R8). -/
def place {n : Nat} (v : BitVec n) (lo : Nat) : Word := v.setWidth 32 <<< lo

/-- `b3 ++ b2 ++ b1 ++ b0`: the little-endian word of four bytes (20_memory R36). -/
def wordOfBytes (b0 b1 b2 b3 : Byte) : Word := place b3 24 ||| place b2 16 ||| place b1 8 ||| place b0 0

/-- Byte `k` of a word, `v[8k+7:8k]` (20_memory R37, R38). -/
def byteOfWord (v : Word) (k : Nat) : Byte := field v (8 * k) 8

/-! ### Rows of the opcode maps -/

/-- One row of an opcode map: the word is this instruction when `w & mask == pat` (30_encoding R56). -/
structure Row where
  pat   : Word
  mask  : Word
  build : Word → Instr

/-- Whether a word has the row's fixed fields. -/
def rowMatches (r : Row) (w : Word) : Bool := w &&& r.mask == r.pat

/-- The MIPS opcode map (30_encoding R56; fields of R54). -/
def mipsRows : List Row :=
  [ ⟨0x00000000, 0xFFE0003F, fun w => .mipsSll (field w 16 5) (field w 11 5) (field w 6 5)⟩,
    ⟨0x00000002, 0xFFE0003F, fun w => .mipsSrl (field w 16 5) (field w 11 5) (field w 6 5)⟩,
    ⟨0x00000008, 0xFC1FFFFF, fun w => .mipsJr (field w 21 5)⟩,
    ⟨0x0000000C, 0xFC00003F, fun w => .mipsSyscall (field w 6 20)⟩,
    ⟨0x00000020, 0xFC0007FF, fun w => .mipsAdd (field w 21 5) (field w 16 5) (field w 11 5)⟩,
    ⟨0x00000022, 0xFC0007FF, fun w => .mipsSub (field w 21 5) (field w 16 5) (field w 11 5)⟩,
    ⟨0x00000024, 0xFC0007FF, fun w => .mipsAnd (field w 21 5) (field w 16 5) (field w 11 5)⟩,
    ⟨0x00000025, 0xFC0007FF, fun w => .mipsOr (field w 21 5) (field w 16 5) (field w 11 5)⟩,
    ⟨0x00000027, 0xFC0007FF, fun w => .mipsNor (field w 21 5) (field w 16 5) (field w 11 5)⟩,
    ⟨0x10000000, 0xFC000000, fun w => .mipsBeq (field w 21 5) (field w 16 5) (field w 0 16)⟩,
    ⟨0x14000000, 0xFC000000, fun w => .mipsBne (field w 21 5) (field w 16 5) (field w 0 16)⟩,
    ⟨0x20000000, 0xFC000000, fun w => .mipsAddi (field w 21 5) (field w 16 5) (field w 0 16)⟩,
    ⟨0x30000000, 0xFC000000, fun w => .mipsAndi (field w 21 5) (field w 16 5) (field w 0 16)⟩,
    ⟨0x34000000, 0xFC000000, fun w => .mipsOri (field w 21 5) (field w 16 5) (field w 0 16)⟩,
    ⟨0x38000000, 0xFC000000, fun w => .mipsXori (field w 21 5) (field w 16 5) (field w 0 16)⟩,
    ⟨0x8C000000, 0xFC000000, fun w => .mipsLw (field w 21 5) (field w 16 5) (field w 0 16)⟩,
    ⟨0xAC000000, 0xFC000000, fun w => .mipsSw (field w 21 5) (field w 16 5) (field w 0 16)⟩ ]

/-- The data-processing rows of the ARM opcode map (30_encoding R60; fields of R57). -/
def armDataRows : List Row :=
  [ ⟨0xE2800000, 0xFFF00000,
      fun w => .armAddImm (field w 16 4) (field w 12 4) (field w 8 4) (field w 0 8)⟩,
    ⟨0xE0800000, 0xFFF00FF0, fun w => .armAddReg (field w 16 4) (field w 12 4) (field w 0 4)⟩,
    ⟨0xE2400000, 0xFFF00000,
      fun w => .armSubImm (field w 16 4) (field w 12 4) (field w 8 4) (field w 0 8)⟩,
    ⟨0xE0400000, 0xFFF00FF0, fun w => .armSubReg (field w 16 4) (field w 12 4) (field w 0 4)⟩,
    ⟨0xE3A00000, 0xFFFF0000, fun w => .armMovImm (field w 12 4) (field w 8 4) (field w 0 8)⟩,
    ⟨0xE1A00000, 0xFFFF0FF0, fun w => .armMovReg (field w 12 4) (field w 0 4)⟩ ]

/-- The branch rows of the ARM opcode map (30_encoding R60). -/
def armBranchRows : List Row :=
  [ ⟨0xEA000000, 0xFF000000, fun w => .armB (field w 0 24)⟩,
    ⟨0xEB000000, 0xFF000000, fun w => .armBl (field w 0 24)⟩ ]

/-- The PowerPC opcode map (30_encoding R62; fields of R61). -/
def ppcRows : List Row :=
  [ ⟨0x38000000, 0xFC000000, fun w => .ppcAddi (field w 21 5) (field w 16 5) (field w 0 16)⟩,
    ⟨0x7C000050, 0xFC0007FF, fun w => .ppcSubf (field w 21 5) (field w 16 5) (field w 11 5)⟩,
    ⟨0x7C000214, 0xFC0007FF, fun w => .ppcAdd (field w 21 5) (field w 16 5) (field w 11 5)⟩,
    ⟨0x7C000378, 0xFC0007FF, fun w => .ppcOr (field w 21 5) (field w 16 5) (field w 11 5)⟩ ]

/-- The x86 opcode map, on the low 16 bits of the fetched word (30_encoding R63, R64). -/
def x86Rows : List Row :=
  [ ⟨0x0000C001, 0x0000C0FF, fun w => .x86Add (field w 11 3) (field w 8 3)⟩,
    ⟨0x0000C029, 0x0000C0FF, fun w => .x86Sub (field w 11 3) (field w 8 3)⟩,
    ⟨0x0000C089, 0x0000C0FF, fun w => .x86Mov (field w 11 3) (field w 8 3)⟩ ]

/-! ### Decoding -/

/-- Why bytes are no instruction. Every reason but `truncated` is one `UnsupportedOpcode` to the core
(30_encoding R65); the names say which step of the decoding refused the word. -/
inductive Reject where
  /-- no row of the MIPS map matches (R56) -/
  | mipsNoRow
  /-- the condition field is not "always" (R59 step 1) -/
  | armCondition
  /-- a data-processing word that is none of the six rows, or names `r15` (R59 step 3) -/
  | armDataProcessing
  /-- the ARM load/store class (R59 step 4) -/
  | armLoadStore
  /-- any other ARM word (R59 step 5) -/
  | armOtherClass
  /-- no row of the PowerPC map matches (R62, R121) -/
  | ppcNoRow
  /-- no row of the x86 map matches (R64, R127) -/
  | x86NoRow
  /-- fewer bytes than the instruction's length (never the answer for a fetched word) -/
  | truncated
  deriving DecidableEq, Repr

/-- The instruction of the first matching row (30_encoding R56: the rows are disjoint). -/
def decodeRows (rows : List Row) (no : Reject) (w : Word) : Except Reject Instr :=
  match rows.find? (fun r => rowMatches r w) with
  | some r => .ok (r.build w)
  | none => .error no

/-- ARM class decode, its five steps in order (30_encoding R59). -/
def decodeArm (w : Word) : Except Reject Instr :=
  if field w 28 4 ≠ 0b1110#4 then .error .armCondition
  else if field w 25 3 = 0b101#3 then decodeRows armBranchRows .armOtherClass w
  else if field w 26 2 = 0b00#2 then
    match decodeRows armDataRows .armDataProcessing w with
    | .ok i => if i.wf then .ok i else .error .armDataProcessing
    | .error r => .error r
  else if field w 26 2 = 0b01#2 then .error .armLoadStore
  else .error .armOtherClass

/-- The instruction a fetched word is, or why it is none; total (30_encoding R65). -/
def decode (isa : Isa) (w : Word) : Except Reject Instr :=
  match isa with
  | .mips => decodeRows mipsRows .mipsNoRow w
  | .arm => decodeArm w
  | .powerPc => decodeRows ppcRows .ppcNoRow w
  | .x86 => decodeRows x86Rows .x86NoRow w

/-- The instruction at the head of a byte sequence, with the bytes after it (30_encoding R53). -/
def decodeBytes (isa : Isa) (bytes : List Byte) : Except Reject (Instr × List Byte) :=
  match isa, bytes with
  | .x86, b0 :: b1 :: rest => (decode .x86 (wordOfBytes b0 b1 0 0)).map (fun i => (i, rest))
  | .x86, _ => .error .truncated
  | isa, b0 :: b1 :: b2 :: b3 :: rest =>
    (decode isa (wordOfBytes b0 b1 b2 b3)).map (fun i => (i, rest))
  | _, _ => .error .truncated

/-! ### Encoding -/

/-- MIPS format R (30_encoding R54). -/
def mipsR (rs rt rd sa : BitVec 5) (fn : BitVec 6) : Word :=
  place 0x00#6 26 ||| place rs 21 ||| place rt 16 ||| place rd 11 ||| place sa 6 ||| place fn 0

/-- MIPS format I (30_encoding R54). -/
def mipsI (op : BitVec 6) (rs rt : BitVec 5) (imm : BitVec 16) : Word :=
  place op 26 ||| place rs 21 ||| place rt 16 ||| place imm 0

/-- ARM data processing up to `operand2`: condition "always", `S = 0` (30_encoding R57). -/
def armData (imm : BitVec 1) (opc rn rd : BitVec 4) : Word :=
  place 0b1110#4 28 ||| place 0b00#2 26 ||| place imm 25 ||| place opc 21 ||| place 0#1 20
    ||| place rn 16 ||| place rd 12

/-- ARM branch (30_encoding R57). -/
def armBranch (link : BitVec 1) (imm24 : BitVec 24) : Word :=
  place 0b1110#4 28 ||| place 0b10#2 26 ||| place 1#1 25 ||| place link 24 ||| place imm24 0

/-- PowerPC format D (30_encoding R61). -/
def ppcD (opcd : BitVec 6) (rD rA : BitVec 5) (simm : BitVec 16) : Word :=
  place opcd 26 ||| place rD 21 ||| place rA 16 ||| place simm 0

/-- PowerPC format XO with `OE = Rc = 0` (30_encoding R61). -/
def ppcXO (rD rA rB : BitVec 5) (xo : BitVec 9) : Word :=
  place 31#6 26 ||| place rD 21 ||| place rA 16 ||| place rB 11 ||| place 0#1 10 ||| place xo 1
    ||| place 0#1 0

/-- PowerPC format X with `Rc = 0` (30_encoding R61). -/
def ppcX (rS rA rB : BitVec 5) (xo : BitVec 10) : Word :=
  place 31#6 26 ||| place rS 21 ||| place rA 16 ||| place rB 11 ||| place xo 1 ||| place 0#1 0

/-- x86 opcode byte and register-direct ModRM byte (30_encoding R63). -/
def x86ModRm (opcode : BitVec 8) (reg rm : BitVec 3) : Word :=
  place 0b11#2 14 ||| place reg 11 ||| place rm 8 ||| place opcode 0

/-- The word of an instruction, from the formats and opcode values of 30_encoding R54 to R64; an x86
instruction is the low 16 bits. -/
def encodeWord : Instr → Word
  | .mipsSll rt rd sa => mipsR 0 rt rd sa 0x00
  | .mipsSrl rt rd sa => mipsR 0 rt rd sa 0x02
  | .mipsJr rs => mipsR rs 0 0 0 0x08
  | .mipsSyscall code => place 0x00#6 26 ||| place code 6 ||| place 0x0C#6 0
  | .mipsAdd rs rt rd => mipsR rs rt rd 0 0x20
  | .mipsSub rs rt rd => mipsR rs rt rd 0 0x22
  | .mipsAnd rs rt rd => mipsR rs rt rd 0 0x24
  | .mipsOr rs rt rd => mipsR rs rt rd 0 0x25
  | .mipsNor rs rt rd => mipsR rs rt rd 0 0x27
  | .mipsBeq rs rt imm => mipsI 0x04 rs rt imm
  | .mipsBne rs rt imm => mipsI 0x05 rs rt imm
  | .mipsAddi rs rt imm => mipsI 0x08 rs rt imm
  | .mipsAndi rs rt imm => mipsI 0x0C rs rt imm
  | .mipsOri rs rt imm => mipsI 0x0D rs rt imm
  | .mipsXori rs rt imm => mipsI 0x0E rs rt imm
  | .mipsLw rs rt imm => mipsI 0x23 rs rt imm
  | .mipsSw rs rt imm => mipsI 0x2B rs rt imm
  | .armAddImm rn rd rot imm8 => armData 1 0b0100 rn rd ||| place rot 8 ||| place imm8 0
  | .armAddReg rn rd rm => armData 0 0b0100 rn rd ||| place 0#8 4 ||| place rm 0
  | .armSubImm rn rd rot imm8 => armData 1 0b0010 rn rd ||| place rot 8 ||| place imm8 0
  | .armSubReg rn rd rm => armData 0 0b0010 rn rd ||| place 0#8 4 ||| place rm 0
  | .armMovImm rd rot imm8 => armData 1 0b1101 0 rd ||| place rot 8 ||| place imm8 0
  | .armMovReg rd rm => armData 0 0b1101 0 rd ||| place 0#8 4 ||| place rm 0
  | .armB imm24 => armBranch 0 imm24
  | .armBl imm24 => armBranch 1 imm24
  | .ppcAddi rD rA simm => ppcD 14 rD rA simm
  | .ppcSubf rD rA rB => ppcXO rD rA rB 40
  | .ppcAdd rD rA rB => ppcXO rD rA rB 266
  | .ppcOr rS rA rB => ppcX rS rA rB 444
  | .x86Add reg rm => x86ModRm 0x01 reg rm
  | .x86Sub reg rm => x86ModRm 0x29 reg rm
  | .x86Mov reg rm => x86ModRm 0x89 reg rm

/-- Instruction length in bytes: 4 on MIPS, ARM and PowerPC, 2 on x86 (30_encoding R53). -/
def instrLength : Isa → Nat
  | .mips | .arm | .powerPc => 4
  | .x86 => 2

/-- The bytes of an instruction in memory order, least significant first (20_memory R38). -/
def encode (i : Instr) : List Byte :=
  (List.range (instrLength i.isa)).map (byteOfWord (encodeWord i))

/-! ### The opcode table's words -/

/-- The instruction sets in the opcode table's order, narrowest words last. -/
def tableIsas (nbits : Nat) : List Isa :=
  if nbits ≤ 16 then [.x86] else [.mips, .arm, .powerPc, .x86]

/-- The four bytes from the first on of an instruction whose table bits are `w`, the bits above `nbits`
being 0. -/
def tableBytes (nbits w : Nat) : List Byte :=
  (List.range 4).map (byteOfWord (BitVec.ofNat 32 (w % 2 ^ nbits)))

/-- The first instruction set, in the table's order, whose decoder knows the word, with the instruction.
DESIGN CHOICE (assumption 11): the table's words carry no instruction set, and the words of MIPS `xori`
are those of PowerPC `addi` too; such a word is read as MIPS. -/
def tableDecode (nbits w : Nat) : Option (Isa × Instr) :=
  (tableIsas nbits).findSome? (fun isa =>
    match decodeBytes isa (tableBytes nbits w) with
    | .ok (i, _) => some (isa, i)
    | .error _ => none)

/-- The instruction the decoder reads from an opcode-table word (bit 0 the least significant bit of the
first byte in memory). -/
def decodeTableWord (nbits w : Nat) : Option Instr :=
  (tableDecode nbits w).map Prod.snd

end Sys2Proof
end

