-- ==== Sys2Proof/Machine/State.lean ====
section
/-! DEFINITION. The state of one core (10_state R12), the reasons a step can stop, and the state of a newly
constructed core (70_reset R149). -/

namespace Sys2Proof.Machine

/-- The core state machine (40_cycle R70; four states: 90_conflicts C3). -/
inductive Status where
  | idle
  | loaded
  | running
  | halted
  deriving DecidableEq, Repr

/-- Why a core halted (60_exceptions R133). `pc` is the address of the instruction, `w` its word. -/
inductive HaltCause where
  | stopped
  | budgetExhausted
  | unsupportedOpcode (pc w : Word)
  | unsupportedSyscall (pc n : Word)
  | arithmeticOverflow (pc w : Word)
  | misaligned (pc a : Word)
  | unmodelled (pc w : Word)
  deriving DecidableEq, Repr

/-- The kinds of bus fault (10_state R26; `romWrite` apart from the two unmapped kinds: 90_conflicts C4). -/
inductive BusFaultKind where
  | read
  | write
  | romWrite
  deriving DecidableEq, Repr

/-- The events of the trace (10_state R26). -/
inductive Event where
  | outChar (b : Byte)
  | outInt (n : Int)
  | outText (bs : List Byte)
  | busFault (kind : BusFaultKind) (a : Word)
  | ioWriteIgnored (a : Word) (b : Byte)
  | ioStubWrite (a : Word) (b : Byte)
  | halted (cause : HaltCause)
  deriving DecidableEq, Repr

/-- The MMIO storage registers (10_state R25). -/
structure IoRegs where
  timerControl : Word := 0
  intMask      : Word := 0
  gpio         : Word := 0
  deriving DecidableEq, Repr

/-- Byte-addressed contents of ROM and RAM: the bytes that are not `0x00`, by rising address. A byte that
is not listed reads as `0x00`, as every ROM byte below the image and every RAM byte does after `Load`
(10_state R23, R24; assumption 4). -/
abbrev Memory := List Host.Cell

/-- The canonical form of a memory: addresses strictly rising, no byte listed that reads as unlisted. -/
def Memory.wf (m : Memory) : Bool :=
  decide (m.Pairwise (fun c d => c.1 < d.1)) && m.all (fun c => c.2 != 0)

/-- One core's state: the record of 10_state R12. `rom` and `ram` are `romLen`, `ramLen` and the bytes of
`mem` at their addresses. `cfg` holds the parameters of 00_scope R7 (assumption 1), and `draws` is the
model's own counter of `TIMER_VALUE` draws (assumption 7). -/
structure State where
  cfg              : Config
  status           : Status
  pc               : Word
  ir               : Word
  instructionCount : Nat
  haltCause        : Option HaltCause
  stopRequested    : Bool
  x                : Vector Word 32
  cpsr             : Word
  eflags           : Word
  romLen           : Nat
  ramLen           : Nat
  mem              : Memory
  io               : IoRegs
  written          : Vector Bool 32
  trace            : List Event
  draws            : Nat
  deriving DecidableEq, Repr

/-- A newly constructed core (70_reset R149): the values of 10_state R27 for the `Idle` case, with the
default parameters of 00_scope R7. A program comes in by `Load` (assumption 3). -/
def State.reset : State where
  cfg := {}
  status := .idle
  pc := 0x00000000
  ir := 0x00000000
  instructionCount := 0
  haltCause := none
  stopRequested := false
  x := Vector.replicate 32 0x00000000
  cpsr := 0x00000000
  eflags := 0x00000002
  romLen := 0
  ramLen := 0
  mem := []
  io := {}
  written := Vector.replicate 32 false
  trace := []
  draws := 0

/-- How a step can have no next state. A core's own faults are no such stop: they halt the core, which is
a next state (40_cycle R71, 60_exceptions R137). -/
inductive Fault where
  /-- Raised by `step` and `execWord` in status `Halted`, with the recorded cause: no step is enabled, the
  state stays as it is (40_cycle R82, R86). Safe: nothing can be proved of a state after it. -/
  | halted (cause : Option HaltCause)
  deriving DecidableEq, Repr

/-- How a step can be turned away. -/
inductive Refusal where
  /-- Raised by `exec` for an instruction that has no meaning yet. Safe. -/
  | notModelled (mnemonic : String)
  /-- Raised by `step`, `execWord` and `runFor` in status `Idle`: the host error `NotLoaded`, no state
  changed (40_cycle R82, 60_exceptions R136). Safe: the spec gives no next state. -/
  | notLoaded
  deriving DecidableEq, Repr

/-- What a step or an instruction answers. -/
abbrev Result := Host.Outcome State Fault Refusal

end Sys2Proof.Machine
end

