-- ==== Sys2Proof/Machine/Ops.lean ====
section
/-! DEFINITION. The named operations over memory contents, registers, the trace and the core's status. -/

namespace Sys2Proof.Machine

/-! ### Constants of 00_scope R7 -/

/-- `ROM_BASE`. -/
def romBase : Nat := 0x00000000
/-- `RAM_BASE`. -/
def ramBase : Nat := 0x80000000
/-- `IO_BASE`. -/
def ioBase : Nat := 0xF0000000
/-- `IMAGE_MAX`, 1 GiB. -/
def imageMax : Nat := 2 ^ 30
/-- `UNMAPPED_READ`. -/
def unmappedRead : Byte := 0xFF

/-- `NREG`: how many general registers an instruction set has (10_state R15 to R18). -/
def nreg : Isa → Nat
  | .mips | .powerPc => 32
  | .arm => 16
  | .x86 => 8

/-! ### Memory contents -/

/-- The byte a memory holds at an address; an unlisted byte is `0x00` (assumption 4). -/
def Memory.read : Memory → Nat → Byte
  | [], _ => 0
  | c :: m, a => if c.1 = a then c.2 else Memory.read m a

/-- The memory with the byte at `a` set to `b`, in canonical form. -/
def Memory.write : Memory → Nat → Byte → Memory
  | [], a, b => if b = 0 then [] else [(a, b)]
  | c :: m, a, b =>
    if a < c.1 then (if b = 0 then c :: m else (a, b) :: c :: m)
    else if a = c.1 then (if b = 0 then m else (a, b) :: m)
    else c :: Memory.write m a b

/-- The memory that holds the bytes `bs` from address `a` on and nothing else: `[0x00] * a ++ bs`
(70_reset R150). -/
def Memory.ofImage : Nat → List Byte → Memory
  | _, [] => []
  | a, b :: bs =>
    if b = 0 then Memory.ofImage (a + 1) bs else (a, b) :: Memory.ofImage (a + 1) bs

/-! ### The trace and the core's status -/

/-- `emit(e)`: the trace with `e` at its end (00_scope R10, 10_state R26). -/
def State.emit (s : State) (e : Event) : State := { s with trace := s.trace ++ [e] }

/-- `halt(c)`, the one way a fault is taken: it changes the status, the recorded cause and the trace, and
nothing else (40_cycle R71). There is no trap entry and no return from one (60_exceptions R139, R140): only
a new `Load` leaves `Halted`. -/
def State.halt (s : State) (c : HaltCause) : State :=
  ({ s with status := .halted, haltCause := some c }).emit (.halted c)

/-- The end of a completed instruction: `pc <- t`, the count up by one, status `Running`
(40_cycle R74). -/
def State.complete (s : State) (t : Word) : State :=
  { s with pc := t, instructionCount := s.instructionCount + 1, status := .running }

/-! ### General registers -/

/-- A register of the file. MIPS and PowerPC fields are 5 bits wide; ARM and x86 fields are widened. -/
abbrev RegIx := BitVec 5

/-- An ARM register field as an index (10_state R16). -/
def armReg (r : BitVec 4) : RegIx := r.setWidth 5

/-- An x86 register field as an index (10_state R18). -/
def x86Reg (r : BitVec 3) : RegIx := r.setWidth 5

/-- Whether register `r` is the constant zero: MIPS `x[0]` when `MIPS_R0_HARDWIRED` (10_state R15). -/
def State.hardwired (s : State) (r : RegIx) : Bool :=
  s.cfg.isa == .mips && s.cfg.r0Hardwired && r == 0

/-- `x[r]` (00_scope R10, 41_mips_alu R87). -/
def State.readReg (s : State) (r : RegIx) : Word :=
  if s.hardwired r then 0 else s.x.get r.toFin

/-- `x[r] <- v`: no effect on a hardwired register (10_state R15); under `REG_RESET = unknown` the index
joins `written` (10_state R28; assumption 13). -/
def State.writeReg (s : State) (r : RegIx) (v : Word) : State :=
  if s.hardwired r then s
  else { s with
    x := s.x.set r.toNat v r.isLt
    written := match s.cfg.regReset with
      | .zero => s.written
      | .unknown => s.written.set r.toNat true r.isLt }

/-- Whether reading register `r` gives a value: always, but for a register never written when
`REG_RESET = unknown` (10_state R28). -/
def State.known (s : State) (r : RegIx) : Bool :=
  s.cfg.regReset == .zero || s.hardwired r || s.written.get r.toFin

end Sys2Proof.Machine
end

