-- ==== Sys2Proof/Machine/Bus.lean ====
section
/-! DEFINITION. The address-space decoder and the byte and word accesses of 20_memory: every fetch, load,
store and string read goes through these. -/

namespace Sys2Proof.Machine

/-! ### Regions -/

/-- Where an address lies, with its offset in the region (20_memory R30). -/
inductive Region where
  | rom (o : Nat)
  | ram (o : Nat)
  | io (o : Nat)
  | unmapped
  deriving DecidableEq, Repr

/-- The region of an address, checked in the fixed order ROM, RAM, IO, else unmapped (20_memory R30). -/
def State.region (s : State) (a : Word) : Region :=
  if romBase ≤ a.toNat ∧ a.toNat < romBase + s.romLen then .rom (a.toNat - romBase)
  else if ramBase ≤ a.toNat ∧ a.toNat < ramBase + s.ramLen then .ram (a.toNat - ramBase)
  else if ioBase ≤ a.toNat then .io (a.toNat - ioBase)
  else .unmapped

/-- The byte ROM or RAM holds at an address, as a memory snapshot shows it (40_cycle R84): no bus access. -/
def State.peek (s : State) (a : Word) : Byte := s.mem.read a.toNat

/-! ### The MMIO map -/

/-- What an offset of the MMIO window belongs to (20_memory R41). -/
inductive IoTarget where
  | uartStatus
  | uartData
  | timerControl
  | timerValue
  | intMask
  | gpio
  | networkStub
  | videoStub
  | unassigned
  deriving DecidableEq, Repr

/-- The register whose slot `o & ~3` is, or the stub range `o` lies in, or nothing (20_memory R41, R42). -/
def ioTarget (m : IoMap) (o : Nat) : IoTarget :=
  let slot := o - o % 4
  if slot = m.uartStatus then .uartStatus
  else if slot = m.uartData then .uartData
  else if slot = m.timerControl then .timerControl
  else if slot = m.timerValue then .timerValue
  else if slot = m.intMask then .intMask
  else if slot = m.gpio then .gpio
  else if m.networkBase ≤ o ∧ o < m.networkBase + m.networkSize then .networkStub
  else if m.videoBase ≤ o ∧ o < m.videoBase + m.videoSize then .videoStub
  else .unassigned

/-- The word `UART_STATUS` reads as: `TX_READY` = 1, every other bit 0 (20_memory R41, R44). -/
def uartStatusValue : Word := 0x00000001

/-- `v` with its byte `lane` replaced by `b` (20_memory R43). -/
def setLane (v : Word) (lane : Nat) (b : Byte) : Word :=
  match lane with
  | 0 => wordOfBytes b (byteOfWord v 1) (byteOfWord v 2) (byteOfWord v 3)
  | 1 => wordOfBytes (byteOfWord v 0) b (byteOfWord v 2) (byteOfWord v 3)
  | 2 => wordOfBytes (byteOfWord v 0) (byteOfWord v 1) b (byteOfWord v 3)
  | _ => wordOfBytes (byteOfWord v 0) (byteOfWord v 1) (byteOfWord v 2) b

/-- `ioReadByte(o)` (20_memory R42). Only the model's draw counter can change: a `TIMER_VALUE` byte is a
fresh free value (R45; assumption 7). -/
def State.ioReadByte (s : State) (o : Nat) : Byte × State :=
  match ioTarget s.cfg.ioMap o with
  | .uartStatus => (byteOfWord uartStatusValue (o % 4), s)
  | .timerControl => (byteOfWord s.io.timerControl (o % 4), s)
  | .intMask => (byteOfWord s.io.intMask (o % 4), s)
  | .gpio => (byteOfWord s.io.gpio (o % 4), s)
  | .timerValue => (Config.timerDraw s.draws, { s with draws := s.draws + 1 })
  | .uartData | .networkStub | .videoStub | .unassigned => (0x00, s)

/-- `ioWriteByte(o, v)` for the byte at address `a = IO_BASE + o` (20_memory R43). -/
def State.ioWriteByte (s : State) (o : Nat) (a : Word) (v : Byte) : State :=
  match ioTarget s.cfg.ioMap o with
  | .uartData => if o % 4 = 0 then s.emit (.outChar v) else s
  | .timerControl =>
    { s with io := { s.io with timerControl := setLane s.io.timerControl (o % 4) v } }
  | .intMask => { s with io := { s.io with intMask := setLane s.io.intMask (o % 4) v } }
  | .gpio => { s with io := { s.io with gpio := setLane s.io.gpio (o % 4) v } }
  | .uartStatus | .timerValue | .unassigned => s.emit (.ioWriteIgnored a v)
  | .networkStub | .videoStub => s.emit (.ioStubWrite a v)

/-! ### Byte and word accesses -/

/-- `readByte(a)` (20_memory R34): the byte, and the state with the events of the read. -/
def State.readByte (s : State) (a : Word) : Byte × State :=
  match s.region a with
  | .rom _ | .ram _ => (s.peek a, s)
  | .io o => s.ioReadByte o
  | .unmapped => (unmappedRead, s.emit (.busFault .read a))

/-- `writeByte(a, v)` (20_memory R35): a ROM write and an unmapped write are rejected and logged. -/
def State.writeByte (s : State) (a : Word) (v : Byte) : State :=
  match s.region a with
  | .rom _ => s.emit (.busFault .romWrite a)
  | .ram _ => { s with mem := s.mem.write a.toNat v }
  | .io o => s.ioWriteByte o a v
  | .unmapped => s.emit (.busFault .write a)

/-- `readWord(a)`: four byte reads at `a`, `a+1`, `a+2`, `a+3` modulo `2^32`, in this order, composed
little-endian (20_memory R33, R36). -/
def State.readWord (s : State) (a : Word) : Word × State :=
  let r0 := s.readByte a
  let r1 := r0.2.readByte (a + 1)
  let r2 := r1.2.readByte (a + 2)
  let r3 := r2.2.readByte (a + 3)
  (wordOfBytes r0.1 r1.1 r2.1 r3.1, r3.2)

/-- `writeWord(a, v)`: four byte writes, the least significant byte first (20_memory R33, R37). -/
def State.writeWord (s : State) (a v : Word) : State :=
  (((s.writeByte a (byteOfWord v 0)).writeByte (a + 1) (byteOfWord v 1)).writeByte
    (a + 2) (byteOfWord v 2)).writeByte (a + 3) (byteOfWord v 3)

/-- Whether an address has `a[1:0] != 0` (20_memory R39). -/
def misaligned (a : Word) : Bool := a.extractLsb' 0 2 != 0#2

/-- The bytes from `a` on up to the first `0x00`, read one at a time (43_mips_control R108). The first
argument bounds the reads. -/
def State.readString : Nat → State → Word → List Byte × State
  | 0, s, _ => ([], s)
  | n + 1, s, a =>
    let r := s.readByte a
    if r.1 = 0x00 then ([], r.2)
    else
      let rest := State.readString n r.2 (a + 1)
      (r.1 :: rest.1, rest.2)

/-- How many byte reads a string scan may take: `2^32`, by which every scan has ended
(43_mips_control R108; assumption 10). -/
def stringScanBound : Nat := 2 ^ 32

end Sys2Proof.Machine
end

