-- ==== Sys2Proof/Machine/Operands.lean ====
section
/-! DEFINITION. The operand forms of the four instruction sets, and the check that a register has a value
before it is read. -/

namespace Sys2Proof.Machine

/-- `sext_32` of a 16-bit immediate (30_encoding R55, R61). -/
def sext16 (imm : BitVec 16) : Word := imm.signExtend 32

/-- `zext_32` of a 16-bit immediate (30_encoding R55). -/
def zext16 (imm : BitVec 16) : Word := imm.setWidth 32

/-- The target of a taken MIPS branch at `pc`: `pc + 4 + (sext_32(imm) << 2)` (43_mips_control R105). -/
def mipsBranchTarget (pc : Word) (imm : BitVec 16) : Word := pc + 4 + (sext16 imm <<< 2)

/-- `ea = x[rs] + sext_32(imm)`, the one addressing mode (42_mips_memory R101). -/
def State.effectiveAddress (s : State) (rs : RegIx) (imm : BitVec 16) : Word :=
  s.readReg rs + sext16 imm

/-- The ARM rotated immediate, `ror32(zext_32(imm8), 2 * rot)` (30_encoding R58, 44_arm R111). -/
def armImmediate (rot : BitVec 4) (imm8 : BitVec 8) : Word :=
  (imm8.setWidth 32).rotateRight (2 * rot.toNat)

/-- `ARM_PC_BIAS` as a number (44_arm R118). -/
def armPcBiasValue : ArmPcBias → Word
  | .eight => 8
  | .four => 4

/-- The target of B and BL at `pc`: `pc + ARM_PC_BIAS + (sext_32(imm24) << 2)` (44_arm R118). -/
def State.armBranchTarget (s : State) (imm24 : BitVec 24) : Word :=
  s.pc + armPcBiasValue s.cfg.armPcBias + (imm24.signExtend 32 <<< 2)

/-- The base of the PowerPC `addi`: the value 0 when the field is 0, else the register
(45_powerpc R123). -/
def State.ppcAddiBase (s : State) (rA : RegIx) : Word :=
  if rA = 0 then 0 else s.readReg rA

/-- The registers the PowerPC `addi` reads (45_powerpc R123). -/
def ppcAddiReads (rA : RegIx) : List RegIx := if rA = 0 then [] else [rA]

/-- Whether every register of a list has a value (10_state R28). -/
def State.allKnown (s : State) (rs : List RegIx) : Bool := rs.all s.known

/-- The register check in front of a rule: if a register it reads has no value, the core halts with
`Unmodelled(pc, ir)` and nothing else happens (10_state R28, 41_mips_alu R87). -/
def State.reading (s : State) (rs : List RegIx) (k : Result) : Result :=
  if s.allKnown rs then k else .next (s.halt (.unmodelled s.pc s.ir))

/-- An instruction that writes one register and goes on at `t`. -/
def State.setRegister (s : State) (d : RegIx) (v t : Word) : Result :=
  .next ((s.writeReg d v).complete t)

end Sys2Proof.Machine
end

