-- ==== Sys2Proof/Machine/Flags.lean ====
section
/-! DEFINITION. Signed overflow of the MIPS adds (41_mips_alu R88) and the x86 flags (46_x86 R129). -/

namespace Sys2Proof.Machine

/-! ### MIPS signed overflow -/

/-- Whether an exact integer result lies outside `-2^31 .. 2^31-1` (41_mips_alu R88). -/
def outOfRange (n : Int) : Bool := decide (n < -2 ^ 31) || decide (2 ^ 31 - 1 < n)

/-- Signed overflow of `a + b` (41_mips_alu R88, R90, R97). -/
def addOverflows (a b : Word) : Bool := outOfRange (a.toInt + b.toInt)

/-- Signed overflow of `a - b` (41_mips_alu R88, R91). -/
def subOverflows (a b : Word) : Bool := outOfRange (a.toInt - b.toInt)

/-- A MIPS add or subtract, after its registers are read: with `MIPS_OVERFLOW = fault` an overflow halts
and nothing is written, else the result modulo `2^32` goes to `d` (41_mips_alu R88). -/
def State.setChecked (s : State) (overflows : Bool) (d : RegIx) (v : Word) : Result :=
  if s.cfg.overflow == .fault && overflows then .next (s.halt (.arithmeticOverflow s.pc s.ir))
  else s.setRegister d v (s.pc + 4)

/-! ### x86 flags -/

/-- 1 when a byte has an even number of 1 bits (46_x86 R129, PF). -/
def evenParity (b : Byte) : Bool :=
  !(b.getLsbD 0 ^^ b.getLsbD 1 ^^ b.getLsbD 2 ^^ b.getLsbD 3
    ^^ b.getLsbD 4 ^^ b.getLsbD 5 ^^ b.getLsbD 6 ^^ b.getLsbD 7)

/-- The six arithmetic flags (10_state R21). -/
structure X86Flags where
  cf : Bool
  pf : Bool
  af : Bool
  zf : Bool
  sf : Bool
  of : Bool
  deriving DecidableEq, Repr

/-- The flags of `ADD(a, b, r)` with `r = a + b` (46_x86 R129). -/
def x86AddFlags (a b r : Word) : X86Flags where
  cf := decide (2 ^ 32 ≤ a.toNat + b.toNat)
  pf := evenParity (r.extractLsb' 0 8)
  af := (a ^^^ b ^^^ r).getLsbD 4
  zf := r == 0
  sf := r.getLsbD 31
  of := a.getLsbD 31 == b.getLsbD 31 && r.getLsbD 31 != a.getLsbD 31

/-- The flags of `SUB(a, b, r)` with `r = a - b` (46_x86 R129). -/
def x86SubFlags (a b r : Word) : X86Flags where
  cf := decide (a.toNat < b.toNat)
  pf := evenParity (r.extractLsb' 0 8)
  af := (a ^^^ b ^^^ r).getLsbD 4
  zf := r == 0
  sf := r.getLsbD 31
  of := a.getLsbD 31 != b.getLsbD 31 && r.getLsbD 31 != a.getLsbD 31

/-- The bits of `eflags` that hold flags: 0, 2, 4, 6, 7 and 11 (10_state R21). -/
def x86FlagMask : Word := 0x000008D5

/-- The flags at their bit positions, every other bit 0 (10_state R21). -/
def x86FlagBits (f : X86Flags) : Word :=
  place (BitVec.ofBool f.cf) 0 ||| place (BitVec.ofBool f.pf) 2 ||| place (BitVec.ofBool f.af) 4
    ||| place (BitVec.ofBool f.zf) 6 ||| place (BitVec.ofBool f.sf) 7 ||| place (BitVec.ofBool f.of) 11

/-- `eflags` with the six flags replaced; the reserved bits are never written (10_state R21, 46_x86 R129;
assumption 12). -/
def withX86Flags (eflags : Word) (f : X86Flags) : Word :=
  (eflags &&& ~~~x86FlagMask) ||| x86FlagBits f

/-- `eflags <- f`. -/
def State.setX86Flags (s : State) (f : X86Flags) : State :=
  { s with eflags := withX86Flags s.eflags f }

end Sys2Proof.Machine
end

