-- ==== Sys2Proof/Machine/Arm.lean ====
section
/-! DEFINITION. The meanings of the ARM instructions (44_arm). The decoder admits no `r15` operand (R109), no
condition but "always" and no flag-setting form, so `cpsr` is neither read nor written (10_state R20). -/

namespace Sys2Proof.Machine

/-- `ADD Rd, Rn, #imm` (R112). -/
def execArmAddImm (rn rd rot : BitVec 4) (imm8 : BitVec 8) (s : State) : Result :=
  s.reading [armReg rn]
    (s.setRegister (armReg rd) (s.readReg (armReg rn) + armImmediate rot imm8) (s.pc + 4))

/-- `ADD Rd, Rn, Rm` (R113). -/
def execArmAddReg (rn rd rm : BitVec 4) (s : State) : Result :=
  s.reading [armReg rn, armReg rm]
    (s.setRegister (armReg rd) (s.readReg (armReg rn) + s.readReg (armReg rm)) (s.pc + 4))

/-- `SUB Rd, Rn, #imm` (R114). -/
def execArmSubImm (rn rd rot : BitVec 4) (imm8 : BitVec 8) (s : State) : Result :=
  s.reading [armReg rn]
    (s.setRegister (armReg rd) (s.readReg (armReg rn) - armImmediate rot imm8) (s.pc + 4))

/-- `SUB Rd, Rn, Rm` (R115). -/
def execArmSubReg (rn rd rm : BitVec 4) (s : State) : Result :=
  s.reading [armReg rn, armReg rm]
    (s.setRegister (armReg rd) (s.readReg (armReg rn) - s.readReg (armReg rm)) (s.pc + 4))

/-- `MOV Rd, #imm` (R116): no register is read. -/
def execArmMovImm (rd rot : BitVec 4) (imm8 : BitVec 8) (s : State) : Result :=
  s.setRegister (armReg rd) (armImmediate rot imm8) (s.pc + 4)

/-- `MOV Rd, Rm` (R117). -/
def execArmMovReg (rd rm : BitVec 4) (s : State) : Result :=
  s.reading [armReg rm] (s.setRegister (armReg rd) (s.readReg (armReg rm)) (s.pc + 4))

/-- `B label` (R119). -/
def execArmB (imm24 : BitVec 24) (s : State) : Result :=
  .next (s.complete (s.armBranchTarget imm24))

/-- `r14`, the link register (10_state R16). -/
def regLr : RegIx := 14

/-- `BL label` (R120): the link is `pc + 4`, the target is computed from `pc`. -/
def execArmBl (imm24 : BitVec 24) (s : State) : Result :=
  s.setRegister regLr (s.pc + 4) (s.armBranchTarget imm24)

end Sys2Proof.Machine
end

