-- ==== Sys2Proof/Machine/MipsAlu.lean ====
section
/-! DEFINITION. The meanings of the MIPS arithmetic, logical and shift instructions (41_mips_alu). Each is
run on the state after its fetch: `pc` is the instruction's address and `ir` its word. -/

namespace Sys2Proof.Machine

/-- `sll rd, rt, sa` (R95). -/
def execMipsSll (rt rd sa : BitVec 5) (s : State) : Result :=
  s.reading [rt] (s.setRegister rd (s.readReg rt <<< sa.toNat) (s.pc + 4))

/-- `srl rd, rt, sa` (R96). -/
def execMipsSrl (rt rd sa : BitVec 5) (s : State) : Result :=
  s.reading [rt] (s.setRegister rd (s.readReg rt >>> sa.toNat) (s.pc + 4))

/-- `add rd, rs, rt` (R90). -/
def execMipsAdd (rs rt rd : BitVec 5) (s : State) : Result :=
  s.reading [rs, rt]
    (s.setChecked (addOverflows (s.readReg rs) (s.readReg rt)) rd (s.readReg rs + s.readReg rt))

/-- `sub rd, rs, rt` (R91). -/
def execMipsSub (rs rt rd : BitVec 5) (s : State) : Result :=
  s.reading [rs, rt]
    (s.setChecked (subOverflows (s.readReg rs) (s.readReg rt)) rd (s.readReg rs - s.readReg rt))

/-- `and rd, rs, rt` (R92). -/
def execMipsAnd (rs rt rd : BitVec 5) (s : State) : Result :=
  s.reading [rs, rt] (s.setRegister rd (s.readReg rs &&& s.readReg rt) (s.pc + 4))

/-- `or rd, rs, rt` (R93). -/
def execMipsOr (rs rt rd : BitVec 5) (s : State) : Result :=
  s.reading [rs, rt] (s.setRegister rd (s.readReg rs ||| s.readReg rt) (s.pc + 4))

/-- `nor rd, rs, rt` (R94). -/
def execMipsNor (rs rt rd : BitVec 5) (s : State) : Result :=
  s.reading [rs, rt] (s.setRegister rd (~~~(s.readReg rs ||| s.readReg rt)) (s.pc + 4))

/-- `addi rt, rs, imm` (R97). -/
def execMipsAddi (rs rt : BitVec 5) (imm : BitVec 16) (s : State) : Result :=
  s.reading [rs]
    (s.setChecked (addOverflows (s.readReg rs) (sext16 imm)) rt (s.readReg rs + sext16 imm))

/-- `andi rt, rs, imm` (R98). -/
def execMipsAndi (rs rt : BitVec 5) (imm : BitVec 16) (s : State) : Result :=
  s.reading [rs] (s.setRegister rt (s.readReg rs &&& zext16 imm) (s.pc + 4))

/-- `ori rt, rs, imm` (R99). -/
def execMipsOri (rs rt : BitVec 5) (imm : BitVec 16) (s : State) : Result :=
  s.reading [rs] (s.setRegister rt (s.readReg rs ||| zext16 imm) (s.pc + 4))

/-- `xori rt, rs, imm` (R100). -/
def execMipsXori (rs rt : BitVec 5) (imm : BitVec 16) (s : State) : Result :=
  s.reading [rs] (s.setRegister rt (s.readReg rs ^^^ zext16 imm) (s.pc + 4))

end Sys2Proof.Machine
end

