-- ==== Sys2Proof/Machine/MipsControl.lean ====
section
/-! DEFINITION. The meanings of the MIPS branches, jump-register and syscall (43_mips_control). There is no
delay slot (R104). -/

namespace Sys2Proof.Machine

/-- `beq rs, rt, imm` (R105). -/
def execMipsBeq (rs rt : BitVec 5) (imm : BitVec 16) (s : State) : Result :=
  s.reading [rs, rt]
    (.next (s.complete
      (if s.readReg rs = s.readReg rt then mipsBranchTarget s.pc imm else s.pc + 4)))

/-- `bne rs, rt, imm` (R106). -/
def execMipsBne (rs rt : BitVec 5) (imm : BitVec 16) (s : State) : Result :=
  s.reading [rs, rt]
    (.next (s.complete
      (if s.readReg rs ≠ s.readReg rt then mipsBranchTarget s.pc imm else s.pc + 4)))

/-- `jr rs` (R107). -/
def execMipsJr (rs : BitVec 5) (s : State) : Result :=
  s.reading [rs] (.next (s.complete (s.readReg rs)))

/-- `$v0`, the call number of `syscall` (R108). -/
def regV0 : RegIx := 2

/-- `$a0`, the argument of `syscall` (R108). -/
def regA0 : RegIx := 4

/-- Call 1: print the integer in `$a0` (R108). -/
def State.printInt (s : State) : Result :=
  .next ((s.emit (.outInt (s.readReg regA0).toInt)).complete (s.pc + 4))

/-- Call 4: print the string at `$a0`; the reads' events come before the text (R108). -/
def State.printString (s : State) : Result :=
  let r := s.readString stringScanBound (s.readReg regA0)
  .next ((r.2.emit (.outText r.1)).complete (s.pc + 4))

/-- `syscall` (R108): the code field is ignored; `$a0` is read, and so checked, only by calls 1 and 4
(41_mips_alu R87). -/
def execMipsSyscall (_code : BitVec 20) (s : State) : Result :=
  s.reading [regV0]
    (if s.readReg regV0 = 1 then s.reading [regA0] s.printInt
     else if s.readReg regV0 = 4 then s.reading [regA0] s.printString
     else .next (s.halt (.unsupportedSyscall s.pc (s.readReg regV0))))

end Sys2Proof.Machine
end

