-- ==== Sys2Proof/Machine/MipsMemory.lean ====
section
/-! DEFINITION. The meanings of the MIPS loads and stores (42_mips_memory). -/

namespace Sys2Proof.Machine

/-- The alignment check of a word access at `ea`: with `ALIGN_CHECK` a misaligned address halts before any
byte is accessed (20_memory R39). -/
def State.aligned (s : State) (ea : Word) (k : Result) : Result :=
  if s.cfg.alignCheck && misaligned ea then .next (s.halt (.misaligned s.pc ea)) else k

/-- `lw rt, imm(rs)` (R102): the read is made, with its events, even when `rt` discards the value. -/
def execMipsLw (rs rt : BitVec 5) (imm : BitVec 16) (s : State) : Result :=
  s.reading [rs]
    (s.aligned (s.effectiveAddress rs imm)
      (let r := s.readWord (s.effectiveAddress rs imm)
       r.2.setRegister rt r.1 (s.pc + 4)))

/-- `sw rt, imm(rs)` (R103): both registers are read before the address is checked, so an unwritten source halts
`Unmodelled` also at a misaligned address (60_exceptions R138, 92_eei_decisions D23; assumption 9). -/
def execMipsSw (rs rt : BitVec 5) (imm : BitVec 16) (s : State) : Result :=
  s.reading [rs, rt]
    (s.aligned (s.effectiveAddress rs imm)
      (.next ((s.writeWord (s.effectiveAddress rs imm) (s.readReg rt)).complete (s.pc + 4))))

end Sys2Proof.Machine
end

