-- ==== Sys2Proof/Machine/PowerPc.lean ====
section
/-! DEFINITION. The meanings of the PowerPC instructions (45_powerpc). No condition register or XER exists
(R122). -/

namespace Sys2Proof.Machine

/-- `addi rD, rA, SIMM` (R123): `rA = 0` is the value 0, not `r0`. -/
def execPpcAddi (rD rA : BitVec 5) (simm : BitVec 16) (s : State) : Result :=
  s.reading (ppcAddiReads rA) (s.setRegister rD (s.ppcAddiBase rA + sext16 simm) (s.pc + 4))

/-- `subf rD, rA, rB`: `rB - rA` (R124). -/
def execPpcSubf (rD rA rB : BitVec 5) (s : State) : Result :=
  s.reading [rB, rA] (s.setRegister rD (s.readReg rB - s.readReg rA) (s.pc + 4))

/-- `add rD, rA, rB` (R125). -/
def execPpcAdd (rD rA rB : BitVec 5) (s : State) : Result :=
  s.reading [rA, rB] (s.setRegister rD (s.readReg rA + s.readReg rB) (s.pc + 4))

/-- `or rA, rS, rB`: the destination is the middle field (R126). -/
def execPpcOr (rS rA rB : BitVec 5) (s : State) : Result :=
  s.reading [rS, rB] (s.setRegister rA (s.readReg rS ||| s.readReg rB) (s.pc + 4))

end Sys2Proof.Machine
end

