-- ==== Sys2Proof/Machine/X86.lean ====
section
/-! DEFINITION. The meanings of the x86 instructions (46_x86): `rm` is the destination, `reg` the source, and
the instruction is two bytes long. -/

namespace Sys2Proof.Machine

/-- `ADD rm32, r32` (R130). -/
def execX86Add (reg rm : BitVec 3) (s : State) : Result :=
  let a := s.readReg (x86Reg rm)
  let b := s.readReg (x86Reg reg)
  s.reading [x86Reg rm, x86Reg reg]
    ((s.setX86Flags (x86AddFlags a b (a + b))).setRegister (x86Reg rm) (a + b) (s.pc + 2))

/-- `SUB rm32, r32` (R131). -/
def execX86Sub (reg rm : BitVec 3) (s : State) : Result :=
  let a := s.readReg (x86Reg rm)
  let b := s.readReg (x86Reg reg)
  s.reading [x86Reg rm, x86Reg reg]
    ((s.setX86Flags (x86SubFlags a b (a - b))).setRegister (x86Reg rm) (a - b) (s.pc + 2))

/-- `MOV rm32, r32` (R132): no flag is written. -/
def execX86Mov (reg rm : BitVec 3) (s : State) : Result :=
  s.reading [x86Reg reg] (s.setRegister (x86Reg rm) (s.readReg (x86Reg reg)) (s.pc + 2))

end Sys2Proof.Machine
end

