-- ==== Sys2Proof/Machine/Dispatch.lean ====
section
/-! DEFINITION. The one match over the instructions: each arm calls the instruction's meaning. -/

namespace Sys2Proof.Machine

def exec (i : Instr) (s : State) : Host.Outcome State Fault Refusal :=
  match i with
  | .mipsSll rt rd sa => Sys2Proof.Machine.execMipsSll rt rd sa s
  | .mipsSrl rt rd sa => Sys2Proof.Machine.execMipsSrl rt rd sa s
  | .mipsJr rs => Sys2Proof.Machine.execMipsJr rs s
  | .mipsSyscall code => Sys2Proof.Machine.execMipsSyscall code s
  | .mipsAdd rs rt rd => Sys2Proof.Machine.execMipsAdd rs rt rd s
  | .mipsSub rs rt rd => Sys2Proof.Machine.execMipsSub rs rt rd s
  | .mipsAnd rs rt rd => Sys2Proof.Machine.execMipsAnd rs rt rd s
  | .mipsOr rs rt rd => Sys2Proof.Machine.execMipsOr rs rt rd s
  | .mipsNor rs rt rd => Sys2Proof.Machine.execMipsNor rs rt rd s
  | .mipsBeq rs rt imm => Sys2Proof.Machine.execMipsBeq rs rt imm s
  | .mipsBne rs rt imm => Sys2Proof.Machine.execMipsBne rs rt imm s
  | .mipsAddi rs rt imm => Sys2Proof.Machine.execMipsAddi rs rt imm s
  | .mipsAndi rs rt imm => Sys2Proof.Machine.execMipsAndi rs rt imm s
  | .mipsOri rs rt imm => Sys2Proof.Machine.execMipsOri rs rt imm s
  | .mipsXori rs rt imm => Sys2Proof.Machine.execMipsXori rs rt imm s
  | .mipsLw rs rt imm => Sys2Proof.Machine.execMipsLw rs rt imm s
  | .mipsSw rs rt imm => Sys2Proof.Machine.execMipsSw rs rt imm s
  | .armAddImm rn rd rot imm8 => Sys2Proof.Machine.execArmAddImm rn rd rot imm8 s
  | .armAddReg rn rd rm => Sys2Proof.Machine.execArmAddReg rn rd rm s
  | .armSubImm rn rd rot imm8 => Sys2Proof.Machine.execArmSubImm rn rd rot imm8 s
  | .armSubReg rn rd rm => Sys2Proof.Machine.execArmSubReg rn rd rm s
  | .armMovImm rd rot imm8 => Sys2Proof.Machine.execArmMovImm rd rot imm8 s
  | .armMovReg rd rm => Sys2Proof.Machine.execArmMovReg rd rm s
  | .armB imm24 => Sys2Proof.Machine.execArmB imm24 s
  | .armBl imm24 => Sys2Proof.Machine.execArmBl imm24 s
  | .ppcAddi rD rA simm => Sys2Proof.Machine.execPpcAddi rD rA simm s
  | .ppcSubf rD rA rB => Sys2Proof.Machine.execPpcSubf rD rA rB s
  | .ppcAdd rD rA rB => Sys2Proof.Machine.execPpcAdd rD rA rB s
  | .ppcOr rS rA rB => Sys2Proof.Machine.execPpcOr rS rA rB s
  | .x86Add reg rm => Sys2Proof.Machine.execX86Add reg rm s
  | .x86Sub reg rm => Sys2Proof.Machine.execX86Sub reg rm s
  | .x86Mov reg rm => Sys2Proof.Machine.execX86Mov reg rm s

end Sys2Proof.Machine
end

