-- ==== Sys2Proof/Machine/Cycle.lean ====
section
/-! DEFINITION. The parts of one cycle (40_cycle R74): the checks at its start, the fetch, and the execution
of a fetched or supplied word. -/

namespace Sys2Proof.Machine

/-- Whether the stop flag is set and its check is due (40_cycle R78). -/
def State.stopDue (s : State) : Bool :=
  s.stopRequested && s.instructionCount % s.cfg.stopCheckInterval == 0

/-- Whether the cycle budget is used up (40_cycle R77). -/
def State.budgetSpent (s : State) : Bool :=
  match s.cfg.cycleBudget with
  | none => false
  | some n => decide (n ≤ s.instructionCount)

/-- Whether the alignment check stops the fetch; x86 fetch is never checked (20_memory R39,
40_cycle R73). -/
def State.fetchMisaligned (s : State) : Bool :=
  s.cfg.alignCheck && s.cfg.isa != .x86 && misaligned s.pc

/-- Why a cycle halts before it fetches, in the order of 60_exceptions R138. -/
def State.startCause (s : State) : Option HaltCause :=
  if s.stopDue then some .stopped
  else if s.budgetSpent then some .budgetExhausted
  else if s.fetchMisaligned then some (.misaligned s.pc s.pc)
  else none

/-- The guard of `Step` and `ExecWord`: refused in `Idle`, no step in `Halted` (40_cycle R82), else the
start-of-cycle checks and then `k` (40_cycle R74). -/
def State.attempt (s : State) (k : Result) : Result :=
  match s.status with
  | .idle => .refused .notLoaded
  | .halted => .fault (.halted s.haltCause)
  | .loaded | .running =>
    match s.startCause with
    | some c => .next (s.halt c)
    | none => k

/-- `readWord(pc)`, on every instruction set (40_cycle R73). -/
def State.fetch (s : State) : Word × State := s.readWord s.pc

/-- `ir <- w`. -/
def State.setIr (s : State) (w : Word) : State := { s with ir := w }

/-- Decode and execute a word: one that is no instruction halts with `UnsupportedOpcode(pc, w)`
(40_cycle R74, 60_exceptions R134). -/
def State.issue (s : State) (w : Word) : Result :=
  match decode s.cfg.isa w with
  | .ok i => exec i (s.setIr w)
  | .error _ => .next ((s.setIr w).halt (.unsupportedOpcode s.pc w))

/-- One cycle on a fetched word. -/
def State.fetchAndIssue (s : State) : Result := s.fetch.2.issue s.fetch.1

/-! ### Placing an instruction where the next fetch reads it -/

/-- The bytes `bs` stored from address `a` on. -/
def Memory.writeBytes (m : Memory) : Nat → List Byte → Memory
  | _, [] => m
  | a, b :: bs => Memory.writeBytes (m.write a b) (a + 1) bs

/-- Where `placeWord` puts its word: at `pc`, if a word there lies below `RAM_BASE` and is aligned, else
at the default load address 0. -/
def State.placeAddress (s : State) : Nat :=
  if s.pc.toNat + 4 ≤ ramBase ∧ misaligned s.pc = false then s.pc.toNat else 0

/-- The core with a program word in its ROM at the next fetch, as a load from outside would leave it
(assumption 3): the core of that instruction set, `Loaded`, with nothing that stops the next step. -/
def State.placeWord (s : State) (isa : Isa) (bytes : List Byte) : State :=
  { s with
    cfg := { s.cfg with isa := isa, cycleBudget := none }
    status := .loaded
    haltCause := none
    stopRequested := false
    pc := BitVec.ofNat 32 s.placeAddress
    romLen := max s.romLen (s.placeAddress + 4)
    ramLen := if s.status = .idle then s.cfg.ramSize else s.ramLen
    mem := s.mem.writeBytes s.placeAddress bytes }

end Sys2Proof.Machine
end

