-- ==== Sys2Proof/Machine/Step.lean ====
section
/-! DEFINITION. One step of the core (40_cycle R74). -/

namespace Sys2Proof.Machine

/-- `Step()` (40_cycle R74, R82). -/
def step (s : State) : Host.Outcome State Fault Refusal :=
  s.attempt s.fetchAndIssue

/-- `s` with the opcode-table word `w` stored where the next step fetches, for the instruction set whose
map holds it (assumptions 3 and 11). -/
def State.withFetchWord (s : State) (nbits w : Nat) : State :=
  match tableDecode nbits w with
  | some r => s.placeWord r.1 (tableBytes nbits w)
  | none => s.placeWord s.cfg.isa (tableBytes nbits w)

end Sys2Proof.Machine
end

