-- ==== Sys2Proof/Machine/HostOps.lean ====
section
/-! DEFINITION. The operations a host applies to a core besides `Step` (40_cycle R80): load, stop, run,
execute a supplied word, and inspection. -/

namespace Sys2Proof.Machine

/-- The host's architecture tag: one of the four, or any other (assumption 15). -/
inductive ArchTag where
  | known (isa : Isa)
  | other (name : String)
  deriving DecidableEq, Repr

/-- How a load fails; the core's state is then unchanged (60_exceptions R136). -/
inductive LoadError where
  | unknownArchitecture
  | invalidImage
  deriving DecidableEq, Repr

/-- Whether an image may be loaded at `loadAddr`: valid, neither empty nor longer than `IMAGE_MAX`, and
fitting below `RAM_BASE` by the exact sum (70_reset R150). -/
def imageFits (image : List Byte) (loadAddr : Word) (valid : Bool) : Bool :=
  valid && image.length != 0 && decide (image.length ≤ imageMax)
    && decide (loadAddr.toNat + image.length ≤ ramBase)

/-- The fresh core a successful load builds: ROM is `loadAddr` zero bytes and the image, RAM is all zero,
every other field has its value of 10_state R27 (70_reset R150). The parameters stay, and the model's
own draw counter goes on. -/
def State.freshCore (s : State) (image : List Byte) (isa : Isa) (loadAddr : Word) : State :=
  { State.reset with
    cfg := { s.cfg with isa := isa }
    status := .loaded
    pc := loadAddr
    romLen := loadAddr.toNat + image.length
    ramLen := s.cfg.ramSize
    mem := Memory.ofImage loadAddr.toNat image
    draws := s.draws }

/-- `Load(image, ISA, LOAD_ADDR, valid)`, allowed in every state (70_reset R150). -/
def State.load (s : State) (image : List Byte) (tag : ArchTag) (loadAddr : Word := 0)
    (valid : Bool := true) : Except LoadError State :=
  match tag with
  | .other _ => .error .unknownArchitecture
  | .known isa =>
    if imageFits image loadAddr valid then .ok (s.freshCore image isa loadAddr)
    else .error .invalidImage

/-- `Stop()`: sets the stop flag in `Loaded` or `Running`, does nothing in `Idle` or `Halted`
(40_cycle R78). -/
def State.stop (s : State) : State :=
  match s.status with
  | .loaded | .running => { s with stopRequested := true }
  | .idle | .halted => s

/-- `ExecWord(w)`: a step whose fetch is replaced by the supplied word (40_cycle R83). -/
def State.execWord (s : State) (w : Word) : Result := s.attempt (s.issue w)

/-- The first `n` steps of `Run()` (40_cycle R81): refused in `Idle`, at once finished in `Halted`. A run
that never halts is known by its finite prefixes (R86; assumption 14). -/
def runFor : Nat → State → Result
  | 0, s => match s.status with
    | .idle => .refused .notLoaded
    | .loaded | .running | .halted => .next s
  | n + 1, s => match s.status with
    | .idle => .refused .notLoaded
    | .halted => .next s
    | .loaded | .running => match step s with
      | .next t => runFor n t
      | .fault f => .fault f
      | .refused r => .refused r

/-- What inspection shows (40_cycle R84). -/
structure View where
  pc               : Word
  instructionCount : Nat
  ir               : Word
  regs             : List (Option Word)
  flags            : Option Word
  romLen           : Nat
  rom              : Memory
  ramLen           : Nat
  ram              : Memory
  status           : Status
  haltCause        : Option HaltCause
  trace            : List Event
  deriving DecidableEq, Repr

/-- A general register as inspection shows it: `r15` of ARM is `pc` (10_state R13, R16), and a register
that has no value shows none (10_state R27). -/
def State.inspectReg (s : State) (r : Nat) : Option Word :=
  if s.cfg.isa = .arm ∧ r = 15 then some s.pc
  else if s.known (BitVec.ofNat 5 r) then some (s.readReg (BitVec.ofNat 5 r))
  else none

/-- `cpsr` on ARM, `eflags` on x86, nothing elsewhere (10_state R19 to R22). -/
def State.inspectFlags (s : State) : Option Word :=
  match s.cfg.isa with
  | .arm => some s.cpsr
  | .x86 => some s.eflags
  | .mips | .powerPc => none

/-- Inspection, in every state, reading nothing over the bus (40_cycle R84): `rom` and `ram` are the
listed bytes of each, MMIO is not part of the snapshot. -/
def State.inspect (s : State) : View where
  pc := s.pc
  instructionCount := s.instructionCount
  ir := s.ir
  regs := (List.range (nreg s.cfg.isa)).map s.inspectReg
  flags := s.inspectFlags
  romLen := s.romLen
  rom := s.mem.filter (fun c => c.1 < ramBase)
  ramLen := s.ramLen
  ram := s.mem.filter (fun c => ramBase ≤ c.1)
  status := s.status
  haltCause := s.haltCause
  trace := s.trace

end Sys2Proof.Machine
end

