-- ==== Sys2Proof/Safety.lean ====
section
/-! DEFINITION. What holds of every core that a host can bring about, and the words in which claims say
what a step leaves as it was. -/

namespace Sys2Proof.Machine

/-- How many cells of the register file an instruction set uses: `r15` of ARM is `pc`, not a cell
(10_state R15 to R18). -/
def storedRegs : Isa → Nat
  | .mips | .powerPc => 32
  | .arm => 15
  | .x86 => 8

/-- The invariant of a core: what the spec says of its state in every status. -/
structure State.Inv (s : State) : Prop where
  /-- the parameters keep the limits of 00_scope R7 -/
  cfgWf : s.cfg.wf = true
  /-- memory keeps its canonical form -/
  memWf : s.mem.wf = true
  /-- every listed byte lies in ROM or in RAM (10_state R23, R24) -/
  memInside : ∀ c ∈ s.mem, c.1 < s.romLen ∨ (ramBase ≤ c.1 ∧ c.1 < ramBase + s.ramLen)
  /-- ROM ends at or below `RAM_BASE` (10_state R23) -/
  romFits : s.romLen ≤ ramBase
  /-- RAM has `RAM_SIZE` bytes once an image is loaded, none before (10_state R24, R27) -/
  ramFits : s.ramLen = if s.status = .idle then 0 else s.cfg.ramSize
  /-- a hardwired register holds 0 (10_state R15) -/
  hardwiredZero : ∀ r, s.hardwired r = true → s.x.get r.toFin = 0
  /-- the cells the instruction set does not use hold 0 -/
  unusedZero : ∀ r : RegIx, storedRegs s.cfg.isa ≤ r.toNat → s.x.get r.toFin = 0
  /-- `cpsr` keeps its value after load (10_state R20) -/
  cpsrZero : s.cpsr = 0
  /-- bit 1 of `eflags` is 1, the other reserved bits are 0 (10_state R21) -/
  eflagsReserved : s.eflags &&& ~~~x86FlagMask = 0x00000002
  /-- only x86 instructions write `eflags` (10_state R21) -/
  eflagsX86 : s.cfg.isa ≠ .x86 → s.eflags = 0x00000002
  /-- a cause is recorded in status `Halted` and in no other (40_cycle R70, R71) -/
  haltRecorded : s.status = .halted ↔ s.haltCause ≠ none
  /-- registers are recorded as written only under `REG_RESET = unknown` (10_state R12) -/
  writtenOnlyUnknown : s.cfg.regReset = .zero → s.written = Vector.replicate 32 false

/-- A core that can step: an image is loaded and it has not halted (40_cycle R70). -/
def State.active (s : State) : Prop := s.status = .loaded ∨ s.status = .running

/-- `t` is `s` halted with cause `c`: status, cause and trace change, nothing else (40_cycle R71). -/
def HaltedWith (s t : State) (c : HaltCause) : Prop :=
  t = { s with status := .halted, haltCause := some c, trace := s.trace ++ [.halted c] }

/-- Every byte of ROM and RAM, and where they lie, is as it was. -/
def SameMemory (s t : State) : Prop :=
  t.romLen = s.romLen ∧ t.ramLen = s.ramLen ∧ ∀ a, t.peek a = s.peek a

/-- What no instruction writes, and `ir`, which only a fetch writes. -/
def SameFixed (s t : State) : Prop :=
  t.cfg = s.cfg ∧ t.ir = s.ir ∧ t.haltCause = s.haltCause ∧ t.stopRequested = s.stopRequested
    ∧ t.cpsr = s.cpsr

/-- No MMIO register, no event and no draw. -/
def SameIo (s t : State) : Prop := t.io = s.io ∧ t.trace = s.trace ∧ t.draws = s.draws

/-- Every general register, and which of them have a value, is as it was. -/
def SameRegs (s t : State) : Prop :=
  (∀ r, t.readReg r = s.readReg r) ∧ ∀ r, t.known r = s.known r

/-- The instruction completed and the next one is at `target` (40_cycle R74). -/
def CompletedAt (s t : State) (target : Word) : Prop :=
  t.pc = target ∧ t.instructionCount = s.instructionCount + 1 ∧ t.status = .running

/-- Register `d` now holds `v`, unless it is hardwired, and every other register is as it was; `d` has a
value, and the others have one if they had one (10_state R15, R28). -/
def OnlyRegWritten (s t : State) (d : RegIx) (v : Word) : Prop :=
  (∀ r, t.readReg r = if r = d ∧ s.hardwired d = false then v else s.readReg r)
    ∧ ∀ r, t.known r = (s.known r || r == d)

/-- `t` is `s` after bus reads and nothing else: unmapped bytes were logged and `TIMER_VALUE` bytes drawn
(20_memory R34, R42). -/
def OnlyReads (s t : State) : Prop :=
  ∃ (unmapped : List Word) (n : Nat),
    t = { s with trace := s.trace ++ unmapped.map (.busFault .read), draws := s.draws + n }

/-- `t` is `s` after bus writes and nothing else: memory, the MMIO registers and the trace may have changed
(20_memory R35, R43). -/
def OnlyWrites (s t : State) : Prop :=
  ∃ (m : Memory) (io : IoRegs) (evs : List Event),
    t = { s with mem := m, io := io, trace := s.trace ++ evs }

/-- Whether a byte write at `a` is stored in memory: `a` lies in RAM (20_memory R30, R35). -/
def State.isRam (s : State) (a : Word) : Bool :=
  match s.region a with
  | .ram _ => true
  | .rom _ | .io _ | .unmapped => false

/-- The byte that a word store of `v` at `ea` puts at address `a`, if `a` is one of its four addresses
(20_memory R33, R37). -/
def storedByte (ea v a : Word) : Option Byte :=
  if a = ea then some (byteOfWord v 0)
  else if a = ea + 1 then some (byteOfWord v 1)
  else if a = ea + 2 then some (byteOfWord v 2)
  else if a = ea + 3 then some (byteOfWord v 3)
  else none

/-- An instruction that writes register `d` and does nothing else but go on at `target`. -/
def WritesReg (s t : State) (d : RegIx) (v target : Word) : Prop :=
  OnlyRegWritten s t d v ∧ CompletedAt s t target ∧ t.eflags = s.eflags
    ∧ SameMemory s t ∧ SameFixed s t ∧ SameIo s t

/-- The checks at the start of a cycle let it go on: no stop is due, the budget is not used up, and the fetch
is not refused for its alignment (40_cycle R73, R74, R77, R78). -/
def State.MayFetch (s : State) : Prop :=
  (s.stopRequested = true → s.instructionCount % s.cfg.stopCheckInterval ≠ 0)
    ∧ (∀ n, s.cfg.cycleBudget = some n → s.instructionCount < n)
    ∧ (s.cfg.alignCheck = true → s.cfg.isa ≠ .x86 → s.pc.extractLsb' 0 2 = 0#2)

/-- Every word with these fixed fields is the instruction `build` makes of it, if that is well-formed
(30_encoding R56, R59). -/
def DecodesAs (isa : Isa) (mask pat : Word) (build : Word → Instr) : Prop :=
  ∀ w, w &&& mask = pat → (build w).wf = true → decode isa w = .ok (build w)

/-- The rule of an instruction that reads the registers `reads` and writes `v` to register `d`: it completes
when they have values, and halts `Unmodelled` otherwise (10_state R28). -/
def RegisterRule (i : Instr) (reads : List RegIx) (d : RegIx) (v : State → Word) (len : Word) : Prop :=
  ∀ s : State,
    (s.allKnown reads = true → ∃ t, exec i s = .next t ∧ WritesReg s t d (v s) (s.pc + len))
    ∧ (s.allKnown reads = false → ∃ t, exec i s = .next t ∧ HaltedWith s t (.unmodelled s.pc s.ir))

/-- The rule of a MIPS add or subtract with exact result `exact` and result modulo `2^32` `v`
(41_mips_alu R88). -/
def CheckedRule (i : Instr) (reads : List RegIx) (d : RegIx) (exact : State → Int)
    (v : State → Word) : Prop :=
  ∀ s : State,
    (s.allKnown reads = true → s.cfg.overflow = .wrap ∨ (-2 ^ 31 ≤ exact s ∧ exact s ≤ 2 ^ 31 - 1) →
      ∃ t, exec i s = .next t ∧ WritesReg s t d (v s) (s.pc + 4))
    ∧ (s.allKnown reads = true → s.cfg.overflow = .fault →
      ¬(-2 ^ 31 ≤ exact s ∧ exact s ≤ 2 ^ 31 - 1) →
      ∃ t, exec i s = .next t ∧ HaltedWith s t (.arithmeticOverflow s.pc s.ir))
    ∧ (s.allKnown reads = false → ∃ t, exec i s = .next t ∧ HaltedWith s t (.unmodelled s.pc s.ir))

/-- The string at `a` as bytes read one at a time up to the first `0x00`, and the state after its last read
(43_mips_control R108). -/
inductive StringAt : State → Word → List Byte → State → Prop where
  | stop (s : State) (a : Word) (h : (s.readByte a).1 = 0x00) : StringAt s a [] (s.readByte a).2
  | more (s t : State) (a : Word) (bs : List Byte) (h : (s.readByte a).1 ≠ 0x00)
      (rest : StringAt (s.readByte a).2 (a + 1) bs t) : StringAt s a ((s.readByte a).1 :: bs) t

/-- The six flags of an x86 ADD or SUB at their places in `eflags`, every other bit as it was
(10_state R21, 46_x86 R129): `cf` and `of` are given, the others follow from the operands and the result. -/
def X86FlagsAre (before after a b r : Word) (cf of : Bool) : Prop :=
  after.getLsbD 0 = cf
    ∧ (after.getLsbD 2 = true ↔ ((List.range 8).filter (fun k => r.getLsbD k)).length % 2 = 0)
    ∧ after.getLsbD 4 = (a ^^^ b ^^^ r).getLsbD 4
    ∧ (after.getLsbD 6 = true ↔ r = 0)
    ∧ after.getLsbD 7 = r.getLsbD 31
    ∧ after.getLsbD 11 = of
    ∧ ∀ k, k ∉ [0, 2, 4, 6, 7, 11] → after.getLsbD k = before.getLsbD k

/-- An instruction that does nothing but go on at `target`. -/
def OnlyJumps (s t : State) (target : Word) : Prop :=
  SameRegs s t ∧ CompletedAt s t target ∧ t.eflags = s.eflags
    ∧ SameMemory s t ∧ SameFixed s t ∧ SameIo s t

/-- The rows of the opcode maps as pairs of match and mask, transcribed a second time for claims
(30_encoding R56, R60, R62, R64). -/
def opcodeMap : Isa → List (Word × Word)
  | .mips =>
    [ (0x00000000, 0xFFE0003F), (0x00000002, 0xFFE0003F), (0x00000008, 0xFC1FFFFF),
      (0x0000000C, 0xFC00003F), (0x00000020, 0xFC0007FF), (0x00000022, 0xFC0007FF),
      (0x00000024, 0xFC0007FF), (0x00000025, 0xFC0007FF), (0x00000027, 0xFC0007FF),
      (0x10000000, 0xFC000000), (0x14000000, 0xFC000000), (0x20000000, 0xFC000000),
      (0x30000000, 0xFC000000), (0x34000000, 0xFC000000), (0x38000000, 0xFC000000),
      (0x8C000000, 0xFC000000), (0xAC000000, 0xFC000000) ]
  | .arm =>
    [ (0xE2800000, 0xFFF00000), (0xE0800000, 0xFFF00FF0), (0xE2400000, 0xFFF00000),
      (0xE0400000, 0xFFF00FF0), (0xE3A00000, 0xFFFF0000), (0xE1A00000, 0xFFFF0FF0),
      (0xEA000000, 0xFF000000), (0xEB000000, 0xFF000000) ]
  | .powerPc =>
    [ (0x38000000, 0xFC000000), (0x7C000050, 0xFC0007FF), (0x7C000214, 0xFC0007FF),
      (0x7C000378, 0xFC0007FF) ]
  | .x86 =>
    [ (0x0000C001, 0x0000C0FF), (0x0000C029, 0x0000C0FF), (0x0000C089, 0x0000C0FF) ]

/-- Whether an ARM data-processing word names `r15` as `Rd`, as `Rn` or, in a register form, as `Rm`
(30_encoding R59 step 3). -/
def namesR15 (w : Word) : Prop :=
  field w 26 2 = 0b00#2 ∧
    (field w 12 4 = 15#4 ∨ field w 16 4 = 15#4 ∨ (field w 25 1 = 0#1 ∧ field w 0 4 = 15#4))

/-- Whether a word is an instruction of a core: it matches a row of the core's map and, on ARM, does not
name `r15` (30_encoding R60, R65). -/
def InMap (isa : Isa) (w : Word) : Prop :=
  (∃ r ∈ opcodeMap isa, w &&& r.2 = r.1) ∧ (isa = .arm → ¬ namesR15 w)

end Sys2Proof.Machine
end

