-- ==== Sys2Proof/Certificates/Slice0/Obligations.lean ====
section
/-! DEFINITION. The statements for the provers. Each docstring names the rules of spec/ it formalises, or, for
a statement that is derived or rests on a choice of the model, says so. -/

open Sys2Proof Sys2Proof.Machine

/-! ### Encoding -/

/-- O1. Encoding loses nothing: the decoder reads every well-formed instruction back from its bytes, and
leaves the bytes after it (30_encoding R54 to R64; 20_memory R38). -/
def Obligations.DecodeEncodeAgree : Prop :=
  ∀ (i : Instr) (rest : List Byte), i.wf = true →
    decodeBytes i.isa (encode i ++ rest) = .ok (i, rest)

/-- O2. Decoding loses nothing: a decoded word is a well-formed instruction of its instruction set, and its
encoding is the word, or on x86 its low 16 bits (30_encoding R56, R60, R62, R63, R64). -/
def Obligations.DecodedWordsEncodeBack : Prop :=
  ∀ (isa : Isa) (w : Word) (i : Instr), decode isa w = .ok i →
    i.isa = isa ∧ i.wf = true ∧ encodeWord i = if isa = .x86 then w &&& 0x0000FFFF else w

/-- O3. 30_encoding R65, with the halt of 60_exceptions R134: the decoder is total; a word matches at most
one row of a map; it is an instruction just when it matches one (and names no ARM `r15`), and a core that
fetches any other word halts with `UnsupportedOpcode(pc, w)`. -/
def Obligations.UnmatchedWordsHalt : Prop :=
  (∀ isa : Isa, (opcodeMap isa).Pairwise (fun r q => ∀ w : Word, ¬(w &&& r.2 = r.1 ∧ w &&& q.2 = q.1)))
    ∧ (∀ (isa : Isa) (w : Word), (∃ i, decode isa w = .ok i) ↔ InMap isa w)
    ∧ (∀ s : State, s.active → s.MayFetch → ¬ InMap s.cfg.isa (s.readWord s.pc).1 →
        ∃ t, step s = .next t
          ∧ HaltedWith { (s.readWord s.pc).2 with ir := (s.readWord s.pc).1 } t
              (.unsupportedOpcode s.pc (s.readWord s.pc).1))

/-- O4. 30_encoding R59, its five steps. -/
def Obligations.ArmClassDecode : Prop :=
  ∀ w : Word,
    (field w 28 4 ≠ 0b1110#4 → ∃ r, decode .arm w = .error r)
      ∧ (field w 28 4 = 0b1110#4 → field w 25 3 = 0b101#3 →
          decode .arm w = .ok (if field w 24 1 = 1#1 then .armBl (field w 0 24) else .armB (field w 0 24)))
      ∧ (field w 28 4 = 0b1110#4 → field w 26 2 = 0b00#2 →
          ((∃ i, decode .arm w = .ok i) ↔
            field w 21 11 ∈ [0x714#11, 0x704#11, 0x712#11, 0x702#11, 0x71D#11, 0x70D#11]
              ∧ field w 20 1 = 0#1
              ∧ (field w 25 1 = 0#1 → field w 4 8 = 0#8 ∧ field w 0 4 ≠ 15#4)
              ∧ field w 12 4 ≠ 15#4
              ∧ (if field w 21 11 ∈ [0x71D#11, 0x70D#11] then field w 16 4 = 0#4
                 else field w 16 4 ≠ 15#4)))
      ∧ (field w 28 4 = 0b1110#4 → field w 26 2 = 0b01#2 → ∃ r, decode .arm w = .error r)
      ∧ (field w 28 4 = 0b1110#4 → field w 26 2 ≠ 0b00#2 → field w 26 2 ≠ 0b01#2 →
          field w 25 3 ≠ 0b101#3 → ∃ r, decode .arm w = .error r)

/-- O5. A sanity check: words that the spec writes out, one or two of each family, decode to the
instructions the spec says they are (41_mips_alu to 46_x86, examples). -/
def Obligations.WordsOfTheSpecDecode : Prop :=
  decode .mips 0x01095020 = .ok (.mipsAdd 8 9 10)
    ∧ decode .mips 0x20080005 = .ok (.mipsAddi 0 8 5)
    ∧ decode .mips 0x8D090004 = .ok (.mipsLw 8 9 4)
    ∧ decode .mips 0x1500FFFD = .ok (.mipsBne 8 0 0xFFFD)
    ∧ decode .arm 0xE3A014FF = .ok (.armMovImm 1 4 0xFF)
    ∧ decode .arm 0xEB000002 = .ok (.armBl 2)
    ∧ decode .powerPc 0x7CC41850 = .ok (.ppcSubf 6 4 3)
    ∧ decode .powerPc 0x7C671B78 = .ok (.ppcOr 3 7 3)
    ∧ decode .x86 0x0000C829 = .ok (.x86Sub 1 0)

/-- O6. 30_encoding R66: the conventional no-operation words are ordinary instructions that only advance
`pc` and `instructionCount`; two other conventional spellings are in no map and halt. -/
def Obligations.NoOperationWords : Prop :=
  (∀ s : State, s.cfg.isa = .mips → s.cfg.r0Hardwired = true →
      decode .mips 0x00000000 = .ok (.mipsSll 0 0 0)
        ∧ ∃ t, exec (.mipsSll 0 0 0) s = .next t ∧ OnlyJumps s t (s.pc + 4))
    ∧ (∀ s : State, s.known 0 = true →
        (decode .arm 0xE1A00000 = .ok (.armMovReg 0 0)
          ∧ ∃ t, exec (.armMovReg 0 0) s = .next t ∧ OnlyJumps s t (s.pc + 4))
        ∧ (decode .powerPc 0x7C000378 = .ok (.ppcOr 0 0 0)
          ∧ ∃ t, exec (.ppcOr 0 0 0) s = .next t ∧ OnlyJumps s t (s.pc + 4))
        ∧ ((∀ w : Word, field w 0 16 = 0xC089#16 → decode .x86 w = .ok (.x86Mov 0 0))
          ∧ ∃ t, exec (.x86Mov 0 0) s = .next t ∧ OnlyJumps s t (s.pc + 2)))
    ∧ (∀ (s : State) (w : Word), s.active → s.MayFetch →
        (s.cfg.isa = .powerPc ∧ w = 0x60000000) ∨ (s.cfg.isa = .x86 ∧ field w 0 8 = 0x90#8) →
        ∃ t, s.execWord w = .next t
          ∧ HaltedWith { s with ir := w } t (.unsupportedOpcode s.pc w))

/-! ### The cycle -/

/-- O7. A step runs the decoded instruction, on the state after the fetch: only the fetch's events have been
added and `ir` holds the word (40_cycle R73, R74). -/
def Obligations.StepRunsDecodedInstruction : Prop :=
  ∀ (s : State) (i : Instr), s.active → s.MayFetch → decode s.cfg.isa (s.readWord s.pc).1 = .ok i →
    step s = exec i { (s.readWord s.pc).2 with ir := (s.readWord s.pc).1 }
      ∧ OnlyReads s (s.readWord s.pc).2

/-- O8. A step runs the instruction whose bytes lie at `pc` in ROM or RAM, with nothing else changed but
`ir` (40_cycle R73, R74; 20_memory R38). -/
def Obligations.StepRunsStoredInstruction : Prop :=
  ∀ (s : State) (i : Instr), s.active → s.MayFetch → i.isa = s.cfg.isa → i.wf = true →
    (∀ k : Fin 4, (∃ o, s.region (s.pc + BitVec.ofNat 32 k) = .rom o)
      ∨ ∃ o, s.region (s.pc + BitVec.ofNat 32 k) = .ram o) →
    (∀ k, k < (encode i).length → (encode i)[k]? = some (s.peek (s.pc + BitVec.ofNat 32 k))) →
    step s = exec i { s with
      ir := s.peek (s.pc + 3) ++ s.peek (s.pc + 2) ++ s.peek (s.pc + 1) ++ s.peek s.pc }

/-- O9. 40_cycle R82. That "no step" is a fault that carries the recorded cause is the model's form
(log entry 8). -/
def Obligations.IdleAndHaltedCoresDoNotStep : Prop :=
  (∀ s : State, s.status = .idle →
      step s = .refused .notLoaded ∧ (∀ w, s.execWord w = .refused .notLoaded)
        ∧ ∀ n, runFor n s = .refused .notLoaded)
    ∧ (∀ s : State, s.status = .halted →
        step s = .fault (.halted s.haltCause) ∧ ∀ w, s.execWord w = .fault (.halted s.haltCause))

/-- O10. In `Loaded` and `Running`, and only there, a step and a supplied word answer a next state: a halt is
one (40_cycle R70, R71, R82). -/
def Obligations.ActiveCoresStep : Prop :=
  ∀ s : State, ((∃ t, step s = .next t) ↔ s.active)
    ∧ ∀ w, (∃ t, s.execWord w = .next t) ↔ s.active

/-- O11. 40_cycle R70: a step or a supplied word leads from `Loaded` or `Running` to `Running` if it completes
an instruction and to `Halted` if it halts; only a load leaves `Halted`, to `Loaded`. -/
def Obligations.StatusTransitions : Prop :=
  State.reset.status = .idle
    ∧ (∀ (s t : State) (w : Word), step s = .next t ∨ s.execWord w = .next t →
        (s.status = .loaded ∨ s.status = .running)
          ∧ ((t.status = .running ∧ t.instructionCount = s.instructionCount + 1)
            ∨ (t.status = .halted ∧ t.instructionCount = s.instructionCount
              ∧ ∃ c, t.haltCause = some c ∧ t.trace.getLast? = some (.halted c))))
    ∧ (∀ (s t : State) (image : List Byte) (tag : ArchTag) (a : Word) (valid : Bool),
        s.load image tag a valid = .ok t → t.status = .loaded)
    ∧ (∀ s : State, s.stop.status = s.status)

/-- O12. The count goes up by one for a completed instruction and stays on a halting step
(40_cycle R76). -/
def Obligations.CompletedStepsAreCounted : Prop :=
  ∀ (s t : State) (w : Word), step s = .next t ∨ s.execWord w = .next t →
    t.instructionCount = if t.status = .halted then s.instructionCount else s.instructionCount + 1

/-- O13. 40_cycle R78: what `Stop` does; when the flag halts a core; and that it halts it within
`STOP_CHECK_INTERVAL` steps, before which no instruction is cut short. -/
def Obligations.StopHaltsTheCore : Prop :=
  (∀ s : State, s.stop = if s.status = .loaded ∨ s.status = .running
      then { s with stopRequested := true } else s)
    ∧ (∀ s : State, s.active → s.stopRequested = true →
        s.instructionCount % s.cfg.stopCheckInterval = 0 →
        ∃ t, step s = .next t ∧ HaltedWith s t .stopped)
    ∧ (∀ s t : State, step s = .next t → t.status = .halted → t.haltCause = some .stopped →
        s.stopRequested = true ∧ s.instructionCount % s.cfg.stopCheckInterval = 0)
    ∧ (∀ s : State, s.active → s.stopRequested = true → 1 ≤ s.cfg.stopCheckInterval →
        ∃ t, runFor s.cfg.stopCheckInterval s = .next t ∧ t.status = .halted
          ∧ s.instructionCount ≤ t.instructionCount
          ∧ t.instructionCount < s.instructionCount + s.cfg.stopCheckInterval)

/-- O14. 40_cycle R77: a step that starts with the budget used up halts before it fetches (the stop check
comes first: 60_exceptions R138), and no run goes past the budget. -/
def Obligations.BudgetHaltsTheCore : Prop :=
  (∀ (s : State) (n : Nat), s.active → s.cfg.cycleBudget = some n → n ≤ s.instructionCount →
      (s.stopRequested = true → s.instructionCount % s.cfg.stopCheckInterval ≠ 0) →
      ∃ t, step s = .next t ∧ HaltedWith s t .budgetExhausted)
    ∧ (∀ s t : State, step s = .next t → t.status = .halted → t.haltCause = some .budgetExhausted →
        ∃ n, s.cfg.cycleBudget = some n ∧ n ≤ s.instructionCount)
    ∧ (∀ (s t : State) (n k : Nat), s.cfg.cycleBudget = some n → s.instructionCount ≤ n →
        runFor k s = .next t → t.instructionCount ≤ n)

/-- O15. 20_memory R39: without `ALIGN_CHECK` (and always on x86) a fetch is made at any `pc`, and without it
`lw` and `sw` complete at any address; with it a misaligned fetch, load or store halts with
`Misaligned` before any byte is accessed. -/
def Obligations.AlignmentIsChecked : Prop :=
  (∀ s : State, s.active →
      (s.stopRequested = true → s.instructionCount % s.cfg.stopCheckInterval ≠ 0) →
      (∀ n, s.cfg.cycleBudget = some n → s.instructionCount < n) →
      if s.cfg.alignCheck = true ∧ s.cfg.isa ≠ .x86 ∧ s.pc.extractLsb' 0 2 ≠ 0#2 then
        ∃ t, step s = .next t ∧ HaltedWith s t (.misaligned s.pc s.pc)
      else ∃ t, step s = .next t ∧ t.ir = (s.readWord s.pc).1)
    ∧ (∀ (s : State) (rs rt : BitVec 5) (imm : BitVec 16),
        s.known rs = true → s.known rt = true →
        if s.cfg.alignCheck = true ∧ (s.readReg rs + imm.signExtend 32).extractLsb' 0 2 ≠ 0#2 then
          ∀ i ∈ [Instr.mipsLw rs rt imm, Instr.mipsSw rs rt imm], ∃ t, exec i s = .next t
            ∧ HaltedWith s t (.misaligned s.pc (s.readReg rs + imm.signExtend 32))
        else
          ∀ i ∈ [Instr.mipsLw rs rt imm, Instr.mipsSw rs rt imm], ∃ t, exec i s = .next t
            ∧ CompletedAt s t (s.pc + 4))

/-- O16. 60_exceptions R138: when several causes apply to one step, the first in its order is taken. Inside an
instruction a register without a value comes before a misaligned address, a signed overflow and a call number.
That this holds for the source of a misaligned `sw` too is the model's reading of R138 and D23 (log entry 9,
DEDUCED): the lines of 42_mips_memory R103 check the address first. -/
def Obligations.CausesAreTakenInOrder : Prop :=
  (∀ s : State, s.active →
      ((s.stopRequested = true ∧ s.instructionCount % s.cfg.stopCheckInterval = 0) →
          ∃ t, step s = .next t ∧ HaltedWith s t .stopped)
        ∧ ((s.stopRequested = true → s.instructionCount % s.cfg.stopCheckInterval ≠ 0) →
          (∀ n, s.cfg.cycleBudget = some n → n ≤ s.instructionCount →
              ∃ t, step s = .next t ∧ HaltedWith s t .budgetExhausted)
            ∧ ((∀ n, s.cfg.cycleBudget = some n → s.instructionCount < n) →
              s.cfg.alignCheck = true → s.cfg.isa ≠ .x86 → s.pc.extractLsb' 0 2 ≠ 0#2 →
              ∃ t, step s = .next t ∧ HaltedWith s t (.misaligned s.pc s.pc)))
        ∧ (s.MayFetch →
          (∀ r, decode s.cfg.isa (s.readWord s.pc).1 = .error r →
              ∃ t, step s = .next t
                ∧ HaltedWith { (s.readWord s.pc).2 with ir := (s.readWord s.pc).1 } t
                    (.unsupportedOpcode s.pc (s.readWord s.pc).1))
            ∧ ∀ i, decode s.cfg.isa (s.readWord s.pc).1 = .ok i →
              step s = exec i { (s.readWord s.pc).2 with ir := (s.readWord s.pc).1 }))
    ∧ ∀ (s : State) (rs rt rd : BitVec 5) (imm : BitVec 16) (code : BitVec 20),
      (s.known rs = false ∨ s.known rt = false →
        ∀ i ∈ [Instr.mipsSw rs rt imm, .mipsAdd rs rt rd, .mipsSub rs rt rd],
          ∃ t, exec i s = .next t ∧ HaltedWith s t (.unmodelled s.pc s.ir))
      ∧ (s.known rs = false → ∀ i ∈ [Instr.mipsLw rs rt imm, .mipsAddi rs rt imm],
          ∃ t, exec i s = .next t ∧ HaltedWith s t (.unmodelled s.pc s.ir))
      ∧ (s.known 2 = false →
          ∃ t, exec (.mipsSyscall code) s = .next t ∧ HaltedWith s t (.unmodelled s.pc s.ir))
      ∧ (s.known rs = true → s.known rt = true → s.cfg.alignCheck = true →
          (s.readReg rs + imm.signExtend 32).extractLsb' 0 2 ≠ 0#2 →
          ∀ i ∈ [Instr.mipsSw rs rt imm, .mipsLw rs rt imm], ∃ t, exec i s = .next t
            ∧ HaltedWith s t (.misaligned s.pc (s.readReg rs + imm.signExtend 32)))

/-- O17. 60_exceptions R137: a halting step changes the status, the cause, `ir` and the trace, and nothing
else of the spec's state; the trace gains the fetch's bus faults and then the halt. -/
def Obligations.HaltsArePrecise : Prop :=
  ∀ s t : State, step s = .next t → t.status = .halted →
    t.pc = s.pc ∧ t.x = s.x ∧ t.written = s.written ∧ t.cpsr = s.cpsr ∧ t.eflags = s.eflags
      ∧ t.mem = s.mem ∧ t.romLen = s.romLen ∧ t.ramLen = s.ramLen ∧ t.io = s.io
      ∧ t.instructionCount = s.instructionCount ∧ t.stopRequested = s.stopRequested ∧ t.cfg = s.cfg
      ∧ (t.ir = s.ir ∨ t.ir = (s.readWord s.pc).1)
      ∧ ∃ (c : HaltCause) (unmapped : List Word), t.haltCause = some c
        ∧ t.trace = s.trace ++ unmapped.map (.busFault .read) ++ [.halted c]
        ∧ (unmapped = [] ∨ (s.readWord s.pc).2.trace = s.trace ++ unmapped.map (.busFault .read))

/-- O18. The trace is append-only: what it held stays at its head (10_state R26). -/
def Obligations.TraceOnlyGrows : Prop :=
  (∀ (s t : State) (w : Word), step s = .next t ∨ s.execWord w = .next t → s.trace <+: t.trace)
    ∧ ∀ (s t : State) (n : Nat), runFor n s = .next t → s.trace <+: t.trace

/-- O19. Whatever the instruction, a step leaves the parameters, the lengths of ROM and RAM, every byte
outside RAM, the stop flag and `cpsr` as they were (10_state R12, R20, R23; 20_memory R32). -/
def Obligations.StepsKeepRomAndParameters : Prop :=
  ∀ (s t : State) (w : Word), s.mem.wf = true → step s = .next t ∨ s.execWord w = .next t →
    t.cfg = s.cfg ∧ t.romLen = s.romLen ∧ t.ramLen = s.ramLen ∧ t.stopRequested = s.stopRequested
      ∧ t.cpsr = s.cpsr
      ∧ (∀ a : Word, a.toNat < 0x80000000 ∨ 0x80000000 + s.ramLen ≤ a.toNat → t.peek a = s.peek a)

/-! ### The invariant -/

/-- O20. A newly constructed core meets the invariant (10_state R27, 70_reset R149). -/
def Obligations.ResetMeetsInvariant : Prop := State.reset.Inv

/-- O21. Every step keeps the invariant: memory stays canonical and inside ROM and RAM, the hardwired and the
absent registers read 0, the reserved `eflags` bits and `cpsr` stay, a cause is recorded just in `Halted`
(10_state R15, R20, R21, R23, R24; 40_cycle R71). -/
def Obligations.StepKeepsInvariant : Prop :=
  ∀ s t : State, s.Inv → step s = .next t → t.Inv

/-- O22. So do the other host operations (40_cycle R80). -/
def Obligations.HostOperationsKeepInvariant : Prop :=
  ∀ s : State, s.Inv →
    s.stop.Inv
      ∧ (∀ (w : Word) (t : State), s.execWord w = .next t → t.Inv)
      ∧ (∀ (n : Nat) (t : State), runFor n s = .next t → t.Inv)
      ∧ (∀ (image : List Byte) (tag : ArchTag) (a : Word) (valid : Bool) (t : State),
          s.load image tag a valid = .ok t → t.Inv)

/-! ### Reset and the host operations -/

/-- O23. 70_reset R149: a newly constructed core is idle, empty and cannot step. -/
def Obligations.ResetIsConstructedCore : Prop :=
  State.reset.status = .idle ∧ State.reset.romLen = 0 ∧ State.reset.ramLen = 0
    ∧ State.reset.mem = [] ∧ State.reset.pc = 0x00000000 ∧ State.reset.ir = 0x00000000
    ∧ State.reset.instructionCount = 0 ∧ State.reset.haltCause = none
    ∧ State.reset.stopRequested = false ∧ (∀ r, State.reset.readReg r = 0x00000000)
    ∧ State.reset.cpsr = 0x00000000 ∧ State.reset.eflags = 0x00000002
    ∧ State.reset.io = ⟨0x00000000, 0x00000000, 0x00000000⟩
    ∧ (∀ r : Nat, State.reset.written[r]? ≠ some true) ∧ State.reset.trace = []
    ∧ step State.reset = .refused .notLoaded

/-- O24. 70_reset R150: which images are refused, with no new state, and the fresh core a load builds, every
field as 10_state R27 says (a register's value where `REG_RESET` gives it one). -/
def Obligations.LoadBuildsFreshCore : Prop :=
  (∀ (s : State) (image : List Byte) (name : String) (a : Word) (valid : Bool),
      s.load image (.other name) a valid = .error .unknownArchitecture)
    ∧ (∀ (s : State) (image : List Byte) (isa : Isa) (a : Word) (valid : Bool),
        if valid = false ∨ image.length = 0 ∨ 2 ^ 30 < image.length
            ∨ 0x80000000 < a.toNat + image.length then
          s.load image (.known isa) a valid = .error .invalidImage
        else ∃ t, s.load image (.known isa) a valid = .ok t
          ∧ t.status = .loaded ∧ t.pc = a ∧ t.ir = 0 ∧ t.instructionCount = 0 ∧ t.haltCause = none
          ∧ t.stopRequested = false ∧ t.cfg = { s.cfg with isa := isa }
          ∧ (∀ r, t.known r = true ↔
              s.cfg.regReset = .zero ∨ (isa = .mips ∧ s.cfg.r0Hardwired = true ∧ r = 0))
          ∧ (∀ r, t.known r = true → t.readReg r = 0)
          ∧ t.cpsr = 0 ∧ t.eflags = 0x00000002
          ∧ t.romLen = a.toNat + image.length ∧ t.ramLen = s.cfg.ramSize
          ∧ (∀ b : Word, t.peek b
              = if a.toNat ≤ b.toNat then (image[b.toNat - a.toNat]?).getD 0x00 else 0x00)
          ∧ t.io = ⟨0, 0, 0⟩ ∧ (∀ r : Nat, t.written[r]? ≠ some true) ∧ t.trace = [])

/-- O25. `Run` on its finite prefixes: outside `Idle` it always answers, it may be cut anywhere, it ends at the
first halted state, a halted core's run is that core at once, and an active core's run of no step is that core
(40_cycle R81, R86; log entry 14). -/
def Obligations.RunRepeatsSteps : Prop :=
  (∀ (s : State) (n : Nat), s.status ≠ .idle → ∃ t, runFor n s = .next t)
    ∧ (∀ (s t : State) (n m : Nat), runFor n s = .next t → runFor (n + m) s = runFor m t)
    ∧ (∀ (s t : State) (n m : Nat), runFor n s = .next t → t.status = .halted →
        runFor (n + m) s = .next t)
    ∧ (∀ (s : State) (n : Nat), s.status = .halted → runFor n s = .next s)
    ∧ (∀ s : State, s.active → runFor 0 s = .next s ∧ runFor 1 s = step s)

/-- O26. 40_cycle R83: a supplied word is a step without the fetch. The checks at the start of the step are
the step's own; then `ir` is the word and it is executed at `pc`. -/
def Obligations.ExecWordIsStepWithoutFetch : Prop :=
  ∀ (s : State) (w : Word),
    (¬(s.active ∧ s.MayFetch) → s.execWord w = step s)
      ∧ (s.active → s.MayFetch → ∀ i, decode s.cfg.isa w = .ok i →
          s.execWord w = exec i { s with ir := w })
      ∧ (s.active → s.MayFetch → ∀ r, decode s.cfg.isa w = .error r →
          ∃ t, s.execWord w = .next t
            ∧ HaltedWith { s with ir := w } t (.unsupportedOpcode s.pc w))
      ∧ decode .x86 w = decode .x86 (w &&& 0x0000FFFF)

/-- O27. Inspection shows the whole core: registers by number with ARM `r15` as `pc`, the flags of the
instruction set, and snapshots that hold the bytes of ROM and RAM (40_cycle R84; 10_state R13, R16 to
R22). The snapshots list bytes as the model's memory does (log entry 4). -/
def Obligations.InspectionShowsTheCore : Prop :=
  ∀ s : State, s.Inv →
    s.inspect.pc = s.pc ∧ s.inspect.instructionCount = s.instructionCount ∧ s.inspect.ir = s.ir
      ∧ s.inspect.status = s.status ∧ s.inspect.haltCause = s.haltCause ∧ s.inspect.trace = s.trace
      ∧ s.inspect.regs.length
          = (match s.cfg.isa with | .mips => 32 | .arm => 16 | .powerPc => 32 | .x86 => 8)
      ∧ (∀ k, k < s.inspect.regs.length → s.inspect.regs[k]?
          = some (if s.cfg.isa = .arm ∧ k = 15 then some s.pc
              else if s.known (BitVec.ofNat 5 k) = true then some (s.readReg (BitVec.ofNat 5 k))
              else none))
      ∧ s.inspect.flags
          = (match s.cfg.isa with | .arm => some s.cpsr | .x86 => some s.eflags | _ => none)
      ∧ s.inspect.romLen = s.romLen ∧ s.inspect.ramLen = s.ramLen
      ∧ (∀ a : Word, a.toNat < s.romLen → s.inspect.rom.read a.toNat = s.peek a)
      ∧ (∀ a : Word, 0x80000000 ≤ a.toNat → a.toNat < 0x80000000 + s.ramLen →
          s.inspect.ram.read a.toNat = s.peek a)

/-! ### The address space -/

/-- O28. 20_memory R30 and R34: the four regions in their order, and what a byte read gives in each. -/
def Obligations.ReadByteByRegion : Prop :=
  ∀ (s : State) (a : Word),
    OnlyReads s (s.readByte a).2
      ∧ s.readByte a =
        if a.toNat < s.romLen then (s.peek a, s)
        else if 0x80000000 ≤ a.toNat ∧ a.toNat < 0x80000000 + s.ramLen then (s.peek a, s)
        else if 0xF0000000 ≤ a.toNat then s.ioReadByte (a.toNat - 0xF0000000)
        else (0xFF, { s with trace := s.trace ++ [.busFault .read a] })

/-- O29. 20_memory R35: what a byte write does in each region. -/
def Obligations.WriteByteByRegion : Prop :=
  ∀ (s : State) (a : Word) (v : Byte), s.mem.wf = true →
    if a.toNat < s.romLen then
      s.writeByte a v = { s with trace := s.trace ++ [.busFault .romWrite a] }
    else if 0x80000000 ≤ a.toNat ∧ a.toNat < 0x80000000 + s.ramLen then
      s.writeByte a v = { s with mem := (s.writeByte a v).mem }
        ∧ (s.writeByte a v).mem.wf = true
        ∧ ∀ b, (s.writeByte a v).peek b = if b = a then v else s.peek b
    else if 0xF0000000 ≤ a.toNat then s.writeByte a v = s.ioWriteByte (a.toNat - 0xF0000000) a v
    else s.writeByte a v = { s with trace := s.trace ++ [.busFault .write a] }

/-- O30. 20_memory R36: four byte reads in order, little-endian, addresses modulo `2^32`. -/
def Obligations.ReadWordIsFourByteReads : Prop :=
  ∀ (s s1 s2 s3 s4 : State) (a : Word) (b0 b1 b2 b3 : Byte),
    s.readByte a = (b0, s1) → s1.readByte (a + 1) = (b1, s2) → s2.readByte (a + 2) = (b2, s3) →
    s3.readByte (a + 3) = (b3, s4) →
    s.readWord a = (b3 ++ b2 ++ b1 ++ b0, s4)

/-- O31. 20_memory R37: four byte writes, the lowest byte first, each accepted or rejected on its own, so
that of memory only the bytes in RAM change. -/
def Obligations.WriteWordIsFourByteWrites : Prop :=
  ∀ (s : State) (a v : Word),
    s.writeWord a v
        = (((s.writeByte a (v.extractLsb' 0 8)).writeByte (a + 1) (v.extractLsb' 8 8)).writeByte
            (a + 2) (v.extractLsb' 16 8)).writeByte (a + 3) (v.extractLsb' 24 8)
      ∧ (s.mem.wf = true → ∀ b, (s.writeWord a v).peek b
          = if s.isRam b = true then (storedByte a v b).getD (s.peek b) else s.peek b)

/-- O32. A word stored to RAM reads back, byte by byte and whole (20_memory R36, R37, R38). -/
def Obligations.StoredWordReadsBack : Prop :=
  ∀ (s : State) (a v : Word), s.mem.wf = true →
    (∀ k : Fin 4, s.isRam (a + BitVec.ofNat 32 k) = true) →
    (s.writeWord a v).readWord a = (v, s.writeWord a v)
      ∧ ∀ k : Fin 4, ((s.writeWord a v).readByte (a + BitVec.ofNat 32 k)).1 = v.extractLsb' (8 * k) 8

/-- O33. Code stored to RAM by `sw` runs on the next step that fetches it, with no fence
(20_memory R51). -/
def Obligations.StoredCodeRuns : Prop :=
  ∀ (s t u : State) (rs rt : BitVec 5) (imm : BitVec 16) (i : Instr), s.mem.wf = true →
    (∀ k : Fin 4, s.isRam (s.readReg rs + imm.signExtend 32 + BitVec.ofNat 32 k) = true) →
    exec (.mipsSw rs rt imm) s = .next t → t.status = .running →
    u = { t with pc := s.readReg rs + imm.signExtend 32 } → u.MayFetch →
    decode s.cfg.isa (s.readReg rt) = .ok i →
    step u = exec i { u with ir := s.readReg rt }

/-- O34. Reads of the MMIO window: the registers' bytes, a fresh draw for `TIMER_VALUE`, 0 in the stubs and
at every other offset; a read changes no register and emits no event (20_memory R41, R42, R45). That a
draw advances the model's own counter is log entry 7. -/
def Obligations.MmioReads : Prop :=
  ∀ (s : State) (a : Word) (o lane : Nat), s.cfg.ioMap.wf = true → s.romLen ≤ 0x80000000 →
    s.ramLen ≤ 0x70000000 → a.toNat = 0xF0000000 + o → lane = o % 4 →
    (o - lane = s.cfg.ioMap.uartStatus →
        s.readByte a = ((0x00000001 : Word).extractLsb' (8 * lane) 8, s))
      ∧ (o - lane = s.cfg.ioMap.uartData → s.readByte a = (0x00, s))
      ∧ (o - lane = s.cfg.ioMap.timerControl →
          s.readByte a = (s.io.timerControl.extractLsb' (8 * lane) 8, s))
      ∧ (o - lane = s.cfg.ioMap.timerValue →
          s.readByte a = (Config.timerDraw s.draws, { s with draws := s.draws + 1 }))
      ∧ (o - lane = s.cfg.ioMap.intMask →
          s.readByte a = (s.io.intMask.extractLsb' (8 * lane) 8, s))
      ∧ (o - lane = s.cfg.ioMap.gpio → s.readByte a = (s.io.gpio.extractLsb' (8 * lane) 8, s))
      ∧ (o - lane ∉ s.cfg.ioMap.slots → s.readByte a = (0x00, s))

/-- O35. 20_memory R43: writes of the MMIO window, register by register. -/
def Obligations.MmioWrites : Prop :=
  ∀ (s : State) (a : Word) (v : Byte) (o lane : Nat), s.cfg.ioMap.wf = true →
    s.romLen ≤ 0x80000000 → s.ramLen ≤ 0x70000000 → a.toNat = 0xF0000000 + o → lane = o % 4 →
    (o - lane = s.cfg.ioMap.timerControl → ∃ n : Word,
        s.writeByte a v = { s with io := { s.io with timerControl := n } }
          ∧ ∀ k : Fin 4, n.extractLsb' (8 * k) 8
            = if (k : Nat) = lane then v else s.io.timerControl.extractLsb' (8 * k) 8)
      ∧ (o - lane = s.cfg.ioMap.intMask → ∃ n : Word,
          s.writeByte a v = { s with io := { s.io with intMask := n } }
            ∧ ∀ k : Fin 4, n.extractLsb' (8 * k) 8
              = if (k : Nat) = lane then v else s.io.intMask.extractLsb' (8 * k) 8)
      ∧ (o - lane = s.cfg.ioMap.gpio → ∃ n : Word,
          s.writeByte a v = { s with io := { s.io with gpio := n } }
            ∧ ∀ k : Fin 4, n.extractLsb' (8 * k) 8
              = if (k : Nat) = lane then v else s.io.gpio.extractLsb' (8 * k) 8)
      ∧ (o - lane = s.cfg.ioMap.uartData → s.writeByte a v
          = if lane = 0 then { s with trace := s.trace ++ [.outChar v] } else s)
      ∧ (o - lane = s.cfg.ioMap.uartStatus ∨ o - lane = s.cfg.ioMap.timerValue →
          s.writeByte a v = { s with trace := s.trace ++ [.ioWriteIgnored a v] })
      ∧ (o - lane ∉ s.cfg.ioMap.slots → s.writeByte a v =
          if (s.cfg.ioMap.networkBase ≤ o ∧ o < s.cfg.ioMap.networkBase + s.cfg.ioMap.networkSize)
              ∨ (s.cfg.ioMap.videoBase ≤ o ∧ o < s.cfg.ioMap.videoBase + s.cfg.ioMap.videoSize)
          then { s with trace := s.trace ++ [.ioStubWrite a v] }
          else { s with trace := s.trace ++ [.ioWriteIgnored a v] })
      ∧ (o = s.cfg.ioMap.uartData →
          s.writeWord a 0x00000041 = { s with trace := s.trace ++ [.outChar 0x41] })

/-- O36. 30_encoding R67: a fetch from unmapped addresses gives `0xFFFFFFFF`, which is no instruction of any
core; a fetch from zeroed ROM or RAM gives 0, on which a MIPS core does nothing but go on (it reads register 0, so
that must have a value: 10_state R28), and every other core halts. -/
def Obligations.UnmappedFetchHalts : Prop :=
  (∀ s : State, s.active → s.MayFetch →
      (∀ k : Fin 4, s.romLen ≤ (s.pc + BitVec.ofNat 32 k).toNat
        ∧ (s.pc + BitVec.ofNat 32 k).toNat < 0xF0000000
        ∧ ¬(0x80000000 ≤ (s.pc + BitVec.ofNat 32 k).toNat
          ∧ (s.pc + BitVec.ofNat 32 k).toNat < 0x80000000 + s.ramLen)) →
      step s = .next { s with
        ir := 0xFFFFFFFF
        status := .halted
        haltCause := some (.unsupportedOpcode s.pc 0xFFFFFFFF)
        trace := s.trace ++ [.busFault .read s.pc, .busFault .read (s.pc + 1),
          .busFault .read (s.pc + 2), .busFault .read (s.pc + 3),
          .halted (.unsupportedOpcode s.pc 0xFFFFFFFF)] })
    ∧ (∀ isa : Isa, ∃ r, decode isa 0xFFFFFFFF = .error r)
    ∧ (∀ w : Word, field w 0 8 = 0xFF#8 ∨ field w 0 8 = 0x00#8 → ∃ r, decode .x86 w = .error r)
    ∧ decode .mips 0x00000000 = .ok (.mipsSll 0 0 0)
    ∧ (∀ isa : Isa, isa ≠ .mips → ∃ r, decode isa 0x00000000 = .error r)
    ∧ (∀ s : State, s.active → s.MayFetch →
      (∀ k : Fin 4, ((∃ o, s.region (s.pc + BitVec.ofNat 32 k) = .rom o)
          ∨ ∃ o, s.region (s.pc + BitVec.ofNat 32 k) = .ram o)
        ∧ s.peek (s.pc + BitVec.ofNat 32 k) = 0x00) →
      (s.cfg.isa ≠ .mips → step s = .next { s with
          ir := 0x00000000
          status := .halted
          haltCause := some (.unsupportedOpcode s.pc 0x00000000)
          trace := s.trace ++ [.halted (.unsupportedOpcode s.pc 0x00000000)] })
        ∧ (s.cfg.isa = .mips → s.known 0 = true →
          ∃ t, step s = .next t ∧ OnlyJumps { s with ir := 0x00000000 } t (s.pc + 4))
        ∧ (s.cfg.isa = .mips → s.known 0 = false → ∃ t, step s = .next t
          ∧ HaltedWith { s with ir := 0x00000000 } t (.unmodelled s.pc 0x00000000)))

/-! ### Registers -/

/-- O37. Register 0 of a MIPS core that hardwires it reads 0, has a value and discards writes; every other
register of every core reads back what was written, and a write changes no other register
(10_state R15, R28). -/
def Obligations.RegistersReadBack : Prop :=
  ∀ (s : State) (d r : RegIx) (v : Word),
    (s.writeReg d v).readReg r
        = (if s.cfg.isa = .mips ∧ s.cfg.r0Hardwired = true ∧ r = 0 then 0
           else if r = d then v else s.readReg r)
      ∧ ((s.writeReg d v).known r = true ↔ r = d ∨ s.known r = true)
      ∧ (s.cfg.isa = .mips → s.cfg.r0Hardwired = true →
          s.readReg 0 = 0 ∧ s.known 0 = true ∧ s.writeReg 0 v = s)

/-- O38. A register that has a value keeps one, whatever runs (10_state R28: indices only join
`written`). -/
def Obligations.WrittenRegistersStayWritten : Prop :=
  ∀ (s t : State) (w : Word) (r : RegIx), step s = .next t ∨ s.execWord w = .next t →
    s.known r = true → t.known r = true

/-- O39. Only x86 ADD and SUB write `eflags`, and they write none of its reserved bits (10_state R21;
log entry 12). -/
def Obligations.OnlyAddAndSubWriteFlags : Prop :=
  ∀ (i : Instr) (s t : State), exec i s = .next t →
    t.eflags &&& 0xFFFFF72A = s.eflags &&& 0xFFFFF72A
      ∧ ((∀ reg rm, i ≠ .x86Add reg rm ∧ i ≠ .x86Sub reg rm) → t.eflags = s.eflags)

/-- O40. Only `sw` changes memory or an MMIO storage register (10_state R24; 20_memory R40). -/
def Obligations.OnlyStoreWordWritesMemory : Prop :=
  ∀ (i : Instr) (s t : State), exec i s = .next t → (∀ rs rt imm, i ≠ .mipsSw rs rt imm) →
    t.mem = s.mem ∧ t.io = s.io

/-! ### MIPS -/

/-- O41. 41_mips_alu R88, R90, R91, R97: `add`, `sub` and `addi`, with their signed overflow. -/
def Obligations.MipsAddSubAddi : Prop :=
  DecodesAs .mips 0xFC0007FF 0x00000020 (fun w => .mipsAdd (field w 21 5) (field w 16 5) (field w 11 5))
    ∧ DecodesAs .mips 0xFC0007FF 0x00000022
        (fun w => .mipsSub (field w 21 5) (field w 16 5) (field w 11 5))
    ∧ DecodesAs .mips 0xFC000000 0x20000000
        (fun w => .mipsAddi (field w 21 5) (field w 16 5) (field w 0 16))
    ∧ ∀ (rs rt rd : BitVec 5) (imm : BitVec 16),
      CheckedRule (.mipsAdd rs rt rd) [rs, rt] rd
          (fun s => (s.readReg rs).toInt + (s.readReg rt).toInt)
          (fun s => s.readReg rs + s.readReg rt)
        ∧ CheckedRule (.mipsSub rs rt rd) [rs, rt] rd
          (fun s => (s.readReg rs).toInt - (s.readReg rt).toInt)
          (fun s => s.readReg rs - s.readReg rt)
        ∧ CheckedRule (.mipsAddi rs rt imm) [rs] rt
          (fun s => (s.readReg rs).toInt + (imm.signExtend 32).toInt)
          (fun s => s.readReg rs + imm.signExtend 32)

/-- O42. 41_mips_alu R92, R93, R94: `and`, `or`, `nor`. -/
def Obligations.MipsLogical : Prop :=
  DecodesAs .mips 0xFC0007FF 0x00000024 (fun w => .mipsAnd (field w 21 5) (field w 16 5) (field w 11 5))
    ∧ DecodesAs .mips 0xFC0007FF 0x00000025
        (fun w => .mipsOr (field w 21 5) (field w 16 5) (field w 11 5))
    ∧ DecodesAs .mips 0xFC0007FF 0x00000027
        (fun w => .mipsNor (field w 21 5) (field w 16 5) (field w 11 5))
    ∧ ∀ rs rt rd : BitVec 5,
      RegisterRule (.mipsAnd rs rt rd) [rs, rt] rd (fun s => s.readReg rs &&& s.readReg rt) 4
        ∧ RegisterRule (.mipsOr rs rt rd) [rs, rt] rd (fun s => s.readReg rs ||| s.readReg rt) 4
        ∧ RegisterRule (.mipsNor rs rt rd) [rs, rt] rd
          (fun s => ~~~(s.readReg rs ||| s.readReg rt)) 4

/-- O43. 41_mips_alu R95, R96: `sll`, `srl`; a nonzero `rs` field is no instruction. -/
def Obligations.MipsShifts : Prop :=
  DecodesAs .mips 0xFFE0003F 0x00000000 (fun w => .mipsSll (field w 16 5) (field w 11 5) (field w 6 5))
    ∧ DecodesAs .mips 0xFFE0003F 0x00000002
        (fun w => .mipsSrl (field w 16 5) (field w 11 5) (field w 6 5))
    ∧ (∀ w : Word, w &&& 0xFC00003D = 0x00000000 → field w 21 5 ≠ 0#5 →
        ∃ r, decode .mips w = .error r)
    ∧ ∀ rt rd sa : BitVec 5,
      RegisterRule (.mipsSll rt rd sa) [rt] rd (fun s => s.readReg rt <<< sa.toNat) 4
        ∧ RegisterRule (.mipsSrl rt rd sa) [rt] rd (fun s => s.readReg rt >>> sa.toNat) 4

/-- O44. 41_mips_alu R98, R99, R100: `andi`, `ori`, `xori` with the immediate zero-extended. -/
def Obligations.MipsLogicalImmediate : Prop :=
  DecodesAs .mips 0xFC000000 0x30000000
      (fun w => .mipsAndi (field w 21 5) (field w 16 5) (field w 0 16))
    ∧ DecodesAs .mips 0xFC000000 0x34000000
        (fun w => .mipsOri (field w 21 5) (field w 16 5) (field w 0 16))
    ∧ DecodesAs .mips 0xFC000000 0x38000000
        (fun w => .mipsXori (field w 21 5) (field w 16 5) (field w 0 16))
    ∧ ∀ (rs rt : BitVec 5) (imm : BitVec 16),
      RegisterRule (.mipsAndi rs rt imm) [rs] rt (fun s => s.readReg rs &&& imm.setWidth 32) 4
        ∧ RegisterRule (.mipsOri rs rt imm) [rs] rt (fun s => s.readReg rs ||| imm.setWidth 32) 4
        ∧ RegisterRule (.mipsXori rs rt imm) [rs] rt (fun s => s.readReg rs ^^^ imm.setWidth 32) 4

/-- O45. 42_mips_memory R101, R102: `lw` writes the word read at `x[rs] + sext_32(imm)` to `rt`; the read is
made, with its events, even if `rt` discards it. -/
def Obligations.MipsLoadWord : Prop :=
  DecodesAs .mips 0xFC000000 0x8C000000
      (fun w => .mipsLw (field w 21 5) (field w 16 5) (field w 0 16))
    ∧ ∀ (s : State) (rs rt : BitVec 5) (imm : BitVec 16) (ea : Word),
      ea = s.readReg rs + imm.signExtend 32 →
      (s.known rs = true → (s.cfg.alignCheck = true → ea.extractLsb' 0 2 = 0#2) →
          ∃ t, exec (.mipsLw rs rt imm) s = .next t
            ∧ OnlyRegWritten s t rt (s.readWord ea).1 ∧ CompletedAt s t (s.pc + 4)
            ∧ t.eflags = s.eflags ∧ SameMemory s t ∧ SameFixed s t ∧ t.io = s.io
            ∧ t.trace = (s.readWord ea).2.trace ∧ t.draws = (s.readWord ea).2.draws)
        ∧ (s.known rs = true → s.cfg.alignCheck = true → ea.extractLsb' 0 2 ≠ 0#2 →
          ∃ t, exec (.mipsLw rs rt imm) s = .next t ∧ HaltedWith s t (.misaligned s.pc ea))
        ∧ (s.known rs = false →
          ∃ t, exec (.mipsLw rs rt imm) s = .next t ∧ HaltedWith s t (.unmodelled s.pc s.ir))

/-- O46. 42_mips_memory R101, R103: `sw` stores the word of `rt` at `x[rs] + sext_32(imm)`; in RAM its four
bytes change and no other byte does, and events and MMIO registers are those of the four byte writes. That a
misaligned `sw` whose `rt` alone has no value halts `Unmodelled` is the model's reading of 60_exceptions R138
(log entry 9, DEDUCED): R103's lines check the address before they read `rt`. -/
def Obligations.MipsStoreWord : Prop :=
  DecodesAs .mips 0xFC000000 0xAC000000
      (fun w => .mipsSw (field w 21 5) (field w 16 5) (field w 0 16))
    ∧ ∀ (s : State) (rs rt : BitVec 5) (imm : BitVec 16) (ea : Word),
      ea = s.readReg rs + imm.signExtend 32 →
      (s.known rs = true → s.known rt = true →
        (s.cfg.alignCheck = true → ea.extractLsb' 0 2 = 0#2) →
          ∃ t, exec (.mipsSw rs rt imm) s = .next t
            ∧ SameRegs s t ∧ CompletedAt s t (s.pc + 4) ∧ t.eflags = s.eflags ∧ SameFixed s t
            ∧ t.romLen = s.romLen ∧ t.ramLen = s.ramLen ∧ t.draws = s.draws
            ∧ t.io = (s.writeWord ea (s.readReg rt)).io
            ∧ t.trace = (s.writeWord ea (s.readReg rt)).trace
            ∧ (s.mem.wf = true → ∀ a, t.peek a
                = if s.isRam a = true then (storedByte ea (s.readReg rt) a).getD (s.peek a)
                  else s.peek a))
        ∧ (s.known rs = true → s.known rt = true → s.cfg.alignCheck = true →
          ea.extractLsb' 0 2 ≠ 0#2 →
          ∃ t, exec (.mipsSw rs rt imm) s = .next t ∧ HaltedWith s t (.misaligned s.pc ea))
        ∧ (s.known rs = false ∨ s.known rt = false →
          ∃ t, exec (.mipsSw rs rt imm) s = .next t ∧ HaltedWith s t (.unmodelled s.pc s.ir))

/-- O47. 43_mips_control R105, R106: `beq` and `bne`, with no delay slot. -/
def Obligations.MipsBranches : Prop :=
  DecodesAs .mips 0xFC000000 0x10000000
      (fun w => .mipsBeq (field w 21 5) (field w 16 5) (field w 0 16))
    ∧ DecodesAs .mips 0xFC000000 0x14000000
        (fun w => .mipsBne (field w 21 5) (field w 16 5) (field w 0 16))
    ∧ ∀ (s : State) (rs rt : BitVec 5) (imm : BitVec 16),
      (s.known rs = true → s.known rt = true →
          (∃ t, exec (.mipsBeq rs rt imm) s = .next t ∧ OnlyJumps s t
            (if s.readReg rs = s.readReg rt then s.pc + 4 + (imm.signExtend 32 <<< 2) else s.pc + 4))
          ∧ (∃ t, exec (.mipsBne rs rt imm) s = .next t ∧ OnlyJumps s t
            (if s.readReg rs = s.readReg rt then s.pc + 4 else s.pc + 4 + (imm.signExtend 32 <<< 2))))
        ∧ (s.known rs = false ∨ s.known rt = false →
          ∀ i ∈ [Instr.mipsBeq rs rt imm, Instr.mipsBne rs rt imm],
            ∃ t, exec i s = .next t ∧ HaltedWith s t (.unmodelled s.pc s.ir))

/-- O48. 43_mips_control R107: `jr`. -/
def Obligations.MipsJumpRegister : Prop :=
  DecodesAs .mips 0xFC1FFFFF 0x00000008 (fun w => .mipsJr (field w 21 5))
    ∧ ∀ (s : State) (rs : BitVec 5),
      (s.known rs = true → ∃ t, exec (.mipsJr rs) s = .next t ∧ OnlyJumps s t (s.readReg rs))
        ∧ (s.known rs = false →
          ∃ t, exec (.mipsJr rs) s = .next t ∧ HaltedWith s t (.unmodelled s.pc s.ir))

/-- O49. 43_mips_control R108: `syscall`. The call number is `x[2]`, the argument `x[4]`, the code field is
ignored. Call 1 emits the signed integer; call 4 emits the string, read byte by byte up to the first
`0x00`, which comes in every core whose parameters keep their limits; any other call halts. -/
def Obligations.MipsSyscall : Prop :=
  DecodesAs .mips 0xFC00003F 0x0000000C (fun w => .mipsSyscall (field w 6 20))
    ∧ ∀ (s : State) (code : BitVec 20),
      (s.known 2 = true → s.known 4 = true → s.readReg 2 = 1 →
          ∃ t, exec (.mipsSyscall code) s = .next t
            ∧ SameRegs s t ∧ CompletedAt s t (s.pc + 4) ∧ t.eflags = s.eflags ∧ SameMemory s t
            ∧ SameFixed s t ∧ t.io = s.io ∧ t.draws = s.draws
            ∧ t.trace = s.trace ++ [.outInt (s.readReg 4).toInt])
        ∧ (s.known 2 = true → s.known 4 = true → s.readReg 2 = 4 →
          s.cfg.ioMap.wf = true → s.romLen ≤ 0x80000000 → s.ramLen ≤ 0x70000000 →
          ∃ (t u : State) (bs : List Byte), exec (.mipsSyscall code) s = .next t
            ∧ StringAt s (s.readReg 4) bs u ∧ OnlyReads s u ∧ bs.length < 2 ^ 32
            ∧ SameRegs s t ∧ CompletedAt s t (s.pc + 4) ∧ t.eflags = s.eflags ∧ SameMemory s t
            ∧ SameFixed s t ∧ t.io = s.io ∧ t.draws = u.draws
            ∧ t.trace = u.trace ++ [.outText bs])
        ∧ (s.known 2 = true → s.readReg 2 ≠ 1 → s.readReg 2 ≠ 4 →
          ∃ t, exec (.mipsSyscall code) s = .next t
            ∧ HaltedWith s t (.unsupportedSyscall s.pc (s.readReg 2)))
        ∧ (s.known 2 = false ∨ (s.known 4 = false ∧ (s.readReg 2 = 1 ∨ s.readReg 2 = 4)) →
          ∃ t, exec (.mipsSyscall code) s = .next t ∧ HaltedWith s t (.unmodelled s.pc s.ir))

/-! ### ARM -/

/-- O50. 44_arm R112, R113: ADD, immediate and register form. -/
def Obligations.ArmAdd : Prop :=
  DecodesAs .arm 0xFFF00000 0xE2800000
      (fun w => .armAddImm (field w 16 4) (field w 12 4) (field w 8 4) (field w 0 8))
    ∧ DecodesAs .arm 0xFFF00FF0 0xE0800000
        (fun w => .armAddReg (field w 16 4) (field w 12 4) (field w 0 4))
    ∧ ∀ (rn rd rm rot : BitVec 4) (imm8 : BitVec 8),
      RegisterRule (.armAddImm rn rd rot imm8) [armReg rn] (armReg rd)
          (fun s => s.readReg (armReg rn) + (imm8.setWidth 32).rotateRight (2 * rot.toNat)) 4
        ∧ RegisterRule (.armAddReg rn rd rm) [armReg rn, armReg rm] (armReg rd)
          (fun s => s.readReg (armReg rn) + s.readReg (armReg rm)) 4

/-- O51. 44_arm R114, R115: SUB, immediate and register form. -/
def Obligations.ArmSub : Prop :=
  DecodesAs .arm 0xFFF00000 0xE2400000
      (fun w => .armSubImm (field w 16 4) (field w 12 4) (field w 8 4) (field w 0 8))
    ∧ DecodesAs .arm 0xFFF00FF0 0xE0400000
        (fun w => .armSubReg (field w 16 4) (field w 12 4) (field w 0 4))
    ∧ ∀ (rn rd rm rot : BitVec 4) (imm8 : BitVec 8),
      RegisterRule (.armSubImm rn rd rot imm8) [armReg rn] (armReg rd)
          (fun s => s.readReg (armReg rn) - (imm8.setWidth 32).rotateRight (2 * rot.toNat)) 4
        ∧ RegisterRule (.armSubReg rn rd rm) [armReg rn, armReg rm] (armReg rd)
          (fun s => s.readReg (armReg rn) - s.readReg (armReg rm)) 4

/-- O52. 44_arm R116, R117: MOV, immediate and register form; the immediate form reads no register. -/
def Obligations.ArmMov : Prop :=
  DecodesAs .arm 0xFFFF0000 0xE3A00000
      (fun w => .armMovImm (field w 12 4) (field w 8 4) (field w 0 8))
    ∧ DecodesAs .arm 0xFFFF0FF0 0xE1A00000 (fun w => .armMovReg (field w 12 4) (field w 0 4))
    ∧ ∀ (rd rm rot : BitVec 4) (imm8 : BitVec 8),
      RegisterRule (.armMovImm rd rot imm8) [] (armReg rd)
          (fun _ => (imm8.setWidth 32).rotateRight (2 * rot.toNat)) 4
        ∧ RegisterRule (.armMovReg rd rm) [armReg rm] (armReg rd)
          (fun s => s.readReg (armReg rm)) 4

/-- O53. 44_arm R118, R119, R120: B and BL; the link register is `r14`. -/
def Obligations.ArmBranches : Prop :=
  DecodesAs .arm 0xFF000000 0xEA000000 (fun w => .armB (field w 0 24))
    ∧ DecodesAs .arm 0xFF000000 0xEB000000 (fun w => .armBl (field w 0 24))
    ∧ ∀ (s : State) (imm24 : BitVec 24) (bias : Word),
      bias = (match s.cfg.armPcBias with | .eight => 8 | .four => 4) →
      (∃ t, exec (.armB imm24) s = .next t
          ∧ OnlyJumps s t (s.pc + bias + (imm24.signExtend 32 <<< 2)))
        ∧ ∃ t, exec (.armBl imm24) s = .next t
          ∧ WritesReg s t 14 (s.pc + 4) (s.pc + bias + (imm24.signExtend 32 <<< 2))

/-! ### PowerPC -/

/-- O54. 45_powerpc R123: `addi`, with the value 0 for `rA = 0`. -/
def Obligations.PpcAddImmediate : Prop :=
  DecodesAs .powerPc 0xFC000000 0x38000000
      (fun w => .ppcAddi (field w 21 5) (field w 16 5) (field w 0 16))
    ∧ ∀ (rD rA : BitVec 5) (simm : BitVec 16),
      RegisterRule (.ppcAddi rD rA simm) (if rA = 0 then [] else [rA]) rD
        (fun s => (if rA = 0 then 0 else s.readReg rA) + simm.signExtend 32) 4

/-- O55. 45_powerpc R124, R125, R126: `subf` computes `rB - rA`; `or` writes its middle field. -/
def Obligations.PpcRegisterForms : Prop :=
  DecodesAs .powerPc 0xFC0007FF 0x7C000050
      (fun w => .ppcSubf (field w 21 5) (field w 16 5) (field w 11 5))
    ∧ DecodesAs .powerPc 0xFC0007FF 0x7C000214
        (fun w => .ppcAdd (field w 21 5) (field w 16 5) (field w 11 5))
    ∧ DecodesAs .powerPc 0xFC0007FF 0x7C000378
        (fun w => .ppcOr (field w 21 5) (field w 16 5) (field w 11 5))
    ∧ ∀ d a b : BitVec 5,
      RegisterRule (.ppcSubf d a b) [a, b] d (fun s => s.readReg b - s.readReg a) 4
        ∧ RegisterRule (.ppcAdd d a b) [a, b] d (fun s => s.readReg a + s.readReg b) 4
        ∧ RegisterRule (.ppcOr d a b) [d, b] a (fun s => s.readReg d ||| s.readReg b) 4

/-! ### x86 -/

/-- O56. 46_x86 R129, R130, R131: ADD and SUB with their six flags; `rm` is the destination. MOV writes no
flag. -/
def Obligations.X86AddSub : Prop :=
  DecodesAs .x86 0x0000C0FF 0x0000C001 (fun w => .x86Add (field w 11 3) (field w 8 3))
    ∧ DecodesAs .x86 0x0000C0FF 0x0000C029 (fun w => .x86Sub (field w 11 3) (field w 8 3))
    ∧ ∀ (s : State) (reg rm : BitVec 3) (a b : Word),
      a = s.readReg (x86Reg rm) → b = s.readReg (x86Reg reg) →
      (s.known (x86Reg rm) = true → s.known (x86Reg reg) = true →
          (∃ t, exec (.x86Add reg rm) s = .next t
            ∧ OnlyRegWritten s t (x86Reg rm) (a + b) ∧ CompletedAt s t (s.pc + 2)
            ∧ X86FlagsAre s.eflags t.eflags a b (a + b) (decide (2 ^ 32 ≤ a.toNat + b.toNat))
                (a.getLsbD 31 == b.getLsbD 31 && (a + b).getLsbD 31 != a.getLsbD 31)
            ∧ SameMemory s t ∧ SameFixed s t ∧ SameIo s t)
          ∧ ∃ t, exec (.x86Sub reg rm) s = .next t
            ∧ OnlyRegWritten s t (x86Reg rm) (a - b) ∧ CompletedAt s t (s.pc + 2)
            ∧ X86FlagsAre s.eflags t.eflags a b (a - b) (decide (a.toNat < b.toNat))
                (a.getLsbD 31 != b.getLsbD 31 && (a - b).getLsbD 31 != a.getLsbD 31)
            ∧ SameMemory s t ∧ SameFixed s t ∧ SameIo s t)
        ∧ (s.known (x86Reg rm) = false ∨ s.known (x86Reg reg) = false →
          ∀ i ∈ [Instr.x86Add reg rm, Instr.x86Sub reg rm],
            ∃ t, exec i s = .next t ∧ HaltedWith s t (.unmodelled s.pc s.ir))
        ∧ (∀ t, exec (.x86Mov reg rm) s = .next t → t.eflags = s.eflags)

/-- O57. 46_x86 R132: MOV; no flag is written. -/
def Obligations.X86Mov : Prop :=
  DecodesAs .x86 0x0000C0FF 0x0000C089 (fun w => .x86Mov (field w 11 3) (field w 8 3))
    ∧ ∀ reg rm : BitVec 3,
      RegisterRule (.x86Mov reg rm) [x86Reg reg] (x86Reg rm) (fun s => s.readReg (x86Reg reg)) 2

/-! ### The end of a program -/

/-- O58. 70_reset_and_hazards R154: a core whose instruction ended exactly at `len(rom)`, below `RAM_BASE`, halts
there with `UnsupportedOpcode(len(rom), 0xFFFFFFFF)`, the four bytes being unmapped. Where ROM ends one to three
bytes below `RAM_BASE` they are not: the fetch is `readWord(pc)` there too, by the ruling of 90_conflicts C5, and
its bytes from `RAM_BASE` on are those of RAM (log entry 22, DEDUCED). There the core halts on the word read if it
is an x86 core or if these bytes are 0, as they are after a load. -/
def Obligations.RunningOffRomHalts : Prop :=
  ∀ s : State, s.active → s.MayFetch → s.pc.toNat = s.romLen → s.romLen < 0x80000000 →
    (s.romLen + 4 ≤ 0x80000000 → step s = .next { s with
        ir := 0xFFFFFFFF
        status := .halted
        haltCause := some (.unsupportedOpcode s.pc 0xFFFFFFFF)
        trace := s.trace ++ [.busFault .read s.pc, .busFault .read (s.pc + 1),
          .busFault .read (s.pc + 2), .busFault .read (s.pc + 3),
          .halted (.unsupportedOpcode s.pc 0xFFFFFFFF)] })
    ∧ (∀ k : Fin 4, byteOfWord (s.readWord s.pc).1 k
        = if 0x80000000 ≤ (s.pc + BitVec.ofNat 32 k).toNat
            ∧ (s.pc + BitVec.ofNat 32 k).toNat < 0x80000000 + s.ramLen
          then s.peek (s.pc + BitVec.ofNat 32 k) else 0xFF)
    ∧ (s.cfg.isa = .x86
        ∨ (∀ a : Word, 0x80000000 ≤ a.toNat → a.toNat < 0x80000003 → s.peek a = 0x00) →
      ∃ t, step s = .next t ∧ HaltedWith { (s.readWord s.pc).2 with ir := (s.readWord s.pc).1 } t
        (.unsupportedOpcode s.pc (s.readWord s.pc).1))
end

