-- ==== Sys2Proof/Laws/State.lean ====
section
/-! SUPPORT. What each update of the state does to each field: one lemma per update and field. -/

namespace Sys2Proof.Machine

variable (s : State)

/-! ### `emit` -/

@[simp] theorem State.emit_cfg (e : Event) : (s.emit e).cfg = s.cfg := rfl
@[simp] theorem State.emit_status (e : Event) : (s.emit e).status = s.status := rfl
@[simp] theorem State.emit_pc (e : Event) : (s.emit e).pc = s.pc := rfl
@[simp] theorem State.emit_ir (e : Event) : (s.emit e).ir = s.ir := rfl
@[simp] theorem State.emit_instructionCount (e : Event) : (s.emit e).instructionCount = s.instructionCount := rfl
@[simp] theorem State.emit_haltCause (e : Event) : (s.emit e).haltCause = s.haltCause := rfl
@[simp] theorem State.emit_stopRequested (e : Event) : (s.emit e).stopRequested = s.stopRequested := rfl
@[simp] theorem State.emit_x (e : Event) : (s.emit e).x = s.x := rfl
@[simp] theorem State.emit_cpsr (e : Event) : (s.emit e).cpsr = s.cpsr := rfl
@[simp] theorem State.emit_eflags (e : Event) : (s.emit e).eflags = s.eflags := rfl
@[simp] theorem State.emit_romLen (e : Event) : (s.emit e).romLen = s.romLen := rfl
@[simp] theorem State.emit_ramLen (e : Event) : (s.emit e).ramLen = s.ramLen := rfl
@[simp] theorem State.emit_mem (e : Event) : (s.emit e).mem = s.mem := rfl
@[simp] theorem State.emit_io (e : Event) : (s.emit e).io = s.io := rfl
@[simp] theorem State.emit_written (e : Event) : (s.emit e).written = s.written := rfl
@[simp] theorem State.emit_trace (e : Event) : (s.emit e).trace = s.trace ++ [e] := rfl
@[simp] theorem State.emit_draws (e : Event) : (s.emit e).draws = s.draws := rfl

/-! ### `halt` -/

@[simp] theorem State.halt_cfg (c : HaltCause) : (s.halt c).cfg = s.cfg := rfl
@[simp] theorem State.halt_status (c : HaltCause) : (s.halt c).status = .halted := rfl
@[simp] theorem State.halt_pc (c : HaltCause) : (s.halt c).pc = s.pc := rfl
@[simp] theorem State.halt_ir (c : HaltCause) : (s.halt c).ir = s.ir := rfl
@[simp] theorem State.halt_instructionCount (c : HaltCause) : (s.halt c).instructionCount = s.instructionCount := rfl
@[simp] theorem State.halt_haltCause (c : HaltCause) : (s.halt c).haltCause = some c := rfl
@[simp] theorem State.halt_stopRequested (c : HaltCause) : (s.halt c).stopRequested = s.stopRequested := rfl
@[simp] theorem State.halt_x (c : HaltCause) : (s.halt c).x = s.x := rfl
@[simp] theorem State.halt_cpsr (c : HaltCause) : (s.halt c).cpsr = s.cpsr := rfl
@[simp] theorem State.halt_eflags (c : HaltCause) : (s.halt c).eflags = s.eflags := rfl
@[simp] theorem State.halt_romLen (c : HaltCause) : (s.halt c).romLen = s.romLen := rfl
@[simp] theorem State.halt_ramLen (c : HaltCause) : (s.halt c).ramLen = s.ramLen := rfl
@[simp] theorem State.halt_mem (c : HaltCause) : (s.halt c).mem = s.mem := rfl
@[simp] theorem State.halt_io (c : HaltCause) : (s.halt c).io = s.io := rfl
@[simp] theorem State.halt_written (c : HaltCause) : (s.halt c).written = s.written := rfl
@[simp] theorem State.halt_trace (c : HaltCause) : (s.halt c).trace = s.trace ++ [.halted c] := rfl
@[simp] theorem State.halt_draws (c : HaltCause) : (s.halt c).draws = s.draws := rfl

/-! ### `complete` -/

@[simp] theorem State.complete_cfg (t : Word) : (s.complete t).cfg = s.cfg := rfl
@[simp] theorem State.complete_status (t : Word) : (s.complete t).status = .running := rfl
@[simp] theorem State.complete_pc (t : Word) : (s.complete t).pc = t := rfl
@[simp] theorem State.complete_ir (t : Word) : (s.complete t).ir = s.ir := rfl
@[simp] theorem State.complete_instructionCount (t : Word) : (s.complete t).instructionCount = s.instructionCount + 1 := rfl
@[simp] theorem State.complete_haltCause (t : Word) : (s.complete t).haltCause = s.haltCause := rfl
@[simp] theorem State.complete_stopRequested (t : Word) : (s.complete t).stopRequested = s.stopRequested := rfl
@[simp] theorem State.complete_x (t : Word) : (s.complete t).x = s.x := rfl
@[simp] theorem State.complete_cpsr (t : Word) : (s.complete t).cpsr = s.cpsr := rfl
@[simp] theorem State.complete_eflags (t : Word) : (s.complete t).eflags = s.eflags := rfl
@[simp] theorem State.complete_romLen (t : Word) : (s.complete t).romLen = s.romLen := rfl
@[simp] theorem State.complete_ramLen (t : Word) : (s.complete t).ramLen = s.ramLen := rfl
@[simp] theorem State.complete_mem (t : Word) : (s.complete t).mem = s.mem := rfl
@[simp] theorem State.complete_io (t : Word) : (s.complete t).io = s.io := rfl
@[simp] theorem State.complete_written (t : Word) : (s.complete t).written = s.written := rfl
@[simp] theorem State.complete_trace (t : Word) : (s.complete t).trace = s.trace := rfl
@[simp] theorem State.complete_draws (t : Word) : (s.complete t).draws = s.draws := rfl

/-! ### `setIr` -/

@[simp] theorem State.setIr_cfg (w : Word) : (s.setIr w).cfg = s.cfg := rfl
@[simp] theorem State.setIr_status (w : Word) : (s.setIr w).status = s.status := rfl
@[simp] theorem State.setIr_pc (w : Word) : (s.setIr w).pc = s.pc := rfl
@[simp] theorem State.setIr_ir (w : Word) : (s.setIr w).ir = w := rfl
@[simp] theorem State.setIr_instructionCount (w : Word) : (s.setIr w).instructionCount = s.instructionCount := rfl
@[simp] theorem State.setIr_haltCause (w : Word) : (s.setIr w).haltCause = s.haltCause := rfl
@[simp] theorem State.setIr_stopRequested (w : Word) : (s.setIr w).stopRequested = s.stopRequested := rfl
@[simp] theorem State.setIr_x (w : Word) : (s.setIr w).x = s.x := rfl
@[simp] theorem State.setIr_cpsr (w : Word) : (s.setIr w).cpsr = s.cpsr := rfl
@[simp] theorem State.setIr_eflags (w : Word) : (s.setIr w).eflags = s.eflags := rfl
@[simp] theorem State.setIr_romLen (w : Word) : (s.setIr w).romLen = s.romLen := rfl
@[simp] theorem State.setIr_ramLen (w : Word) : (s.setIr w).ramLen = s.ramLen := rfl
@[simp] theorem State.setIr_mem (w : Word) : (s.setIr w).mem = s.mem := rfl
@[simp] theorem State.setIr_io (w : Word) : (s.setIr w).io = s.io := rfl
@[simp] theorem State.setIr_written (w : Word) : (s.setIr w).written = s.written := rfl
@[simp] theorem State.setIr_trace (w : Word) : (s.setIr w).trace = s.trace := rfl
@[simp] theorem State.setIr_draws (w : Word) : (s.setIr w).draws = s.draws := rfl

/-! ### `setX86Flags` -/

@[simp] theorem State.setX86Flags_cfg (f : X86Flags) : (s.setX86Flags f).cfg = s.cfg := rfl
@[simp] theorem State.setX86Flags_status (f : X86Flags) : (s.setX86Flags f).status = s.status := rfl
@[simp] theorem State.setX86Flags_pc (f : X86Flags) : (s.setX86Flags f).pc = s.pc := rfl
@[simp] theorem State.setX86Flags_ir (f : X86Flags) : (s.setX86Flags f).ir = s.ir := rfl
@[simp] theorem State.setX86Flags_instructionCount (f : X86Flags) : (s.setX86Flags f).instructionCount = s.instructionCount := rfl
@[simp] theorem State.setX86Flags_haltCause (f : X86Flags) : (s.setX86Flags f).haltCause = s.haltCause := rfl
@[simp] theorem State.setX86Flags_stopRequested (f : X86Flags) : (s.setX86Flags f).stopRequested = s.stopRequested := rfl
@[simp] theorem State.setX86Flags_x (f : X86Flags) : (s.setX86Flags f).x = s.x := rfl
@[simp] theorem State.setX86Flags_cpsr (f : X86Flags) : (s.setX86Flags f).cpsr = s.cpsr := rfl
@[simp] theorem State.setX86Flags_eflags (f : X86Flags) : (s.setX86Flags f).eflags = withX86Flags s.eflags f := rfl
@[simp] theorem State.setX86Flags_romLen (f : X86Flags) : (s.setX86Flags f).romLen = s.romLen := rfl
@[simp] theorem State.setX86Flags_ramLen (f : X86Flags) : (s.setX86Flags f).ramLen = s.ramLen := rfl
@[simp] theorem State.setX86Flags_mem (f : X86Flags) : (s.setX86Flags f).mem = s.mem := rfl
@[simp] theorem State.setX86Flags_io (f : X86Flags) : (s.setX86Flags f).io = s.io := rfl
@[simp] theorem State.setX86Flags_written (f : X86Flags) : (s.setX86Flags f).written = s.written := rfl
@[simp] theorem State.setX86Flags_trace (f : X86Flags) : (s.setX86Flags f).trace = s.trace := rfl
@[simp] theorem State.setX86Flags_draws (f : X86Flags) : (s.setX86Flags f).draws = s.draws := rfl

/-! ### `writeReg`: every field but the register file and the written set -/

@[simp] theorem State.writeReg_cfg (r : RegIx) (v : Word) : (s.writeReg r v).cfg = s.cfg := by
  unfold State.writeReg; split <;> rfl
@[simp] theorem State.writeReg_status (r : RegIx) (v : Word) : (s.writeReg r v).status = s.status := by
  unfold State.writeReg; split <;> rfl
@[simp] theorem State.writeReg_pc (r : RegIx) (v : Word) : (s.writeReg r v).pc = s.pc := by
  unfold State.writeReg; split <;> rfl
@[simp] theorem State.writeReg_ir (r : RegIx) (v : Word) : (s.writeReg r v).ir = s.ir := by
  unfold State.writeReg; split <;> rfl
@[simp] theorem State.writeReg_instructionCount (r : RegIx) (v : Word) : (s.writeReg r v).instructionCount = s.instructionCount := by
  unfold State.writeReg; split <;> rfl
@[simp] theorem State.writeReg_haltCause (r : RegIx) (v : Word) : (s.writeReg r v).haltCause = s.haltCause := by
  unfold State.writeReg; split <;> rfl
@[simp] theorem State.writeReg_stopRequested (r : RegIx) (v : Word) : (s.writeReg r v).stopRequested = s.stopRequested := by
  unfold State.writeReg; split <;> rfl
@[simp] theorem State.writeReg_cpsr (r : RegIx) (v : Word) : (s.writeReg r v).cpsr = s.cpsr := by
  unfold State.writeReg; split <;> rfl
@[simp] theorem State.writeReg_eflags (r : RegIx) (v : Word) : (s.writeReg r v).eflags = s.eflags := by
  unfold State.writeReg; split <;> rfl
@[simp] theorem State.writeReg_romLen (r : RegIx) (v : Word) : (s.writeReg r v).romLen = s.romLen := by
  unfold State.writeReg; split <;> rfl
@[simp] theorem State.writeReg_ramLen (r : RegIx) (v : Word) : (s.writeReg r v).ramLen = s.ramLen := by
  unfold State.writeReg; split <;> rfl
@[simp] theorem State.writeReg_mem (r : RegIx) (v : Word) : (s.writeReg r v).mem = s.mem := by
  unfold State.writeReg; split <;> rfl
@[simp] theorem State.writeReg_io (r : RegIx) (v : Word) : (s.writeReg r v).io = s.io := by
  unfold State.writeReg; split <;> rfl
@[simp] theorem State.writeReg_trace (r : RegIx) (v : Word) : (s.writeReg r v).trace = s.trace := by
  unfold State.writeReg; split <;> rfl
@[simp] theorem State.writeReg_draws (r : RegIx) (v : Word) : (s.writeReg r v).draws = s.draws := by
  unfold State.writeReg; split <;> rfl

/-! ### Views that do not read the updated fields -/

@[simp] theorem State.emit_hardwired (e : Event) (r : RegIx) : (s.emit e).hardwired r = s.hardwired r := rfl
@[simp] theorem State.emit_readReg (e : Event) (r : RegIx) : (s.emit e).readReg r = s.readReg r := rfl
@[simp] theorem State.emit_known (e : Event) (r : RegIx) : (s.emit e).known r = s.known r := rfl
@[simp] theorem State.emit_peek (e : Event) (a : Word) : (s.emit e).peek a = s.peek a := rfl
@[simp] theorem State.emit_region (e : Event) (a : Word) : (s.emit e).region a = s.region a := rfl
@[simp] theorem State.emit_allKnown (e : Event) (rs : List RegIx) : (s.emit e).allKnown rs = s.allKnown rs := rfl
@[simp] theorem State.halt_hardwired (c : HaltCause) (r : RegIx) : (s.halt c).hardwired r = s.hardwired r := rfl
@[simp] theorem State.halt_readReg (c : HaltCause) (r : RegIx) : (s.halt c).readReg r = s.readReg r := rfl
@[simp] theorem State.halt_known (c : HaltCause) (r : RegIx) : (s.halt c).known r = s.known r := rfl
@[simp] theorem State.halt_peek (c : HaltCause) (a : Word) : (s.halt c).peek a = s.peek a := rfl
@[simp] theorem State.halt_region (c : HaltCause) (a : Word) : (s.halt c).region a = s.region a := rfl
@[simp] theorem State.halt_allKnown (c : HaltCause) (rs : List RegIx) : (s.halt c).allKnown rs = s.allKnown rs := rfl
@[simp] theorem State.complete_hardwired (t : Word) (r : RegIx) : (s.complete t).hardwired r = s.hardwired r := rfl
@[simp] theorem State.complete_readReg (t : Word) (r : RegIx) : (s.complete t).readReg r = s.readReg r := rfl
@[simp] theorem State.complete_known (t : Word) (r : RegIx) : (s.complete t).known r = s.known r := rfl
@[simp] theorem State.complete_peek (t : Word) (a : Word) : (s.complete t).peek a = s.peek a := rfl
@[simp] theorem State.complete_region (t : Word) (a : Word) : (s.complete t).region a = s.region a := rfl
@[simp] theorem State.complete_allKnown (t : Word) (rs : List RegIx) : (s.complete t).allKnown rs = s.allKnown rs := rfl
@[simp] theorem State.setIr_hardwired (w : Word) (r : RegIx) : (s.setIr w).hardwired r = s.hardwired r := rfl
@[simp] theorem State.setIr_readReg (w : Word) (r : RegIx) : (s.setIr w).readReg r = s.readReg r := rfl
@[simp] theorem State.setIr_known (w : Word) (r : RegIx) : (s.setIr w).known r = s.known r := rfl
@[simp] theorem State.setIr_peek (w : Word) (a : Word) : (s.setIr w).peek a = s.peek a := rfl
@[simp] theorem State.setIr_region (w : Word) (a : Word) : (s.setIr w).region a = s.region a := rfl
@[simp] theorem State.setIr_allKnown (w : Word) (rs : List RegIx) : (s.setIr w).allKnown rs = s.allKnown rs := rfl
@[simp] theorem State.setX86Flags_hardwired (f : X86Flags) (r : RegIx) : (s.setX86Flags f).hardwired r = s.hardwired r := rfl
@[simp] theorem State.setX86Flags_readReg (f : X86Flags) (r : RegIx) : (s.setX86Flags f).readReg r = s.readReg r := rfl
@[simp] theorem State.setX86Flags_known (f : X86Flags) (r : RegIx) : (s.setX86Flags f).known r = s.known r := rfl
@[simp] theorem State.setX86Flags_peek (f : X86Flags) (a : Word) : (s.setX86Flags f).peek a = s.peek a := rfl
@[simp] theorem State.setX86Flags_region (f : X86Flags) (a : Word) : (s.setX86Flags f).region a = s.region a := rfl
@[simp] theorem State.setX86Flags_allKnown (f : X86Flags) (rs : List RegIx) : (s.setX86Flags f).allKnown rs = s.allKnown rs := rfl
@[simp] theorem State.writeReg_hardwired (r : RegIx) (w : Word) (q : RegIx) : (s.writeReg r w).hardwired q = s.hardwired q := by
  simp [State.hardwired]
@[simp] theorem State.writeReg_peek (r : RegIx) (w : Word) (a : Word) : (s.writeReg r w).peek a = s.peek a := by
  simp [State.peek]
@[simp] theorem State.writeReg_region (r : RegIx) (w : Word) (a : Word) : (s.writeReg r w).region a = s.region a := by
  simp [State.region]

end Sys2Proof.Machine
end

