-- ==== Sys2Proof/Laws/Memory.lean ====
section
/-! SUPPORT. The laws of memory contents: a read after a write, and the canonical form. -/

namespace Sys2Proof.Machine

/-! ### Canonical form as a proposition -/

theorem Memory.wf_iff (m : Memory) :
    m.wf = true ↔ m.Pairwise (fun c d => c.1 < d.1) ∧ ∀ c ∈ m, c.2 ≠ 0 := by
  simp [Memory.wf]

theorem Memory.wf_nil : Memory.wf [] = true := by decide

theorem Memory.wf_cons (c : Host.Cell) (m : Memory) :
    Memory.wf (c :: m) = true ↔ (∀ d ∈ m, c.1 < d.1) ∧ c.2 ≠ 0 ∧ m.wf = true := by
  simp only [Memory.wf_iff, List.pairwise_cons, List.mem_cons, forall_eq_or_imp]
  tauto

/-! ### Reading what was written -/

theorem Memory.read_cons (c : Host.Cell) (m : Memory) (a : Nat) :
    Memory.read (c :: m) a = if c.1 = a then c.2 else Memory.read m a := rfl

theorem Memory.read_of_lt (m : Memory) (a : Nat) (h : ∀ c ∈ m, a < c.1) : m.read a = 0 := by
  induction m with
  | nil => rfl
  | cons c m ih =>
    have hc := h c (by simp)
    rw [Memory.read_cons, if_neg (by omega)]
    exact ih (fun d hd => h d (by simp [hd]))

/-- Reading after a write, in a canonical memory. -/
theorem Memory.read_write (m : Memory) (a a' : Nat) (b : Byte) (h : m.wf = true) :
    (m.write a b).read a' = if a' = a then b else m.read a' := by
  induction m with
  | nil =>
    unfold Memory.write
    split_ifs with hb ha ha
    · exact hb.symm
    · rfl
    · simp [Memory.read_cons, ha]
    · rw [Memory.read_cons, if_neg (fun e => ha e.symm)]
  | cons c m ih =>
    obtain ⟨hlt, -, hm⟩ := (Memory.wf_cons c m).1 h
    have hgone : ∀ n ≤ c.1, Memory.read m n = 0 := fun n hn =>
      Memory.read_of_lt m n (fun d hd => lt_of_le_of_lt hn (hlt d hd))
    have hself := hgone c.1 le_rfl
    by_cases h1 : a < c.1
    · have := hgone a (by omega)
      by_cases h2 : b = 0 <;> simp only [Memory.write, h1, h2, if_true, if_false, Memory.read_cons] <;> grind
    · by_cases h3 : a = c.1
      · by_cases h4 : b = 0 <;>
          simp only [Memory.write, h3, h4, lt_irrefl, if_true, if_false, Memory.read_cons] <;> grind
      · simp only [Memory.write, h1, h3, if_false, Memory.read_cons, ih hm]
        grind

/-- A write lists no cell but the written one and those listed before. -/
theorem Memory.mem_write (m : Memory) (a : Nat) (b : Byte) :
    ∀ c ∈ m.write a b, c = (a, b) ∨ c ∈ m := by
  induction m with
  | nil => intro c; unfold Memory.write; split_ifs <;> simp
  | cons d m ih =>
    intro c
    unfold Memory.write
    split_ifs <;> simp only [List.mem_cons]
    · tauto
    · tauto
    · tauto
    · tauto
    · rintro (h | h)
      · tauto
      · rcases ih c h with h | h <;> tauto

/-- A write keeps the canonical form. -/
theorem Memory.wf_write (m : Memory) (a : Nat) (b : Byte) (h : m.wf = true) :
    (m.write a b).wf = true := by
  induction m with
  | nil => unfold Memory.write; split_ifs with hb <;> simp_all [Memory.wf_cons, Memory.wf_nil]
  | cons c m ih =>
    have hc := (Memory.wf_cons c m).1 h
    unfold Memory.write
    split_ifs with h1 h2 h3 h4
    · exact h
    · refine (Memory.wf_cons _ _).2 ⟨?_, h2, h⟩
      intro d hd
      rcases List.mem_cons.1 hd with rfl | hd
      · exact h1
      · exact lt_trans h1 (hc.1 d hd)
    · exact hc.2.2
    · exact (Memory.wf_cons _ _).2 ⟨fun d hd => h3 ▸ hc.1 d hd, h4, hc.2.2⟩
    · refine (Memory.wf_cons _ _).2 ⟨?_, hc.2.1, ih hc.2.2⟩
      intro d hd
      rcases Memory.mem_write m a b d hd with rfl | hd
      · simp only; omega
      · exact hc.1 d hd

/-- The bytes written by several writes in a row keep the canonical form. -/
theorem Memory.wf_writeBytes (bs : List Byte) (m : Memory) (a : Nat) (h : m.wf = true) :
    (m.writeBytes a bs).wf = true := by
  induction bs generalizing m a with
  | nil => exact h
  | cons b bs ih => exact ih _ _ (Memory.wf_write m a b h)

/-! ### The memory of an image -/

theorem Memory.mem_ofImage (bs : List Byte) (a : Nat) :
    ∀ c ∈ Memory.ofImage a bs, a ≤ c.1 ∧ c.1 < a + bs.length := by
  induction bs generalizing a with
  | nil => intro c hc; simp [Memory.ofImage] at hc
  | cons b bs ih =>
    intro c hc
    unfold Memory.ofImage at hc
    have := ih (a + 1) c
    split_ifs at hc
    · have := this hc; simp only [List.length_cons]; omega
    · rcases List.mem_cons.1 hc with rfl | hc
      · simp
      · have := this hc; simp only [List.length_cons]; omega

theorem Memory.wf_ofImage (bs : List Byte) (a : Nat) : (Memory.ofImage a bs).wf = true := by
  induction bs generalizing a with
  | nil => exact Memory.wf_nil
  | cons b bs ih =>
    unfold Memory.ofImage
    split_ifs with hb
    · exact ih _
    · refine (Memory.wf_cons _ _).2 ⟨?_, hb, ih _⟩
      intro d hd
      have := Memory.mem_ofImage bs (a + 1) d hd
      simp only; omega

/-- What the memory of an image holds: its bytes from `a` on, 0 elsewhere (70_reset R150). -/
theorem Memory.read_ofImage (bs : List Byte) (a n : Nat) :
    (Memory.ofImage a bs).read n = if a ≤ n then (bs[n - a]?).getD 0 else 0 := by
  induction bs generalizing a with
  | nil => simp [Memory.ofImage, Memory.read]
  | cons b bs ih =>
    unfold Memory.ofImage
    rcases Nat.lt_trichotomy n a with h | h | h
    · have h0 : (Memory.ofImage (a + 1) bs).read n = 0 := by rw [ih]; simp; omega
      split_ifs <;> simp_all [Memory.read] <;> omega
    · subst h
      have h0 : (Memory.ofImage (n + 1) bs).read n = 0 := by rw [ih]; simp
      split_ifs <;> simp_all [Memory.read]
    · obtain ⟨k, rfl⟩ := Nat.exists_eq_add_of_lt h
      have e : a + k + 1 - a = k + 1 := by omega
      have e2 : a + k + 1 - (a + 1) = k := by omega
      have : (Memory.ofImage (a + 1) bs).read (a + k + 1) = (bs[k]?).getD 0 := by
        rw [ih, if_pos (by omega : a + 1 ≤ a + k + 1), e2]
      rw [if_pos (by omega : a ≤ a + k + 1), e, List.getElem?_cons_succ, ← this]
      split_ifs
      · rfl
      · rw [Memory.read_cons, if_neg (by simp only; omega)]

end Sys2Proof.Machine
end

