-- ==== Sys2Proof/Laws/Registers.lean ====
section
/-! SUPPORT. The laws of the register file: what a write changes and what it leaves. -/

namespace Sys2Proof.Machine

variable (s : State)

theorem State.hardwired_iff (r : RegIx) :
    s.hardwired r = true ↔ s.cfg.isa = .mips ∧ s.cfg.r0Hardwired = true ∧ r = 0 := by
  simp [State.hardwired, and_assoc]

/-- A write to a hardwired register does nothing (10_state R15). -/
theorem State.writeReg_of_hardwired (d : RegIx) (v : Word) (h : s.hardwired d = true) :
    s.writeReg d v = s := by
  simp [State.writeReg, h]

/-- A cell of the file after a register write. -/
theorem State.writeReg_cell (d r : RegIx) (v : Word) :
    (s.writeReg d v).x.get r.toFin
      = if r = d ∧ s.hardwired d = false then v else s.x.get r.toFin := by
  by_cases hd : s.hardwired d = true
  · simp [State.writeReg_of_hardwired, hd]
  · have hne : r ≠ d → d.toNat ≠ r.toNat := fun h e => h (BitVec.eq_of_toNat_eq e.symm)
    by_cases hrd : r = d <;> simp_all [State.writeReg, Vector.get_eq_getElem]

/-- What a register reads after a register write (10_state R15). -/
theorem State.readReg_writeReg (d r : RegIx) (v : Word) :
    (s.writeReg d v).readReg r = if r = d ∧ s.hardwired d = false then v else s.readReg r := by
  unfold State.readReg
  rw [State.writeReg_hardwired, State.writeReg_cell]
  grind

/-- Which registers have a value after a register write (10_state R28). -/
theorem State.known_writeReg (d r : RegIx) (v : Word) :
    (s.writeReg d v).known r = (s.known r || r == d) := by
  by_cases hd : s.hardwired d = true
  · rw [State.writeReg_of_hardwired _ _ _ hd]
    by_cases hrd : r = d
    · subst hrd; simp [State.known, hd]
    · simp [hrd]
  · have hne : r ≠ d → d.toNat ≠ r.toNat := fun h e => h (BitVec.eq_of_toNat_eq e.symm)
    unfold State.known
    rw [State.writeReg_hardwired, State.writeReg_cfg]
    cases hz : s.cfg.regReset
    · simp
    · by_cases hrd : r = d <;> simp_all [State.writeReg, Vector.get_eq_getElem]

theorem State.onlyRegWritten_writeReg (d : RegIx) (v : Word) :
    OnlyRegWritten s (s.writeReg d v) d v :=
  ⟨fun r => s.readReg_writeReg d r v, fun r => s.known_writeReg d r v⟩

/-- A register write and the end of the instruction change nothing else (40_cycle R74). -/
theorem State.writesReg_complete (d : RegIx) (v t : Word) :
    WritesReg s ((s.writeReg d v).complete t) d v t := by
  refine ⟨s.onlyRegWritten_writeReg d v, ⟨rfl, ?_, rfl⟩, ?_, ⟨?_, ?_, fun a => ?_⟩,
    ⟨?_, ?_, ?_, ?_, ?_⟩, ?_, ?_, ?_⟩ <;> simp [State.complete, State.peek]

/-- The end of an instruction alone changes nothing else (40_cycle R74). -/
theorem State.onlyJumps_complete (t : Word) : OnlyJumps s (s.complete t) t :=
  ⟨⟨fun _ => rfl, fun _ => rfl⟩, ⟨rfl, rfl, rfl⟩, rfl, ⟨rfl, rfl, fun _ => rfl⟩,
    ⟨rfl, rfl, rfl, rfl, rfl⟩, rfl, rfl, rfl⟩

/-- The written set changes only under `REG_RESET = unknown` (10_state R12). -/
theorem State.writeReg_written_of_zero (d : RegIx) (v : Word) (h : s.cfg.regReset = .zero) :
    (s.writeReg d v).written = s.written := by
  unfold State.writeReg; split <;> simp [h]

end Sys2Proof.Machine
end

