-- ==== Sys2Proof/Laws/Bus.lean ====
section
/-! SUPPORT. What the bus accesses can do: reads only log and draw, writes reach RAM, the MMIO registers and
the trace. -/

namespace Sys2Proof.Machine

/-! ### Reads -/

theorem OnlyReads.refl (s : State) : OnlyReads s s := ⟨[], 0, by simp⟩

theorem OnlyReads.trans {s t u : State} (h : OnlyReads s t) (k : OnlyReads t u) : OnlyReads s u := by
  obtain ⟨as, n, rfl⟩ := h
  obtain ⟨bs, m, rfl⟩ := k
  exact ⟨as ++ bs, n + m, by simp [Nat.add_assoc]⟩

/-- The region of an address with the bases written out (20_memory R30). -/
theorem State.region_eq (s : State) (a : Word) :
    s.region a =
      if a.toNat < s.romLen then .rom a.toNat
      else if 0x80000000 ≤ a.toNat ∧ a.toNat < 0x80000000 + s.ramLen then .ram (a.toNat - 0x80000000)
      else if 0xF0000000 ≤ a.toNat then .io (a.toNat - 0xF0000000)
      else .unmapped := by
  unfold State.region romBase ramBase ioBase
  split_ifs <;> first | rfl | omega

/-- An address is RAM when it lies in RAM and not in ROM (20_memory R30). -/
theorem State.isRam_iff (s : State) (a : Word) :
    s.isRam a = true
      ↔ s.romLen ≤ a.toNat ∧ 0x80000000 ≤ a.toNat ∧ a.toNat < 0x80000000 + s.ramLen := by
  unfold State.isRam
  rw [s.region_eq]
  split_ifs <;> simp <;> omega

/-- A byte read changes the trace and the draw counter at most (20_memory R34, R42). -/
theorem State.readByte_onlyReads (s : State) (a : Word) : OnlyReads s (s.readByte a).2 := by
  unfold State.readByte
  split
  · exact .refl s
  · exact .refl s
  · unfold State.ioReadByte
    split <;> first | exact .refl s | exact ⟨[], 1, by simp⟩
  · exact ⟨[a], 0, rfl⟩

theorem State.readWord_onlyReads (s : State) (a : Word) : OnlyReads s (s.readWord a).2 :=
  (s.readByte_onlyReads a).trans <| (State.readByte_onlyReads _ _).trans <|
    (State.readByte_onlyReads _ _).trans (State.readByte_onlyReads _ _)

theorem State.readString_onlyReads (n : Nat) (s : State) (a : Word) :
    OnlyReads s (State.readString n s a).2 := by
  induction n generalizing s a with
  | zero => exact .refl s
  | succ n ih =>
    unfold State.readString
    simp only
    split
    · exact s.readByte_onlyReads a
    · exact (s.readByte_onlyReads a).trans (ih _ _)

/-- Reads leave the region of every address and the contents of memory as they are. -/
theorem OnlyReads.region {s t : State} (h : OnlyReads s t) (a : Word) : t.region a = s.region a := by
  obtain ⟨as, n, rfl⟩ := h; rfl

theorem OnlyReads.peek {s t : State} (h : OnlyReads s t) (a : Word) : t.peek a = s.peek a := by
  obtain ⟨as, n, rfl⟩ := h; rfl

theorem OnlyReads.cfg {s t : State} (h : OnlyReads s t) : t.cfg = s.cfg := by
  obtain ⟨as, n, rfl⟩ := h; rfl

theorem OnlyReads.pc {s t : State} (h : OnlyReads s t) : t.pc = s.pc := by
  obtain ⟨as, n, rfl⟩ := h; rfl

/-- A byte of ROM or RAM reads as what memory holds, with no effect (20_memory R34). -/
theorem State.readByte_stored (s : State) (a : Word)
    (h : (∃ o, s.region a = .rom o) ∨ ∃ o, s.region a = .ram o) : s.readByte a = (s.peek a, s) := by
  unfold State.readByte
  rcases h with ⟨o, h⟩ | ⟨o, h⟩ <;> rw [h]

theorem State.readByte_unmapped (s : State) (a : Word) (h : s.region a = .unmapped) :
    s.readByte a = (0xFF, s.emit (.busFault .read a)) := by
  unfold State.readByte; rw [h]; rfl

/-- A word of four bytes of ROM or RAM is read with no effect (20_memory R36). -/
theorem State.readWord_stored (s : State) (a : Word)
    (h : ∀ k : Fin 4, (∃ o, s.region (a + BitVec.ofNat 32 k) = .rom o)
      ∨ ∃ o, s.region (a + BitVec.ofNat 32 k) = .ram o) :
    s.readWord a
      = (wordOfBytes (s.peek a) (s.peek (a + 1)) (s.peek (a + 2)) (s.peek (a + 3)), s) := by
  have h0 := h 0
  have h1 : _ ∨ _ := h 1
  have h2 : _ ∨ _ := h 2
  have h3 : _ ∨ _ := h 3
  rw [show a + BitVec.ofNat 32 ((0 : Fin 4) : Nat) = a by simp] at h0
  rw [show a + BitVec.ofNat 32 ((1 : Fin 4) : Nat) = a + 1 from rfl] at h1
  rw [show a + BitVec.ofNat 32 ((2 : Fin 4) : Nat) = a + 2 from rfl] at h2
  rw [show a + BitVec.ofNat 32 ((3 : Fin 4) : Nat) = a + 3 from rfl] at h3
  unfold State.readWord
  simp only [s.readByte_stored a h0, s.readByte_stored _ h1, s.readByte_stored _ h2,
    s.readByte_stored _ h3]

/-- A word of four unmapped bytes reads as `0xFFFFFFFF` and logs each of them (20_memory R34, R36). -/
theorem State.readWord_unmapped (s : State) (a : Word)
    (h : ∀ k : Fin 4, s.region (a + BitVec.ofNat 32 k) = .unmapped) :
    s.readWord a = (0xFFFFFFFF, (((s.emit (.busFault .read a)).emit (.busFault .read (a + 1))).emit
      (.busFault .read (a + 2))).emit (.busFault .read (a + 3))) := by
  have h0 := h 0
  rw [show a + BitVec.ofNat 32 ((0 : Fin 4) : Nat) = a by simp] at h0
  have h1 : s.region (a + 1) = _ := h 1
  have h2 : s.region (a + 2) = _ := h 2
  have h3 : s.region (a + 3) = _ := h 3
  have logged : ∀ (u : State) (b : Word), OnlyReads s u → s.region b = .unmapped →
      u.readByte b = (0xFF, u.emit (.busFault .read b)) ∧ OnlyReads s (u.emit (.busFault .read b)) :=
    fun u b hu hb =>
      ⟨u.readByte_unmapped b (by rw [hu.region, hb]), hu.trans ⟨[b], 0, rfl⟩⟩
  obtain ⟨e0, k0⟩ := logged s a (.refl s) h0
  obtain ⟨e1, k1⟩ := logged _ _ k0 h1
  obtain ⟨e2, k2⟩ := logged _ _ k1 h2
  obtain ⟨e3, -⟩ := logged _ _ k2 h3
  unfold State.readWord
  simp only [e0, e1, e2, e3]
  rfl

/-! ### Writes -/

/-- A byte write changes memory, the MMIO registers and the trace at most: memory only in RAM
(20_memory R35, R43). -/
theorem State.writeByte_effect (s : State) (a : Word) (v : Byte) :
    ∃ io evs, s.writeByte a v
      = { s with mem := if s.isRam a = true then s.mem.write a.toNat v else s.mem,
                 io := io, trace := s.trace ++ evs } := by
  have keep : ∀ (io : IoRegs) (evs : List Event), s.isRam a = false →
      ({ s with io := io, trace := s.trace ++ evs } : State)
        = { s with mem := if s.isRam a = true then s.mem.write a.toNat v else s.mem,
                   io := io, trace := s.trace ++ evs } := by
    intro io evs h; simp [h]
  unfold State.writeByte
  split
  · exact ⟨s.io, [_], keep _ _ (by simp [State.isRam, *])⟩
  · exact ⟨s.io, [], by simp [State.isRam, *]⟩
  · have hr : s.isRam a = false := by simp [State.isRam, *]
    have same := keep s.io [] hr
    rw [List.append_nil] at same
    unfold State.ioWriteByte
    split
    · split
      · exact ⟨s.io, [_], keep _ _ hr⟩
      · exact ⟨s.io, [], by rw [List.append_nil]; exact same⟩
    all_goals first
      | exact ⟨s.io, [_], keep _ _ hr⟩
      | exact ⟨_, [], by rw [← keep _ _ hr, List.append_nil]⟩
  · exact ⟨s.io, [_], keep _ _ (by simp [State.isRam, *])⟩

@[simp] theorem State.writeByte_region (s : State) (a b : Word) (v : Byte) :
    (s.writeByte a v).region b = s.region b := by
  obtain ⟨io, evs, h⟩ := s.writeByte_effect a v; rw [h]; rfl

@[simp] theorem State.writeByte_isRam (s : State) (a b : Word) (v : Byte) :
    (s.writeByte a v).isRam b = s.isRam b := by simp [State.isRam]

theorem State.writeByte_memWf (s : State) (a : Word) (v : Byte) (h : s.mem.wf = true) :
    (s.writeByte a v).mem.wf = true := by
  obtain ⟨io, evs, e⟩ := s.writeByte_effect a v
  rw [e]; simp only
  split
  · exact Memory.wf_write _ _ _ h
  · exact h

/-- What memory holds after a byte write: the byte, if it went to RAM (20_memory R35). -/
theorem State.writeByte_peek (s : State) (a b : Word) (v : Byte) (h : s.mem.wf = true) :
    (s.writeByte a v).peek b = if b = a ∧ s.isRam a = true then v else s.peek b := by
  obtain ⟨io, evs, e⟩ := s.writeByte_effect a v
  rw [e]; simp only [State.peek]
  by_cases hr : s.isRam a = true
  · rw [if_pos hr, Memory.read_write _ _ _ _ h]
    by_cases hb : b = a
    · subst hb; simp [hr]
    · have : b.toNat ≠ a.toNat := fun e => hb (BitVec.eq_of_toNat_eq e)
      simp [hb, this]
  · simp [hr]

theorem OnlyWrites.trans {s t u : State} (h : OnlyWrites s t) (k : OnlyWrites t u) :
    OnlyWrites s u := by
  obtain ⟨m, io, e, rfl⟩ := h
  obtain ⟨m', io', e', rfl⟩ := k
  exact ⟨m', io', e ++ e', by simp⟩

theorem State.writeByte_onlyWrites (s : State) (a : Word) (v : Byte) :
    OnlyWrites s (s.writeByte a v) := by
  obtain ⟨io, evs, h⟩ := s.writeByte_effect a v
  exact ⟨_, io, evs, h⟩

/-- A word write changes memory, the MMIO registers and the trace at most. -/
theorem State.writeWord_onlyWrites (s : State) (a v : Word) : OnlyWrites s (s.writeWord a v) :=
  (s.writeByte_onlyWrites a _).trans <| (State.writeByte_onlyWrites _ _ _).trans <|
    (State.writeByte_onlyWrites _ _ _).trans (State.writeByte_onlyWrites _ _ _)

/-- Writes leave the region of every address as it is. -/
theorem OnlyWrites.region {s t : State} (h : OnlyWrites s t) (a : Word) : t.region a = s.region a := by
  obtain ⟨m, io, evs, rfl⟩ := h; rfl

/-- The range of a RAM address (20_memory R30). -/
theorem State.isRam_range (s : State) (a : Word) (h : s.isRam a = true) :
    ramBase ≤ a.toNat ∧ a.toNat < ramBase + s.ramLen := by
  unfold State.isRam State.region at h
  split_ifs at h
  assumption

/-- Every listed byte after a byte write was listed before, or lies in RAM. -/
theorem State.writeByte_cells (s : State) (a : Word) (v : Byte) :
    ∀ c ∈ (s.writeByte a v).mem, c ∈ s.mem ∨ (ramBase ≤ c.1 ∧ c.1 < ramBase + s.ramLen) := by
  intro c hc
  obtain ⟨io, evs, e⟩ := s.writeByte_effect a v
  rw [e] at hc; simp only at hc
  split at hc
  · rcases Memory.mem_write _ _ _ c hc with rfl | hc
    · exact .inr (s.isRam_range a ‹_›)
    · exact .inl hc
  · exact .inl hc

theorem OnlyWrites.ramLen {s t : State} (h : OnlyWrites s t) : t.ramLen = s.ramLen := by
  obtain ⟨m, io, evs, rfl⟩ := h; rfl

/-- Every listed byte after a word write was listed before, or lies in RAM. -/
theorem State.writeWord_cells (s : State) (a v : Word) :
    ∀ c ∈ (s.writeWord a v).mem, c ∈ s.mem ∨ (ramBase ≤ c.1 ∧ c.1 < ramBase + s.ramLen) := by
  intro c hc
  have h0 := s.writeByte_onlyWrites a (byteOfWord v 0)
  have h1 := h0.trans (State.writeByte_onlyWrites _ (a + 1) (byteOfWord v 1))
  have h2 := h1.trans (State.writeByte_onlyWrites _ (a + 2) (byteOfWord v 2))
  rcases State.writeByte_cells _ _ _ c hc with hc | hc
  · rcases State.writeByte_cells _ _ _ c hc with hc | hc
    · rcases State.writeByte_cells _ _ _ c hc with hc | hc
      · exact State.writeByte_cells _ _ _ c hc
      · exact .inr (h0.ramLen ▸ hc)
    · exact .inr (h1.ramLen ▸ hc)
  · exact .inr (h2.ramLen ▸ hc)

theorem State.writeWord_memWf (s : State) (a v : Word) (h : s.mem.wf = true) :
    (s.writeWord a v).mem.wf = true :=
  State.writeByte_memWf _ _ _ <| State.writeByte_memWf _ _ _ <| State.writeByte_memWf _ _ _ <|
    State.writeByte_memWf _ _ _ h

/-- What memory holds after a word write: its four bytes, those of them that went to RAM
(20_memory R37). -/
theorem State.writeWord_peek (s : State) (a v b : Word) (h : s.mem.wf = true) :
    (s.writeWord a v).peek b
      = if s.isRam b = true then (storedByte a v b).getD (s.peek b) else s.peek b := by
  have w0 := s.writeByte_memWf a (byteOfWord v 0) h
  have w1 := State.writeByte_memWf _ (a + 1) (byteOfWord v 1) w0
  have w2 := State.writeByte_memWf _ (a + 2) (byteOfWord v 2) w1
  have d1 : a + 1 ≠ a := by bv_omega
  have d2 : a + 2 ≠ a := by bv_omega
  have d3 : a + 3 ≠ a := by bv_omega
  have d4 : a + 2 ≠ a + 1 := by bv_omega
  have d5 : a + 3 ≠ a + 1 := by bv_omega
  have d6 : a + 3 ≠ a + 2 := by bv_omega
  unfold State.writeWord storedByte
  rw [State.writeByte_peek _ _ _ _ w2, State.writeByte_peek _ _ _ _ w1,
    State.writeByte_peek _ _ _ _ w0, State.writeByte_peek _ _ _ _ h]
  simp only [State.writeByte_isRam]
  by_cases e3 : b = a + 3
  · subst e3; simp [*]
  by_cases e2 : b = a + 2
  · subst e2; simp [*]
  by_cases e1 : b = a + 1
  · subst e1; simp [*]
  by_cases e0 : b = a
  · subst e0; simp [*]
  simp only [e0, e1, e2, e3, false_and, if_false, Option.getD_none, ite_self]

end Sys2Proof.Machine
end

