-- ==== Sys2Proof/Laws/Decoding.lean ====
section
/-! SUPPORT. What the decoder answers is an instruction of the instruction set asked for, well-formed. -/

namespace Sys2Proof

theorem decodeRows_ok {rows : List Row} {no : Reject} {w : Word} {i : Instr}
    (h : decodeRows rows no w = .ok i) : ∃ r ∈ rows, rowMatches r w = true ∧ i = r.build w := by
  unfold decodeRows at h
  split at h
  · next r hr =>
    cases h
    exact ⟨r, List.mem_of_find?_eq_some hr, by simpa using List.find?_some hr, rfl⟩
  · cases h

/-- The five steps of ARM class decode, when they end in an instruction (30_encoding R59). -/
theorem decodeArm_ok {w : Word} {i : Instr} (h : decodeArm w = .ok i) :
    (∃ r ∈ armBranchRows, rowMatches r w = true ∧ i = r.build w)
      ∨ ((∃ r ∈ armDataRows, rowMatches r w = true ∧ i = r.build w) ∧ i.wf = true) := by
  unfold decodeArm at h
  split_ifs at h
  · exact .inl (decodeRows_ok h)
  · split at h
    · split_ifs at h
      cases h
      exact .inr ⟨decodeRows_ok ‹_›, ‹_›⟩
    · cases h

theorem decode_isa {isa : Isa} {w : Word} {i : Instr} (h : decode isa w = .ok i) : i.isa = isa := by
  cases isa
  · obtain ⟨r, hr, -, rfl⟩ := decodeRows_ok h
    revert r; simp [mipsRows, Instr.isa]
  · rcases decodeArm_ok h with ⟨r, hr, -, rfl⟩ | ⟨⟨r, hr, -, rfl⟩, -⟩
    · revert r; simp [armBranchRows, Instr.isa]
    · revert r; simp [armDataRows, Instr.isa]
  · obtain ⟨r, hr, -, rfl⟩ := decodeRows_ok h
    revert r; simp [ppcRows, Instr.isa]
  · obtain ⟨r, hr, -, rfl⟩ := decodeRows_ok h
    revert r; simp [x86Rows, Instr.isa]

theorem decode_wf {isa : Isa} {w : Word} {i : Instr} (h : decode isa w = .ok i) : i.wf = true := by
  cases isa
  · obtain ⟨r, hr, -, rfl⟩ := decodeRows_ok h
    revert r; simp [mipsRows, Instr.wf]
  · rcases decodeArm_ok h with ⟨r, hr, -, rfl⟩ | ⟨-, hw⟩
    · revert r; simp [armBranchRows, Instr.wf]
    · exact hw
  · obtain ⟨r, hr, -, rfl⟩ := decodeRows_ok h
    revert r; simp [ppcRows, Instr.wf]
  · obtain ⟨r, hr, -, rfl⟩ := decodeRows_ok h
    revert r; simp [x86Rows, Instr.wf]

end Sys2Proof
end

