-- ==== Sys2Proof/Laws/Encoding.lean ====
section
/-! SUPPORT. Fields placed in a word can be read back and masked one by one. -/

namespace Sys2Proof

theorem field_or (v w : Word) (lo len : Nat) :
    field (v ||| w) lo len = field v lo len ||| field w lo len := by
  apply BitVec.eq_of_getElem_eq; intro i hi; simp [field]

/-- A field is read back from where it was placed. -/
theorem field_place_same {n : Nat} (v : BitVec n) (lo : Nat) (h : lo + n ≤ 32) :
    field (place v lo) lo n = v := by
  apply BitVec.eq_of_getElem_eq; intro i hi
  have h1 : lo + i < 32 := by omega
  simp [field, place, h1, BitVec.getLsbD_eq_getElem hi]

/-- A field is 0 where another one was placed apart from it. -/
theorem field_place_other {n : Nat} (v : BitVec n) (lo lo' len : Nat)
    (h : lo + n ≤ lo' ∨ lo' + len ≤ lo) : field (place v lo) lo' len = 0 := by
  apply BitVec.eq_of_getElem_eq; intro i hi
  simp only [field, place, BitVec.getElem_extractLsb', BitVec.getLsbD_shiftLeft,
    BitVec.getLsbD_setWidth]
  by_cases h1 : lo' + i < lo
  · simp [h1]
  · have : n ≤ lo' + i - lo := by omega
    simp [BitVec.getLsbD_of_ge _ _ this]

/-- Masking a placed field masks the field. -/
theorem place_and {n : Nat} (v : BitVec n) (lo : Nat) (m : Word) :
    place v lo &&& m = place (v &&& field m lo n) lo := by
  apply BitVec.eq_of_getElem_eq; intro i hi
  simp only [field, place, BitVec.getElem_and, BitVec.getElem_shiftLeft]
  by_cases h1 : i < lo
  · simp [h1]
  · simp only [h1]
    by_cases h2 : i - lo < n
    · have : lo + (i - lo) = i := by omega
      simp [h2, this, hi, BitVec.getLsbD_eq_getElem]
    · simp [BitVec.getLsbD_of_ge _ _ (Nat.le_of_not_lt h2)]

theorem or_and_word (a b m : Word) : (a ||| b) &&& m = (a &&& m) ||| (b &&& m) := by
  apply BitVec.eq_of_getElem_eq; intro i hi; simp [Bool.and_or_distrib_right]

@[simp] theorem place_zero (n lo : Nat) : place (0#n) lo = 0#32 := by
  apply BitVec.eq_of_getElem_eq; intro i hi; simp [place]

/-- A byte of a word of four bytes (20_memory R36, R37). -/
theorem byteOfWord_wordOfBytes (b0 b1 b2 b3 : Byte) :
    byteOfWord (wordOfBytes b0 b1 b2 b3) 0 = b0 ∧ byteOfWord (wordOfBytes b0 b1 b2 b3) 1 = b1
      ∧ byteOfWord (wordOfBytes b0 b1 b2 b3) 2 = b2 ∧ byteOfWord (wordOfBytes b0 b1 b2 b3) 3 = b3 := by
  refine ⟨?_, ?_, ?_, ?_⟩ <;>
    simp (disch := omega) only [byteOfWord, wordOfBytes, field_or, Nat.mul_zero, Nat.mul_one,
      Nat.reduceMul, field_place_same, field_place_other] <;> simp

/-- A word is the word of its four bytes (20_memory R36, R37). -/
theorem wordOfBytes_byteOfWord (v : Word) :
    wordOfBytes (byteOfWord v 0) (byteOfWord v 1) (byteOfWord v 2) (byteOfWord v 3) = v := by
  apply BitVec.eq_of_getElem_eq; intro i hi
  simp only [wordOfBytes, byteOfWord, place, field]
  interval_cases i <;> simp

end Sys2Proof
end

