-- ==== Sys2Proof/Laws/Exec.lean ====
section
/-! SUPPORT. Everything an instruction can do, said once: the shared operations, then `exec`. -/

namespace Sys2Proof.Machine

/-- The states an instruction can lead to from `s`: a halt, or a completion after one of seven effects. -/
inductive Does (i : Instr) (s : State) : State → Prop where
  | halts (c : HaltCause) : Does i s (s.halt c)
  | jumps (t : Word) : Does i s (s.complete t)
  | setsReg (d : RegIx) (v t : Word) (hd : i.wf = true → d.toNat < storedRegs i.isa) :
      Does i s ((s.writeReg d v).complete t)
  | setsFlags (f : X86Flags) (d : RegIx) (v t : Word) (hi : i.isa = .x86) (hd : d.toNat < 8) :
      Does i s (((s.setX86Flags f).writeReg d v).complete t)
  | loads (a : Word) (d : RegIx) (t : Word) (hd : i.wf = true → d.toNat < storedRegs i.isa) :
      Does i s (((s.readWord a).2.writeReg d (s.readWord a).1).complete t)
  | stores (a v t : Word) : Does i s ((s.writeWord a v).complete t)
  | printsInt (n : Int) (t : Word) : Does i s ((s.emit (.outInt n)).complete t)
  | printsText (n : Nat) (a t : Word) :
      Does i s (((State.readString n s a).2.emit (.outText (State.readString n s a).1)).complete t)

/-- A result is one of these next states. -/
def Answers (i : Instr) (s : State) (r : Result) : Prop := ∃ t, r = .next t ∧ Does i s t

theorem Answers.next {i : Instr} {s t : State} (h : Does i s t) : Answers i s (.next t) := ⟨t, rfl, h⟩

/-! ### The shared operations -/

theorem State.reading_of_known (s : State) (rs : List RegIx) (k : Result) (h : s.allKnown rs = true) :
    s.reading rs k = k := by simp [State.reading, h]

/-- A register without a value halts the core (10_state R28). -/
theorem State.reading_of_unknown (s : State) (rs : List RegIx) (k : Result)
    (h : s.allKnown rs = false) : s.reading rs k = .next (s.halt (.unmodelled s.pc s.ir)) := by
  simp [State.reading, h]

theorem Answers.reading {i : Instr} {s : State} {rs : List RegIx} {k : Result} (h : Answers i s k) :
    Answers i s (s.reading rs k) := by
  unfold State.reading
  split
  · exact h
  · exact .next (.halts _)

theorem Answers.aligned {i : Instr} {s : State} {a : Word} {k : Result} (h : Answers i s k) :
    Answers i s (s.aligned a k) := by
  unfold State.aligned
  split
  · exact .next (.halts _)
  · exact h

theorem Answers.setRegister {i : Instr} {s : State} {d : RegIx} {v t : Word}
    (hd : i.wf = true → d.toNat < storedRegs i.isa) : Answers i s (s.setRegister d v t) :=
  .next (.setsReg d v t hd)

theorem Answers.setChecked {i : Instr} {s : State} {o : Bool} {d : RegIx} {v : Word}
    (hd : i.wf = true → d.toNat < storedRegs i.isa) : Answers i s (s.setChecked o d v) := by
  unfold State.setChecked
  split
  · exact .next (.halts _)
  · exact .setRegister hd

/-! ### Register numbers -/

theorem armReg_lt (r : BitVec 4) (h : armRegOk r = true) : (armReg r).toNat < 15 := by
  revert r; decide

theorem x86Reg_lt (r : BitVec 3) : (x86Reg r).toNat < 8 := by
  revert r; decide

/-! ### `exec` -/

/-- Whatever the instruction and the state, `exec` answers one of the states of `Does`. -/
theorem exec_answers (i : Instr) (s : State) : Answers i s (exec i s) := by
  cases i with
  | mipsSll rt rd sa => exact .reading (.setRegister fun _ => rd.isLt)
  | mipsSrl rt rd sa => exact .reading (.setRegister fun _ => rd.isLt)
  | mipsJr rs => exact .reading (.next (.jumps _))
  | mipsSyscall code =>
    refine .reading ?_
    split
    · exact .reading (.next (.printsInt _ _))
    · split
      · exact .reading (.next (.printsText _ _ _))
      · exact .next (.halts _)
  | mipsAdd rs rt rd => exact .reading (.setChecked fun _ => rd.isLt)
  | mipsSub rs rt rd => exact .reading (.setChecked fun _ => rd.isLt)
  | mipsAnd rs rt rd => exact .reading (.setRegister fun _ => rd.isLt)
  | mipsOr rs rt rd => exact .reading (.setRegister fun _ => rd.isLt)
  | mipsNor rs rt rd => exact .reading (.setRegister fun _ => rd.isLt)
  | mipsBeq rs rt imm => exact .reading (.next (.jumps _))
  | mipsBne rs rt imm => exact .reading (.next (.jumps _))
  | mipsAddi rs rt imm => exact .reading (.setChecked fun _ => rt.isLt)
  | mipsAndi rs rt imm => exact .reading (.setRegister fun _ => rt.isLt)
  | mipsOri rs rt imm => exact .reading (.setRegister fun _ => rt.isLt)
  | mipsXori rs rt imm => exact .reading (.setRegister fun _ => rt.isLt)
  | mipsLw rs rt imm => exact .reading (.aligned (.next (.loads _ _ _ fun _ => rt.isLt)))
  | mipsSw rs rt imm => exact .reading (.aligned (.next (.stores _ _ _)))
  | armAddImm rn rd rot imm8 =>
    exact .reading (.setRegister fun h => armReg_lt rd (by simp_all [Instr.wf]))
  | armAddReg rn rd rm =>
    exact .reading (.setRegister fun h => armReg_lt rd (by simp_all [Instr.wf]))
  | armSubImm rn rd rot imm8 =>
    exact .reading (.setRegister fun h => armReg_lt rd (by simp_all [Instr.wf]))
  | armSubReg rn rd rm =>
    exact .reading (.setRegister fun h => armReg_lt rd (by simp_all [Instr.wf]))
  | armMovImm rd rot imm8 => exact .setRegister fun h => armReg_lt rd h
  | armMovReg rd rm =>
    exact .reading (.setRegister fun h => armReg_lt rd (by simp_all [Instr.wf]))
  | armB imm24 => exact .next (.jumps _)
  | armBl imm24 => exact .setRegister fun _ => (by decide : (14 : Nat) < 15)
  | ppcAddi rD rA simm => exact .reading (.setRegister fun _ => rD.isLt)
  | ppcSubf rD rA rB => exact .reading (.setRegister fun _ => rD.isLt)
  | ppcAdd rD rA rB => exact .reading (.setRegister fun _ => rD.isLt)
  | ppcOr rS rA rB => exact .reading (.setRegister fun _ => rA.isLt)
  | x86Add reg rm => exact .reading (.next (.setsFlags _ _ _ _ rfl (x86Reg_lt rm)))
  | x86Sub reg rm => exact .reading (.next (.setsFlags _ _ _ _ rfl (x86Reg_lt rm)))
  | x86Mov reg rm => exact .reading (.setRegister fun _ => x86Reg_lt rm)

end Sys2Proof.Machine
end

