-- ==== Sys2Proof/Laws/PerInstr.lean ====
section
/-! SUPPORT. One lemma per instruction: its encoding has the fixed fields of its own row of the opcode maps,
and that row reads the instruction back from it. -/

namespace Sys2Proof.Laws.EncodesRow

/-- The rows of an instruction set's opcode map. -/
def rowsOf : Isa → List Row
  | .mips => mipsRows
  | .arm => armBranchRows ++ armDataRows
  | .powerPc => ppcRows
  | .x86 => x86Rows

/-- The encoding of `i` matches a row of its map, and the row builds `i` from it. -/
def Statement (i : Instr) : Prop :=
  ∃ r ∈ rowsOf i.isa, rowMatches r (encodeWord i) = true ∧ r.build (encodeWord i) = i

/-- The statement from the row's position in the map, its fixed fields and its operand fields. -/
theorem of_row (i : Instr) (n : Nat) (r : Row) (h : (rowsOf i.isa)[n]? = some r)
    (hm : encodeWord i &&& r.mask = r.pat) (hb : r.build (encodeWord i) = i) : Statement i :=
  ⟨r, List.mem_of_getElem? h, by simp [rowMatches, hm], hb⟩

theorem mipsSll (rt rd sa : BitVec 5) : Statement (.mipsSll rt rd sa) :=
  of_row _ 0 _ rfl
    (by simp only [encodeWord, mipsR, or_and_word, place_and]; simp [field])
    (by simp (disch := omega) [encodeWord, mipsR, field_or, field_place_same, field_place_other])

theorem mipsSrl (rt rd sa : BitVec 5) : Statement (.mipsSrl rt rd sa) :=
  of_row _ 1 _ rfl
    (by simp only [encodeWord, mipsR, or_and_word, place_and]; simp [field]; rfl)
    (by simp (disch := omega) [encodeWord, mipsR, field_or, field_place_same, field_place_other])

theorem mipsJr (rs : BitVec 5) : Statement (.mipsJr rs) :=
  of_row _ 2 _ rfl
    (by simp only [encodeWord, mipsR, or_and_word, place_and]; simp [field]; rfl)
    (by simp (disch := omega) [encodeWord, mipsR, field_or, field_place_same, field_place_other])

theorem mipsSyscall (code : BitVec 20) : Statement (.mipsSyscall code) :=
  of_row _ 3 _ rfl
    (by simp only [encodeWord, or_and_word, place_and]; simp [field]; rfl)
    (by simp (disch := omega) [encodeWord, field_or, field_place_same, field_place_other])

theorem mipsAdd (rs rt rd : BitVec 5) : Statement (.mipsAdd rs rt rd) :=
  of_row _ 4 _ rfl
    (by simp only [encodeWord, mipsR, or_and_word, place_and]; simp [field]; rfl)
    (by simp (disch := omega) [encodeWord, mipsR, field_or, field_place_same, field_place_other])

theorem mipsSub (rs rt rd : BitVec 5) : Statement (.mipsSub rs rt rd) :=
  of_row _ 5 _ rfl
    (by simp only [encodeWord, mipsR, or_and_word, place_and]; simp [field]; rfl)
    (by simp (disch := omega) [encodeWord, mipsR, field_or, field_place_same, field_place_other])

theorem mipsAnd (rs rt rd : BitVec 5) : Statement (.mipsAnd rs rt rd) :=
  of_row _ 6 _ rfl
    (by simp only [encodeWord, mipsR, or_and_word, place_and]; simp [field]; rfl)
    (by simp (disch := omega) [encodeWord, mipsR, field_or, field_place_same, field_place_other])

theorem mipsOr (rs rt rd : BitVec 5) : Statement (.mipsOr rs rt rd) :=
  of_row _ 7 _ rfl
    (by simp only [encodeWord, mipsR, or_and_word, place_and]; simp [field]; rfl)
    (by simp (disch := omega) [encodeWord, mipsR, field_or, field_place_same, field_place_other])

theorem mipsNor (rs rt rd : BitVec 5) : Statement (.mipsNor rs rt rd) :=
  of_row _ 8 _ rfl
    (by simp only [encodeWord, mipsR, or_and_word, place_and]; simp [field]; rfl)
    (by simp (disch := omega) [encodeWord, mipsR, field_or, field_place_same, field_place_other])

theorem mipsBeq (rs rt : BitVec 5) (imm : BitVec 16) : Statement (.mipsBeq rs rt imm) :=
  of_row _ 9 _ rfl
    (by simp only [encodeWord, mipsI, or_and_word, place_and]; simp [field]; rfl)
    (by simp (disch := omega) [encodeWord, mipsI, field_or, field_place_same, field_place_other])

theorem mipsBne (rs rt : BitVec 5) (imm : BitVec 16) : Statement (.mipsBne rs rt imm) :=
  of_row _ 10 _ rfl
    (by simp only [encodeWord, mipsI, or_and_word, place_and]; simp [field]; rfl)
    (by simp (disch := omega) [encodeWord, mipsI, field_or, field_place_same, field_place_other])

theorem mipsAddi (rs rt : BitVec 5) (imm : BitVec 16) : Statement (.mipsAddi rs rt imm) :=
  of_row _ 11 _ rfl
    (by simp only [encodeWord, mipsI, or_and_word, place_and]; simp [field]; rfl)
    (by simp (disch := omega) [encodeWord, mipsI, field_or, field_place_same, field_place_other])

theorem mipsAndi (rs rt : BitVec 5) (imm : BitVec 16) : Statement (.mipsAndi rs rt imm) :=
  of_row _ 12 _ rfl
    (by simp only [encodeWord, mipsI, or_and_word, place_and]; simp [field]; rfl)
    (by simp (disch := omega) [encodeWord, mipsI, field_or, field_place_same, field_place_other])

theorem mipsOri (rs rt : BitVec 5) (imm : BitVec 16) : Statement (.mipsOri rs rt imm) :=
  of_row _ 13 _ rfl
    (by simp only [encodeWord, mipsI, or_and_word, place_and]; simp [field]; rfl)
    (by simp (disch := omega) [encodeWord, mipsI, field_or, field_place_same, field_place_other])

theorem mipsXori (rs rt : BitVec 5) (imm : BitVec 16) : Statement (.mipsXori rs rt imm) :=
  of_row _ 14 _ rfl
    (by simp only [encodeWord, mipsI, or_and_word, place_and]; simp [field]; rfl)
    (by simp (disch := omega) [encodeWord, mipsI, field_or, field_place_same, field_place_other])

theorem mipsLw (rs rt : BitVec 5) (imm : BitVec 16) : Statement (.mipsLw rs rt imm) :=
  of_row _ 15 _ rfl
    (by simp only [encodeWord, mipsI, or_and_word, place_and]; simp [field]; rfl)
    (by simp (disch := omega) [encodeWord, mipsI, field_or, field_place_same, field_place_other])

theorem mipsSw (rs rt : BitVec 5) (imm : BitVec 16) : Statement (.mipsSw rs rt imm) :=
  of_row _ 16 _ rfl
    (by simp only [encodeWord, mipsI, or_and_word, place_and]; simp [field]; rfl)
    (by simp (disch := omega) [encodeWord, mipsI, field_or, field_place_same, field_place_other])

theorem armAddImm (rn rd rot : BitVec 4) (imm8 : BitVec 8) : Statement (.armAddImm rn rd rot imm8) :=
  of_row _ 2 _ rfl
    (by simp only [encodeWord, armData, or_and_word, place_and]; simp [field]; rfl)
    (by simp (disch := omega) [encodeWord, armData, field_or, field_place_same, field_place_other])

theorem armAddReg (rn rd rm : BitVec 4) : Statement (.armAddReg rn rd rm) :=
  of_row _ 3 _ rfl
    (by simp only [encodeWord, armData, or_and_word, place_and]; simp [field]; rfl)
    (by simp (disch := omega) [encodeWord, armData, field_or, field_place_same, field_place_other])

theorem armSubImm (rn rd rot : BitVec 4) (imm8 : BitVec 8) : Statement (.armSubImm rn rd rot imm8) :=
  of_row _ 4 _ rfl
    (by simp only [encodeWord, armData, or_and_word, place_and]; simp [field]; rfl)
    (by simp (disch := omega) [encodeWord, armData, field_or, field_place_same, field_place_other])

theorem armSubReg (rn rd rm : BitVec 4) : Statement (.armSubReg rn rd rm) :=
  of_row _ 5 _ rfl
    (by simp only [encodeWord, armData, or_and_word, place_and]; simp [field]; rfl)
    (by simp (disch := omega) [encodeWord, armData, field_or, field_place_same, field_place_other])

theorem armMovImm (rd rot : BitVec 4) (imm8 : BitVec 8) : Statement (.armMovImm rd rot imm8) :=
  of_row _ 6 _ rfl
    (by simp only [encodeWord, armData, or_and_word, place_and]; simp [field]; rfl)
    (by simp (disch := omega) [encodeWord, armData, field_or, field_place_same, field_place_other])

theorem armMovReg (rd rm : BitVec 4) : Statement (.armMovReg rd rm) :=
  of_row _ 7 _ rfl
    (by simp only [encodeWord, armData, or_and_word, place_and]; simp [field]; rfl)
    (by simp (disch := omega) [encodeWord, armData, field_or, field_place_same, field_place_other])

theorem armB (imm24 : BitVec 24) : Statement (.armB imm24) :=
  of_row _ 0 _ rfl
    (by simp only [encodeWord, armBranch, or_and_word, place_and]; simp [field]; rfl)
    (by simp (disch := omega) [encodeWord, armBranch, field_or, field_place_same, field_place_other])

theorem armBl (imm24 : BitVec 24) : Statement (.armBl imm24) :=
  of_row _ 1 _ rfl
    (by simp only [encodeWord, armBranch, or_and_word, place_and]; simp [field]; rfl)
    (by simp (disch := omega) [encodeWord, armBranch, field_or, field_place_same, field_place_other])

theorem ppcAddi (rD rA : BitVec 5) (simm : BitVec 16) : Statement (.ppcAddi rD rA simm) :=
  of_row _ 0 _ rfl
    (by simp only [encodeWord, ppcD, or_and_word, place_and]; simp [field]; rfl)
    (by simp (disch := omega) [encodeWord, ppcD, field_or, field_place_same, field_place_other])

theorem ppcSubf (rD rA rB : BitVec 5) : Statement (.ppcSubf rD rA rB) :=
  of_row _ 1 _ rfl
    (by simp only [encodeWord, ppcXO, or_and_word, place_and]; simp [field]; rfl)
    (by simp (disch := omega) [encodeWord, ppcXO, field_or, field_place_same, field_place_other])

theorem ppcAdd (rD rA rB : BitVec 5) : Statement (.ppcAdd rD rA rB) :=
  of_row _ 2 _ rfl
    (by simp only [encodeWord, ppcXO, or_and_word, place_and]; simp [field]; rfl)
    (by simp (disch := omega) [encodeWord, ppcXO, field_or, field_place_same, field_place_other])

theorem ppcOr (rS rA rB : BitVec 5) : Statement (.ppcOr rS rA rB) :=
  of_row _ 3 _ rfl
    (by simp only [encodeWord, ppcX, or_and_word, place_and]; simp [field]; rfl)
    (by simp (disch := omega) [encodeWord, ppcX, field_or, field_place_same, field_place_other])

theorem x86Add (reg rm : BitVec 3) : Statement (.x86Add reg rm) :=
  of_row _ 0 _ rfl
    (by simp only [encodeWord, x86ModRm, or_and_word, place_and]; simp [field]; rfl)
    (by simp (disch := omega) [encodeWord, x86ModRm, field_or, field_place_same, field_place_other])

theorem x86Sub (reg rm : BitVec 3) : Statement (.x86Sub reg rm) :=
  of_row _ 1 _ rfl
    (by simp only [encodeWord, x86ModRm, or_and_word, place_and]; simp [field]; rfl)
    (by simp (disch := omega) [encodeWord, x86ModRm, field_or, field_place_same, field_place_other])

theorem x86Mov (reg rm : BitVec 3) : Statement (.x86Mov reg rm) :=
  of_row _ 2 _ rfl
    (by simp only [encodeWord, x86ModRm, or_and_word, place_and]; simp [field]; rfl)
    (by simp (disch := omega) [encodeWord, x86ModRm, field_or, field_place_same, field_place_other])

end Sys2Proof.Laws.EncodesRow
end

