-- ==== Sys2Proof/Laws/Step.lean ====
section
/-! SUPPORT. Everything a step can do, said once. -/

namespace Sys2Proof.Machine

theorem State.attempt_idle (s : State) (k : Result) (h : s.status = .idle) :
    s.attempt k = .refused .notLoaded := by simp [State.attempt, h]

theorem State.attempt_halted (s : State) (k : Result) (h : s.status = .halted) :
    s.attempt k = .fault (.halted s.haltCause) := by simp [State.attempt, h]

theorem State.attempt_active (s : State) (k : Result) (h : s.active) :
    s.attempt k = match s.startCause with
      | some c => .next (s.halt c)
      | none => k := by
  unfold State.attempt
  rcases h with h | h <;> simp only [h] <;> rfl

/-- A guarded cycle answers a next state only from an active core: a halt at its start, or what the
cycle answers. -/
theorem State.attempt_next {s t : State} {k : Result} (h : s.attempt k = .next t) :
    s.active ∧ ((∃ c, s.startCause = some c ∧ t = s.halt c) ∨ (s.startCause = none ∧ k = .next t)) := by
  unfold State.attempt at h
  split at h
  · cases h
  · cases h
  all_goals
    refine ⟨by simp [State.active, *], ?_⟩
    split at h
    · cases h; exact .inl ⟨_, ‹_›, rfl⟩
    · exact .inr ⟨‹_›, h⟩

/-- The checks at the start of a cycle find nothing exactly when the core may fetch (40_cycle R74). -/
theorem State.mayFetch_iff (s : State) : s.MayFetch ↔ s.startCause = none := by
  have hs : s.stopDue = false
      ↔ (s.stopRequested = true → s.instructionCount % s.cfg.stopCheckInterval ≠ 0) := by
    simp [State.stopDue]
  have hb : s.budgetSpent = false ↔ ∀ n, s.cfg.cycleBudget = some n → s.instructionCount < n := by
    unfold State.budgetSpent; cases s.cfg.cycleBudget <;> simp
  have hm : s.fetchMisaligned = false
      ↔ (s.cfg.alignCheck = true → s.cfg.isa ≠ .x86 → s.pc.extractLsb' 0 2 = 0#2) := by
    simp [State.fetchMisaligned, misaligned]
  unfold State.MayFetch State.startCause
  rw [← hs, ← hb, ← hm]
  cases s.stopDue <;> cases s.budgetSpent <;> cases s.fetchMisaligned <;> simp

/-- A core that may fetch goes past the guard of its cycle. -/
theorem State.attempt_mayFetch (s : State) (k : Result) (ha : s.active) (hf : s.MayFetch) :
    s.attempt k = k := by
  rw [State.attempt_active s k ha, s.mayFetch_iff.1 hf]

/-- What a decoded or refused word does (40_cycle R74). -/
theorem State.issue_next (s : State) (w : Word) :
    (∃ i t, decode s.cfg.isa w = .ok i ∧ i.isa = s.cfg.isa ∧ i.wf = true
        ∧ s.issue w = .next t ∧ Does i (s.setIr w) t)
      ∨ ((∃ r, decode s.cfg.isa w = .error r)
        ∧ s.issue w = .next ((s.setIr w).halt (.unsupportedOpcode s.pc w))) := by
  unfold State.issue
  cases h : decode s.cfg.isa w with
  | error r => exact .inr ⟨⟨r, rfl⟩, rfl⟩
  | ok i =>
    obtain ⟨t, ht, hd⟩ := exec_answers i (s.setIr w)
    exact .inl ⟨i, t, rfl, decode_isa h, decode_wf h, ht, hd⟩

/-- The three ways a step answers a next state: a halt before the fetch, an instruction, or a halt on a
word that is none. -/
theorem step_next {s t : State} (h : step s = .next t) :
    s.active ∧
      ((∃ c, s.startCause = some c ∧ t = s.halt c)
        ∨ (s.startCause = none ∧
            ((∃ i, decode s.cfg.isa s.fetch.1 = .ok i ∧ i.isa = s.cfg.isa ∧ i.wf = true
                ∧ Does i (s.fetch.2.setIr s.fetch.1) t)
              ∨ t = (s.fetch.2.setIr s.fetch.1).halt (.unsupportedOpcode s.pc s.fetch.1)))) := by
  obtain ⟨ha, h⟩ := State.attempt_next h
  refine ⟨ha, h.imp_right fun ⟨hc, h⟩ => ⟨hc, ?_⟩⟩
  have hr : OnlyReads s s.fetch.2 := s.readWord_onlyReads s.pc
  rcases State.issue_next s.fetch.2 s.fetch.1 with ⟨i, u, hd, hi, hw, he, hu⟩ | ⟨-, he⟩
  · rw [State.fetchAndIssue, he] at h
    cases h
    rw [hr.cfg] at hd hi
    exact .inl ⟨i, hd, hi, hw, hu⟩
  · rw [State.fetchAndIssue, he, hr.pc] at h
    cases h
    exact .inr rfl

end Sys2Proof.Machine
end

