-- ==== Sys2Proof/Tests/Slice0.lean ====
section
/-! SUPPORT. Tests. Expected results are those of spec/95_test_vectors and of the examples in the instruction
rules; the ones named test_witness_ show states and operands that meet a statement's hypotheses. -/

namespace Sys2Proof.Tests

-- one theorem at a time: each runs the kernel, and together they would need too many threads
set_option Elab.async false

open Sys2Proof Sys2Proof.Machine

/-! ### Small states -/

/-- A loaded core with 16 ROM bytes, all 0, and default parameters. -/
def core (isa : Isa) : State :=
  { State.reset with cfg := { isa := isa }, status := .loaded, romLen := 16, ramLen := 0x01000000 }

/-- The same core with `REG_RESET = unknown` and no register written. -/
def unwritten (isa : Isa) : State :=
  { core isa with cfg := { isa := isa, regReset := .unknown } }

/-- The same core with `ALIGN_CHECK = true`. -/
def checked (isa : Isa) : State := { core isa with cfg := { isa := isa, alignCheck := true } }

/-- A core with two registers set. -/
def regs2 (s : State) (r : RegIx) (v : Word) (q : RegIx) (u : Word) : State :=
  (s.writeReg r v).writeReg q u

/-- A core with a word of program at `pc`. -/
def withWord (isa : Isa) (w : Word) : State :=
  { core isa with mem := Memory.ofImage 0 ((List.range 4).map (byteOfWord w)) }

/-- What a next state shows. -/
def shows {α : Type} (r : Result) (f : State → α) : Option α :=
  match r with
  | .next t => some (f t)
  | .fault _ => none
  | .refused _ => none

/-- Whether a result is a next state. -/
theorem shows_some {α : Type} {r : Result} {f : State → α} {a : α} (h : shows r f = some a) :
    ∃ t, r = .next t ∧ f t = a := by
  cases r with
  | next t => exact ⟨t, rfl, by simpa [shows] using h⟩
  | fault f => cases h
  | refused r => cases h

/-! ### WellFormed: each check refuses an ill-formed term, and lets the next term through -/

theorem test_wf_armAddImm_rn : (Instr.armAddImm 15 0 0 1).wf = false := by decide
theorem test_wf_armAddImm_rd : (Instr.armAddImm 0 15 0 1).wf = false := by decide
theorem test_wf_armAddReg_rn : (Instr.armAddReg 15 0 0).wf = false := by decide
theorem test_wf_armAddReg_rd : (Instr.armAddReg 0 15 0).wf = false := by decide
theorem test_wf_armAddReg_rm : (Instr.armAddReg 0 0 15).wf = false := by decide
theorem test_wf_armSubImm_rn : (Instr.armSubImm 15 0 0 1).wf = false := by decide
theorem test_wf_armSubImm_rd : (Instr.armSubImm 0 15 0 1).wf = false := by decide
theorem test_wf_armSubReg_rn : (Instr.armSubReg 15 0 0).wf = false := by decide
theorem test_wf_armSubReg_rd : (Instr.armSubReg 0 15 0).wf = false := by decide
theorem test_wf_armSubReg_rm : (Instr.armSubReg 0 0 15).wf = false := by decide
theorem test_wf_armMovImm_rd : (Instr.armMovImm 15 0 1).wf = false := by decide
theorem test_wf_armMovReg_rd : (Instr.armMovReg 15 0).wf = false := by decide
theorem test_wf_armMovReg_rm : (Instr.armMovReg 0 15).wf = false := by decide
theorem test_wf_arm_r14 : (Instr.armAddReg 14 14 14).wf = true := by decide

/-! ### Decoding: words written out from the formats of 30_encoding, field by field -/

/-- R format: op, rs, rt, rd, sa, fn (R54). -/
theorem test_decode_sll : decode .mips 0b000000_00000_01001_01000_00100_000000
    = .ok (.mipsSll 9 8 4) := by rfl
theorem test_decode_srl : decode .mips 0b000000_00000_01001_01000_00100_000010
    = .ok (.mipsSrl 9 8 4) := by rfl
theorem test_decode_jr : decode .mips 0b000000_11111_00000_00000_00000_001000
    = .ok (.mipsJr 31) := by rfl
theorem test_decode_syscall : decode .mips 0b000000_11111111111111111111_001100
    = .ok (.mipsSyscall 0xFFFFF) := by rfl
theorem test_decode_add : decode .mips 0b000000_01000_01001_01010_00000_100000
    = .ok (.mipsAdd 8 9 10) := by rfl
theorem test_decode_sub : decode .mips 0b000000_01000_01001_01010_00000_100010
    = .ok (.mipsSub 8 9 10) := by rfl
theorem test_decode_and : decode .mips 0b000000_01000_01001_01010_00000_100100
    = .ok (.mipsAnd 8 9 10) := by rfl
theorem test_decode_or : decode .mips 0b000000_01000_01001_01010_00000_100101
    = .ok (.mipsOr 8 9 10) := by rfl
theorem test_decode_nor : decode .mips 0b000000_01000_01001_01010_00000_100111
    = .ok (.mipsNor 8 9 10) := by rfl
/-- I format: op, rs, rt, imm (R54). -/
theorem test_decode_beq : decode .mips 0b000100_01000_01001_0000000000000010
    = .ok (.mipsBeq 8 9 2) := by rfl
theorem test_decode_bne : decode .mips 0b000101_01000_00000_1111111111111101
    = .ok (.mipsBne 8 0 0xFFFD) := by rfl
theorem test_decode_addi : decode .mips 0b001000_00000_01000_0000000000000101
    = .ok (.mipsAddi 0 8 5) := by rfl
theorem test_decode_andi : decode .mips 0b001100_01001_01000_0000000011111111
    = .ok (.mipsAndi 9 8 0xFF) := by rfl
theorem test_decode_ori : decode .mips 0b001101_00000_01000_0001001000110100
    = .ok (.mipsOri 0 8 0x1234) := by rfl
theorem test_decode_xori : decode .mips 0b001110_01001_01000_1111111111111111
    = .ok (.mipsXori 9 8 0xFFFF) := by rfl
theorem test_decode_lw : decode .mips 0b100011_01000_01001_0000000000000100
    = .ok (.mipsLw 8 9 4) := by rfl
theorem test_decode_sw : decode .mips 0b101011_01000_01001_0000000000000000
    = .ok (.mipsSw 8 9 0) := by rfl
/-- Data processing: cond, 00, I, opc, S, Rn, Rd, operand2 (R57). -/
theorem test_decode_armAddImm : decode .arm 0b1110_00_1_0100_0_0000_0001_0000_00000011
    = .ok (.armAddImm 0 1 0 3) := by rfl
theorem test_decode_armAddReg : decode .arm 0b1110_00_0_0100_0_0000_0010_00000000_0001
    = .ok (.armAddReg 0 2 1) := by rfl
theorem test_decode_armSubImm : decode .arm 0b1110_00_1_0010_0_0010_0011_0000_00000001
    = .ok (.armSubImm 2 3 0 1) := by rfl
theorem test_decode_armSubReg : decode .arm 0b1110_00_0_0010_0_0010_0011_00000000_0000
    = .ok (.armSubReg 2 3 0) := by rfl
theorem test_decode_armMovImm : decode .arm 0b1110_00_1_1101_0_0000_0001_0100_11111111
    = .ok (.armMovImm 1 4 0xFF) := by rfl
theorem test_decode_armMovReg : decode .arm 0b1110_00_0_1101_0_0000_0100_00000000_0001
    = .ok (.armMovReg 4 1) := by rfl
theorem test_decode_armB : decode .arm 0b1110_101_0_000000000000000000000010 = .ok (.armB 2) := by rfl
theorem test_decode_armBl : decode .arm 0b1110_101_1_111111111111111111111110
    = .ok (.armBl 0xFFFFFE) := by rfl
/-- D, XO and X formats (R61). -/
theorem test_decode_ppcAddi : decode .powerPc 0b001110_00100_00011_1111111111111111
    = .ok (.ppcAddi 4 3 0xFFFF) := by rfl
theorem test_decode_ppcSubf : decode .powerPc 0b011111_00110_00100_00011_0_000101000_0
    = .ok (.ppcSubf 6 4 3) := by rfl
theorem test_decode_ppcAdd : decode .powerPc 0b011111_00101_00011_00100_0_100001010_0
    = .ok (.ppcAdd 5 3 4) := by rfl
theorem test_decode_ppcOr : decode .powerPc 0b011111_00011_00111_00011_0110111100_0
    = .ok (.ppcOr 3 7 3) := by rfl
/-- Opcode byte, then ModRM: mod, reg, rm (R63). -/
theorem test_decode_x86Add : decodeBytes .x86 [0b00000001, 0b11_011_000, 0x90]
    = .ok (.x86Add 3 0, [0x90]) := by rfl
theorem test_decode_x86Sub : decodeBytes .x86 [0b00101001, 0b11_001_000] = .ok (.x86Sub 1 0, []) := by rfl
theorem test_decode_x86Mov : decodeBytes .x86 [0b10001001, 0b11_000_001] = .ok (.x86Mov 0 1, []) := by rfl
theorem test_decode_truncated : decodeBytes .mips [0x05, 0x00, 0x08] = .error .truncated := by rfl

/-- Words the spec says are no instruction (95_test_vectors ALU5, ALU14, CTL10). -/
theorem test_reject_mips : [0x01095060, 0x00294100, 0x03E00808, 0x0000000D].map (decode .mips)
    = List.replicate 4 (.error .mipsNoRow) := by rfl
/-- ARM14, ARM16, ARM17, ARM19: S = 1, a shifted register, Rd = 15, MOV with Rn = 1. -/
theorem test_reject_armData : [0xE2901003, 0xE0801082, 0xE280F003, 0xE3A10005].map (decode .arm)
    = List.replicate 4 (.error .armDataProcessing) := by rfl
/-- ARM15, ARM21 (condition) and ARM18 (load class). -/
theorem test_reject_armClass : [0x12801003, 0x00000000, 0xE5901000].map (decode .arm)
    = [.error .armCondition, .error .armCondition, .error .armLoadStore] := by rfl
/-- PPC8 to PPC11. -/
theorem test_reject_ppc : [0x7CA32215, 0x7CA32614, 0x60000000, 0x05006038].map (decode .powerPc)
    = List.replicate 4 (.error .ppcNoRow) := by rfl
/-- X86-14 to X86-16. -/
theorem test_reject_x86 : [0x00001801, 0x00000090, 0x000000F4].map (decode .x86)
    = List.replicate 3 (.error .x86NoRow) := by rfl

/-! ### MIPS: one instruction each, by `ExecWord` (95_test_vectors 2.2 to 2.4) -/

theorem test_add_ALU3 : shows ((regs2 (core .mips) 8 0xFFFFFFFF 9 1).execWord 0x01095020)
    (fun t => (t.readReg 10, t.status)) = some (0, .running) := by decide +kernel
theorem test_add_ALU2 : shows ((regs2 (core .mips) 8 0x7FFFFFFF 9 1).execWord 0x01095020)
    (fun t => (t.readReg 10, t.haltCause)) = some (0, some (.arithmeticOverflow 0 0x01095020)) := by
  decide +kernel
theorem test_sub_ALU7 : shows ((regs2 (core .mips) 8 5 9 7).execWord 0x01095022)
    (fun t => t.readReg 10) = some 0xFFFFFFFE := by decide +kernel
theorem test_sub_ALU8 : shows ((regs2 (core .mips) 8 0 9 0x80000000).execWord 0x01095022)
    (fun t => t.haltCause) = some (some (.arithmeticOverflow 0 0x01095022)) := by decide +kernel
theorem test_and_ALU9 : shows ((regs2 (core .mips) 8 0xF0F0F0F0 9 0x0FF00FF0).execWord 0x01095024)
    (fun t => t.readReg 10) = some 0x00F000F0 := by decide +kernel
theorem test_or_ALU10 : shows ((regs2 (core .mips) 8 0xF0F0F0F0 9 0x0FF00FF0).execWord 0x01095025)
    (fun t => t.readReg 10) = some 0xFFF0FFF0 := by decide +kernel
theorem test_nor_ALU11 : shows ((regs2 (core .mips) 8 0xF0F0F0F0 9 0x0FF00FF0).execWord 0x01095027)
    (fun t => t.readReg 10) = some 0x000F000F := by decide +kernel
theorem test_sll_ALU12 : shows (((core .mips).writeReg 9 0x12345678).execWord 0x00094100)
    (fun t => t.readReg 8) = some 0x23456780 := by decide +kernel
theorem test_srl_ALU13 : shows (((core .mips).writeReg 9 0x87654321).execWord 0x00094102)
    (fun t => t.readReg 8) = some 0x08765432 := by decide +kernel
theorem test_addi_ALU18 : shows ((core .mips).execWord 0x2108FFFF)
    (fun t => t.readReg 8) = some 0xFFFFFFFF := by decide +kernel
theorem test_addi_ALU22 : shows ((core .mips).execWord 0x20000005)
    (fun t => (t.readReg 0, t.pc)) = some (0, 4) := by decide +kernel
theorem test_andi_ALU19 : shows (((core .mips).writeReg 9 0x12345678).execWord 0x312800FF)
    (fun t => t.readReg 8) = some 0x00000078 := by decide +kernel
theorem test_ori_ALU20 : shows ((core .mips).execWord 0x3408FFFF)
    (fun t => t.readReg 8) = some 0x0000FFFF := by decide +kernel
theorem test_xori_ALU21 : shows (((core .mips).writeReg 9 0x12345678).execWord 0x3928FFFF)
    (fun t => t.readReg 8) = some 0x1234A987 := by decide +kernel
theorem test_unmodelled_ALU23 : shows ((unwritten .mips).execWord 0x01095020)
    (fun t => t.haltCause) = some (some (.unmodelled 0 0x01095020)) := by decide +kernel

/-- LS3: an unaligned load without `ALIGN_CHECK`. -/
theorem test_lw_LS3 : shows ((({ core .mips with mem := [(0x80000002, 1), (0x80000003, 2),
      (0x80000004, 3), (0x80000005, 4)] } : State).writeReg 8 0x80000006).execWord 0x8D09FFFC)
    (fun t => t.readReg 9) = some 0x04030201 := by decide +kernel
theorem test_lw_LS5 : shows (((core .mips).writeReg 8 0x8FFFFFFC).execWord 0x8D090004)
    (fun t => (t.readReg 9, t.trace)) = some (0xFFFFFFFF, [.busFault .read 0x90000000,
      .busFault .read 0x90000001, .busFault .read 0x90000002, .busFault .read 0x90000003]) := by
  decide +kernel
theorem test_sw_LS2 : shows ((regs2 (core .mips) 8 0x80000000 9 0xCAFEBABE).execWord 0xAD090000)
    (fun t => t.mem) = some [(0x80000000, 0xBE), (0x80000001, 0xBA), (0x80000002, 0xFE),
      (0x80000003, 0xCA)] := by decide +kernel
theorem test_sw_LS4 : shows (((core .mips).writeReg 8 5).execWord 0xAC080000)
    (fun t => (t.mem, t.trace)) = some ([], [.busFault .romWrite 0, .busFault .romWrite 1,
      .busFault .romWrite 2, .busFault .romWrite 3]) := by decide +kernel
theorem test_beq_CTL1 : shows (State.execWord { regs2 (core .mips) 8 9 9 9 with pc := 0x100 }
    0x11090002) (fun t => t.pc) = some 0x10C := by decide +kernel
theorem test_beq_CTL7 : shows ((core .mips).execWord 0x1000FFFE) (fun t => t.pc)
    = some 0xFFFFFFFC := by decide +kernel
theorem test_bne_CTL4 : shows (State.execWord { (core .mips).writeReg 8 1 with pc := 0x10 }
    0x1500FFFD) (fun t => t.pc) = some 0x08 := by decide +kernel
theorem test_bne_CTL5 : shows (State.execWord { core .mips with pc := 0x10 } 0x1500FFFD)
    (fun t => t.pc) = some 0x14 := by decide +kernel
theorem test_jr_CTL9 : shows (((core .mips).writeReg 8 0x80000002).execWord 0x01000008)
    (fun t => t.pc) = some 0x80000002 := by decide +kernel
theorem test_syscall_CTL12 : shows ((regs2 (core .mips) 2 1 4 0xFFFFFFFF).execWord 0x0000000C)
    (fun t => t.trace) = some [.outInt (-1)] := by decide +kernel
theorem test_syscall_CTL14 : shows ((regs2 (core .mips) 2 4 4 0x7FFFFFFE).execWord 0x0000000C)
    (fun t => t.trace) = some [.busFault .read 0x7FFFFFFE, .busFault .read 0x7FFFFFFF,
      .outText [0xFF, 0xFF]] := by decide +kernel

/-! ### ARM, PowerPC and x86 (95_test_vectors 2.5 to 2.7) -/

theorem test_armAddImm_ARM4 : shows (((core .arm).writeReg 0 0xFFFFFFFF).execWord 0xE2801001)
    (fun t => (t.readReg 1, t.cpsr)) = some (0, 0) := by decide +kernel
theorem test_armAddReg_ARM5 : shows ((regs2 (core .arm) 0 5 1 8).execWord 0xE0802001)
    (fun t => t.readReg 2) = some 13 := by decide +kernel
theorem test_armSubImm_ARM8 : shows ((core .arm).execWord 0xE2400001)
    (fun t => t.readReg 0) = some 0xFFFFFFFF := by decide +kernel
theorem test_armSubReg_ARM7 : shows ((regs2 (core .arm) 2 13 0 5).execWord 0xE0423000)
    (fun t => t.readReg 3) = some 8 := by decide +kernel
theorem test_armMovImm_ARM2 : shows ((core .arm).execWord 0xE3A014FF)
    (fun t => t.readReg 1) = some 0xFF000000 := by decide +kernel
theorem test_armMovReg_ARM9 : shows (((core .arm).writeReg 1 8).execWord 0xE1A04001)
    (fun t => t.readReg 4) = some 8 := by decide +kernel
theorem test_armB_ARM11 : shows (State.execWord { core .arm with pc := 0x100 } 0xEA000002)
    (fun t => t.pc) = some 0x110 := by decide +kernel
theorem test_armB_ARM12_bias4 : shows (State.execWord
      { core .arm with pc := 0x100, cfg := { isa := .arm, armPcBias := .four } } 0xEAFFFFFE)
    (fun t => t.pc) = some 0xFC := by decide +kernel
theorem test_armBl_ARM13 : shows (State.execWord { core .arm with pc := 0x100 } 0xEB000002)
    (fun t => (t.readReg 14, t.pc)) = some (0x104, 0x110) := by decide +kernel
theorem test_ppcAddi_PPC3 : shows (((core .powerPc).writeReg 0 7).execWord 0x3880FFFF)
    (fun t => t.readReg 4) = some 0xFFFFFFFF := by decide +kernel
theorem test_ppcAddi_PPC2 : shows (((core .powerPc).writeReg 3 5).execWord 0x3883FFFF)
    (fun t => t.readReg 4) = some 4 := by decide +kernel
theorem test_ppcAdd_PPC4 : shows ((regs2 (core .powerPc) 3 5 4 4).execWord 0x7CA32214)
    (fun t => t.readReg 5) = some 9 := by decide +kernel
theorem test_ppcSubf_PPC6 : shows ((regs2 (core .powerPc) 3 5 4 4).execWord 0x7CC32050)
    (fun t => t.readReg 6) = some 0xFFFFFFFF := by decide +kernel
theorem test_ppcOr_PPC7 : shows (((core .powerPc).writeReg 3 5).execWord 0x7C671B78)
    (fun t => (t.readReg 7, t.readReg 3)) = some (5, 5) := by decide +kernel
theorem test_x86Add_2 : shows ((regs2 (core .x86) 0 0xFFFFFFFF 3 1).execWord 0x0000D801)
    (fun t => (t.readReg 0, t.eflags, t.pc)) = some (0, 0x57, 2) := by decide +kernel
theorem test_x86Add_3 : shows ((regs2 (core .x86) 0 0x7FFFFFFF 3 1).execWord 0x0000D801)
    (fun t => (t.readReg 0, t.eflags)) = some (0x80000000, 0x896) := by decide +kernel
theorem test_x86Sub_7 : shows ((regs2 (core .x86) 0 5 1 7).execWord 0x0000C829)
    (fun t => (t.readReg 0, t.eflags)) = some (0xFFFFFFFE, 0x93) := by decide +kernel
theorem test_x86Sub_11 : shows ((regs2 (core .x86) 0 0x7FFFFFFF 1 0xFFFFFFFF).execWord 0x0000C829)
    (fun t => (t.readReg 0, t.eflags)) = some (0x80000000, 0x887) := by decide +kernel
theorem test_x86Mov_13 : shows (State.execWord { (core .x86).writeReg 0 5 with eflags := 0x93 }
    0x0000C189) (fun t => (t.readReg 1, t.eflags)) = some (5, 0x93) := by decide +kernel

/-! ### The address space (95_test_vectors 2.1) -/

theorem test_MEM2 : (core .mips).readByte 0x7FFFFFFF
    = (0xFF, (core .mips).emit (.busFault .read 0x7FFFFFFF)) := by rfl
theorem test_MEM3 : ((core .mips).readWord 0x0000000E).1 = 0xFFFF0000 := by decide +kernel
theorem test_MEM6 : (((core .mips).writeWord 0x80FFFFFE 0x11223344).mem,
      ((core .mips).writeWord 0x80FFFFFE 0x11223344).trace)
    = ([(0x80FFFFFE, 0x44), (0x80FFFFFF, 0x33)],
      [.busFault .write 0x81000000, .busFault .write 0x81000001]) := by decide +kernel
theorem test_MEM8 : ((core .mips).readWord 0xF0000001).1 = 0x00000000 := by decide +kernel
theorem test_MEM9 : ((core .mips).writeWord 0xF0000004 0x41424344).trace = [.outChar 0x44] := by
  decide +kernel
theorem test_MEM11 : (((core .mips).writeWord 0xF0000100 0x12345678).readWord 0xF0000100).1
    = 0x12345678 := by decide +kernel
theorem test_MEM12 : ((core .mips).writeByte 0xF0001000 1).trace = [.ioStubWrite 0xF0001000 1] := by
  decide +kernel
theorem test_MEM14 : (State.readWord { core .mips with mem := [(0, 5)] } 0xFFFFFFFE).1
    = 0x00050000 := by decide +kernel
theorem test_MEM15 : ((core .mips).writeByte 0xF0000123 9).trace
    = [.ioWriteIgnored 0xF0000123 9] := by decide +kernel

/-! ### The host operations (95_test_vectors 2.8) -/

theorem test_HOST2 : shows (step (withWord .mips 0x20080005).stop)
    (fun t => (t.haltCause, t.pc, t.readReg 8)) = some (some .stopped, 0, 0) := by decide +kernel
theorem test_HOST7 : (State.reset.load [5, 0, 8, 0x20] (.known .mips) 0x7FFFFFFC).toOption.map
    (fun t => (t.romLen, t.pc)) = some (0x80000000, 0x7FFFFFFC) := by decide +kernel
theorem test_HOST8 : State.reset.load (List.replicate 8 0) (.known .mips) 0x7FFFFFFC
    = .error .invalidImage := by rfl
theorem test_HOST9 : State.reset.load [0, 0, 0, 0] (.other "SPARC") = .error .unknownArchitecture := by
  rfl
theorem test_HOST10 : (State.reset.load [5, 0, 8, 0x20] (.known .mips) 0x100).toOption.map
    (fun t => (t.romLen, t.pc, t.peek 0xFF, t.peek 0x103)) = some (0x104, 0x100, 0, 0x20) := by
  decide +kernel
theorem test_HOST12 : shows (State.execWord { unwritten .mips with
      written := (Vector.replicate 32 true).set 9 false } 0x01095020) (fun t => t.haltCause)
    = some (some (.unmodelled 0 0x01095020)) := by decide +kernel
/-- S6: `ExecWord` sets `ir` and makes no fetch. -/
theorem test_execWord_S6 : shows ((core .mips).execWord 0x20080005)
    (fun t => (t.readReg 8, t.pc, t.ir, t.trace)) = some (5, 4, 0x20080005, []) := by decide +kernel
/-- The first step of P6 with `REG_RESET = unknown` records the whole fetched word. -/
theorem test_step_P6_unknown : shows (step { withWord .x86 0xD801C189 with
      cfg := { isa := .x86, regReset := .unknown } }) (fun t => (t.haltCause, t.ir))
    = some (some (.unmodelled 0 0xD801C189), 0xD801C189) := by decide +kernel

/-- The words of the opcode table reach the decoder and the first step after reset. -/
theorem test_decodeTableWord : decodeTableWord 32 0xE2801003 = some (.armAddImm 0 1 0 3)
    ∧ decodeTableWord 16 0xD801 = some (.x86Add 3 0) := by decide +kernel
theorem test_withFetchWord : shows (step (State.reset.withFetchWord 32 0x20080005))
    (fun t => (t.readReg 8, t.ir)) = some (5, 0x20080005) := by decide +kernel

/-! ### Witnesses: the hypotheses of each statement can be met -/

theorem loaded_active (s : State) (h : s.status = .loaded) : s.active := .inl h

theorem core_mayFetch (isa : Isa) : (core isa).MayFetch :=
  (State.mayFetch_iff _).2 (by cases isa <;> rfl)

theorem withWord_mayFetch (isa : Isa) (w : Word) : (withWord isa w).MayFetch :=
  (State.mayFetch_iff _).2 (by cases isa <;> rfl)

theorem core_inv (isa : Isa) : (core isa).Inv where
  cfgWf := by cases isa <;> decide
  memWf := by cases isa <;> decide
  memInside := by intro c hc; cases hc
  romFits := by cases isa <;> decide
  ramFits := by cases isa <;> decide
  hardwiredZero := by cases isa <;> decide
  unusedZero := by cases isa <;> decide
  cpsrZero := rfl
  eflagsReserved := by cases isa <;> decide
  eflagsX86 := fun _ => rfl
  haltRecorded := by cases isa <;> decide
  writtenOnlyUnknown := fun _ => rfl

theorem test_witness_DecodeEncodeAgree : (Instr.armAddReg 14 14 14).wf = true := by decide

theorem test_witness_DecodedWordsEncodeBack : decode .x86 0xFFFFFF89 = .ok (.x86Mov 7 7)
    ∧ decode .mips 0x03FFFFCC = .ok (.mipsSyscall 0xFFFFF) := ⟨rfl, rfl⟩

/-- A core whose next word is no instruction; the ARM word next to it that names `r14` is one. -/
theorem test_witness_UnmatchedWordsHalt :
    (withWord .arm 0xE280F003).active ∧ (withWord .arm 0xE280F003).MayFetch
      ∧ ((withWord .arm 0xE280F003).readWord 0).1 = 0xE280F003
      ∧ ¬ InMap .arm 0xE280F003 ∧ InMap .arm 0xE280E003 := by
  refine ⟨loaded_active _ rfl, withWord_mayFetch _ _, by decide +kernel, ?_, ?_⟩ <;>
    unfold InMap namesR15 <;> decide

/-- A word for each of the five steps, and for both sides of step 3. -/
theorem test_witness_ArmClassDecode :
    field 0x12801003 28 4 ≠ 0b1110#4
      ∧ (field 0xEBFFFFFF 28 4 = 0b1110#4 ∧ field 0xEBFFFFFF 25 3 = 0b101#3)
      ∧ (field 0xE1A0E00E 28 4 = 0b1110#4 ∧ field 0xE1A0E00E 26 2 = 0b00#2
        ∧ decode .arm 0xE1A0E00E = .ok (.armMovReg 14 14))
      ∧ (field 0xE1A1E00E 26 2 = 0b00#2 ∧ decode .arm 0xE1A1E00E = .error .armDataProcessing)
      ∧ (field 0xE5901000 28 4 = 0b1110#4 ∧ field 0xE5901000 26 2 = 0b01#2)
      ∧ (field 0xE9FFFFFF 28 4 = 0b1110#4 ∧ field 0xE9FFFFFF 26 2 = 0b10#2
        ∧ field 0xE9FFFFFF 25 3 ≠ 0b101#3) := by
  refine ⟨?_, ?_, ⟨?_, ?_, rfl⟩, ⟨?_, rfl⟩, ?_, ?_⟩ <;> decide

theorem test_witness_NoOperationWords :
    ((core .mips).cfg.isa = .mips ∧ (core .mips).cfg.r0Hardwired = true)
      ∧ (core .arm).known 0 = true ∧ field 0xFFFFC089 0 16 = 0xC089#16
      ∧ ((core .powerPc).active ∧ (core .powerPc).MayFetch ∧ (core .powerPc).cfg.isa = .powerPc)
      ∧ ((core .x86).active ∧ (core .x86).MayFetch ∧ field 0xFFFFFF90 0 8 = 0x90#8) :=
  ⟨⟨rfl, rfl⟩, by decide, by decide, ⟨loaded_active _ rfl, core_mayFetch _, rfl⟩,
    ⟨loaded_active _ rfl, core_mayFetch _, by decide⟩⟩

theorem test_witness_StepRunsDecodedInstruction :
    (withWord .mips 0x20080005).active ∧ (withWord .mips 0x20080005).MayFetch
      ∧ decode (withWord .mips 0x20080005).cfg.isa (withWord .mips 0x20080005).fetch.1
        = .ok (.mipsAddi 0 8 5) := by
  refine ⟨loaded_active _ rfl, withWord_mayFetch _ _, ?_⟩
  have h : (withWord .mips 0x20080005).fetch.1 = 0x20080005 := by decide +kernel
  rw [h]; rfl

/-- An x86 instruction whose two bytes lie at `pc`, with two more ROM bytes above them. -/
theorem test_witness_StepRunsStoredInstruction :
    (withWord .x86 0xD801C189).active ∧ (withWord .x86 0xD801C189).MayFetch
      ∧ (Instr.x86Mov 0 1).isa = (withWord .x86 0xD801C189).cfg.isa ∧ (Instr.x86Mov 0 1).wf = true
      ∧ (∀ k : Fin 4, ∃ o, (withWord .x86 0xD801C189).region (0 + BitVec.ofNat 32 k) = .rom o)
      ∧ ∀ k, k < (encode (.x86Mov 0 1)).length → (encode (.x86Mov 0 1))[k]?
          = some ((withWord .x86 0xD801C189).peek (0 + BitVec.ofNat 32 k)) := by
  refine ⟨loaded_active _ rfl, withWord_mayFetch _ _, rfl, rfl, fun k => ⟨k, ?_⟩, by decide +kernel⟩
  revert k; decide +kernel

theorem test_witness_IdleAndHaltedCoresDoNotStep :
    State.reset.status = .idle ∧ ((core .mips).halt .stopped).status = .halted := ⟨rfl, rfl⟩

/-- A completing step, a halting step and a load. -/
theorem test_witness_StatusTransitions :
    (∃ t, step (withWord .mips 0x20080005) = .next t ∧ t.status = .running)
      ∧ (∃ t, step (withWord .arm 0x20080005) = .next t ∧ t.status = .halted)
      ∧ ∃ t, State.reset.load [0] (.known .x86) 0 true = .ok t :=
  ⟨shows_some (f := State.status) (by decide +kernel),
    shows_some (f := State.status) (by decide +kernel), ⟨_, rfl⟩⟩

theorem test_witness_CompletedStepsAreCounted :
    ∃ t, (core .mips).execWord 0x20080005 = .next t ∧ t.instructionCount = 1 :=
  shows_some (f := State.instructionCount) (by decide +kernel)

/-- The stop flag at a count that is a multiple of the interval, and HOST3's at one that is not. -/
def stopAt (k n : Nat) : State :=
  { withWord .mips 0x20080005 with
    cfg := { isa := .mips, stopCheckInterval := k }, stopRequested := true, instructionCount := n }

theorem test_witness_StopHaltsTheCore :
    ((stopAt 4 8).active ∧ (stopAt 4 8).stopRequested = true ∧ 8 % 4 = 0)
      ∧ (∃ t, step (stopAt 4 8) = .next t ∧ (t.status, t.haltCause) = (.halted, some .stopped))
      ∧ ((stopAt 4 1).active ∧ (stopAt 4 1).stopRequested = true
        ∧ 1 ≤ (stopAt 4 1).cfg.stopCheckInterval) :=
  ⟨⟨loaded_active _ rfl, rfl, rfl⟩,
    shows_some (f := fun t => (t.status, t.haltCause)) (by decide +kernel),
    ⟨loaded_active _ rfl, rfl, by decide⟩⟩

def budgetAt (b n : Nat) : State :=
  { withWord .mips 0x20080005 with
    cfg := { isa := .mips, cycleBudget := some b }, instructionCount := n }

/-- A budget just used up, and one with a single instruction left. -/
theorem test_witness_BudgetHaltsTheCore :
    ((budgetAt 2 2).active ∧ (budgetAt 2 2).cfg.cycleBudget = some 2 ∧ (budgetAt 2 2).stopRequested = false)
      ∧ (∃ t, step (budgetAt 2 2) = .next t
        ∧ (t.status, t.haltCause) = (.halted, some .budgetExhausted))
      ∧ ∃ t, runFor 2 (budgetAt 2 1) = .next t ∧ t.instructionCount = 2 :=
  ⟨⟨loaded_active _ rfl, rfl, rfl⟩,
    shows_some (f := fun t => (t.status, t.haltCause)) (by decide +kernel),
    shows_some (f := State.instructionCount) (by decide +kernel)⟩

/-- Fetches at an odd address with the check (MIPS), without it, and on x86; accesses at `0x80000002`. -/
theorem test_witness_AlignmentIsChecked :
    (let s := { checked .mips with pc := 0x00000001 };
      s.active ∧ s.stopRequested = false ∧ s.cfg.cycleBudget = none ∧ s.cfg.alignCheck = true
        ∧ s.cfg.isa ≠ .x86 ∧ s.pc.extractLsb' 0 2 ≠ 0#2)
      ∧ (let s := { core .mips with pc := 0x00000001 }; s.active ∧ s.cfg.alignCheck = false)
      ∧ (let s := { checked .x86 with pc := 0x00000001 }; s.active ∧ s.cfg.isa = .x86)
      ∧ (let s := (checked .mips).writeReg 8 0x80000002
        s.known 8 = true ∧ s.known 9 = true ∧ s.cfg.alignCheck = true
          ∧ (s.readReg 8 + (0 : BitVec 16).signExtend 32).extractLsb' 0 2 ≠ 0#2
          ∧ (s.readReg 8 + (2 : BitVec 16).signExtend 32).extractLsb' 0 2 = 0#2) :=
  ⟨⟨loaded_active _ rfl, by decide +kernel⟩, ⟨loaded_active _ rfl, by decide +kernel⟩,
    ⟨loaded_active _ rfl, by decide +kernel⟩, by decide +kernel⟩

/-- Only the base register has a value. -/
def baseOnly (align : Bool) (a : Word) : State :=
  State.writeReg { unwritten .mips with
    cfg := { isa := .mips, regReset := .unknown, alignCheck := align } } 8 a

/-- `sw $t1, 1($t0)` where only `$t0` has a value: two causes apply, and `Unmodelled` is taken. -/
theorem test_sw_unwritten_source : shows ((baseOnly true 0x80000000).execWord 0xAD090001)
    (fun t => t.haltCause) = some (some (.unmodelled 0 0xAD090001)) := by decide +kernel

/-- An active core with every start-of-step cause at once, and cores in which each next one is the first. -/
theorem test_witness_CausesAreTakenInOrder :
    (∀ s : State, s.status = .loaded → s.active)
      ∧ (stopAt 4 8).status = .loaded ∧ (stopAt 4 8).stopRequested = true ∧ 8 % 4 = 0
      ∧ (core .arm).status = .loaded ∧ (core .arm).stopRequested = false
      ∧ decode .arm ((core .arm).readWord (core .arm).pc).1 = .error .armCondition
      ∧ shows (step { checked .mips with pc := 1, stopRequested := true }) State.haltCause
        = some (some .stopped)
      ∧ shows (step { checked .mips with pc := 1, cfg := { alignCheck := true, cycleBudget := some 0 } })
        State.haltCause = some (some .budgetExhausted)
      ∧ shows (step { checked .arm with pc := 1 }) State.haltCause = some (some (.misaligned 1 1))
      ∧ (baseOnly true 0x80000001).known 8 = true ∧ (baseOnly true 0x80000001).known 9 = false
      ∧ (baseOnly true 0x80000001).known 2 = false ∧ (checked .mips).known 0 = true
      ∧ ((checked .mips).readReg 0 + (1 : BitVec 16).signExtend 32).extractLsb' 0 2 ≠ 0#2 :=
  ⟨loaded_active, by decide +kernel⟩

/-- A halt at the start of a step, one of the decoder after a fetch that logs, one of an instruction. -/
theorem test_witness_HaltsArePrecise :
    (∃ t, step (stopAt 1 0) = .next t ∧ t.status = .halted)
      ∧ (∃ t, step { core .mips with pc := 0x10 } = .next t ∧ t.status = .halted)
      ∧ ∃ t, step { withWord .x86 0xD801C189 with cfg := { isa := .x86, regReset := .unknown } } = .next t
        ∧ t.status = .halted :=
  ⟨shows_some (f := State.status) (by decide +kernel), shows_some (f := State.status) (by decide +kernel),
    shows_some (f := State.status) (by decide +kernel)⟩

theorem test_witness_TraceOnlyGrows :
    ∃ t, runFor 2 { core .mips with pc := 0x10 } = .next t ∧ t.trace.length = 5 :=
  shows_some (f := fun t => t.trace.length) (by decide +kernel)

theorem test_witness_StepsKeepRomAndParameters :
    (core .mips).mem.wf = true ∧ ∃ t, (core .mips).execWord 0xAC080000 = .next t ∧ t.pc = 4 :=
  ⟨by decide, shows_some (f := State.pc) (by decide +kernel)⟩

theorem test_witness_StepKeepsInvariant :
    (core .mips).Inv ∧ ∃ t, step (core .mips) = .next t ∧ t.pc = 4 :=
  ⟨core_inv _, shows_some (f := State.pc) (by decide +kernel)⟩

theorem test_witness_HostOperationsKeepInvariant :
    (core .arm).Inv ∧ (∃ t, (core .arm).execWord 0xE3A00005 = .next t ∧ t.pc = 4)
      ∧ (∃ t, runFor 1 (core .arm) = .next t ∧ t.status = .halted)
      ∧ ∃ t, (core .arm).load [0] (.known .x86) 0x7FFFFFFF true = .ok t :=
  ⟨core_inv _, shows_some (f := State.pc) (by decide +kernel),
    shows_some (f := State.status) (by decide +kernel), ⟨_, rfl⟩⟩

/-- The bounds of `Load`: the last image that fits, the first that does not, and one byte over 1 GiB. -/
theorem test_witness_LoadBuildsFreshCore :
    ¬(0x80000000 < (0x7FFFFFFF : Word).toNat + [(0 : Byte)].length)
      ∧ 0x80000000 < (0x7FFFFFFF : Word).toNat + [(0 : Byte), 0].length
      ∧ 2 ^ 30 < (List.replicate (2 ^ 30 + 1) (0 : Byte)).length
      ∧ ([] : List Byte).length = 0 := by
  refine ⟨by decide, by decide, ?_, rfl⟩
  rw [List.length_replicate]; decide

theorem test_witness_RunRepeatsSteps :
    (core .mips).status ≠ .idle ∧ (core .mips).active
      ∧ ((core .mips).halt .stopped).status = .halted
      ∧ (∃ t, runFor 3 (core .mips) = .next t ∧ t.status = .running)
      ∧ ∃ t, runFor 3 (core .arm) = .next t ∧ t.status = .halted :=
  ⟨by decide, loaded_active _ rfl, rfl, shows_some (f := State.status) (by decide +kernel),
    shows_some (f := State.status) (by decide +kernel)⟩

theorem test_witness_ExecWordIsStepWithoutFetch :
    (¬ State.reset.active) ∧ (stopAt 1 0).startCause = some .stopped
      ∧ ((core .arm).active ∧ (core .arm).MayFetch
        ∧ decode (core .arm).cfg.isa 0xE3A00005 = .ok (.armMovImm 0 0 5)
        ∧ decode (core .arm).cfg.isa 0xE3A10005 = .error .armDataProcessing) :=
  ⟨by unfold State.active; decide, rfl, loaded_active _ rfl, core_mayFetch _, rfl, rfl⟩

theorem test_witness_InspectionShowsTheCore :
    (core .arm).Inv ∧ (15 < (core .arm).inspect.regs.length ∧ (0x0000000F : Word).toNat < (core .arm).romLen
      ∧ (0x80FFFFFF : Word).toNat < 0x80000000 + (core .arm).ramLen) :=
  ⟨core_inv _, by decide +kernel⟩

/-- The first and last address of each region (`len(rom) = 16`). -/
theorem test_witness_ReadByteByRegion :
    (core .mips).region 0x00000000 = .rom 0 ∧ (core .mips).region 0x0000000F = .rom 15
      ∧ (core .mips).region 0x00000010 = .unmapped ∧ (core .mips).region 0x7FFFFFFF = .unmapped
      ∧ (core .mips).region 0x80000000 = .ram 0 ∧ (core .mips).region 0x80FFFFFF = .ram 0xFFFFFF
      ∧ (core .mips).region 0x81000000 = .unmapped ∧ (core .mips).region 0xEFFFFFFF = .unmapped
      ∧ (core .mips).region 0xF0000000 = .io 0 ∧ (core .mips).region 0xFFFFFFFF = .io 0xFFFFFFF := by
  decide +kernel

theorem test_witness_WriteByteByRegion : (core .mips).mem.wf = true := by decide

theorem test_witness_ReadWordIsFourByteReads :
    (core .mips).readByte 0x00000010 = (0xFF, (core .mips).emit (.busFault .read 0x00000010))
      ∧ (((core .mips).emit (.busFault .read 0x00000010)).readByte (0x00000010 + 1)).1 = 0xFF := by
  decide +kernel

theorem test_witness_WriteWordIsFourByteWrites :
    (core .mips).mem.wf = true ∧ (core .mips).isRam 0x80FFFFFF = true
      ∧ (core .mips).isRam 0x81000000 = false ∧ storedByte 0x80FFFFFF 0x11223344 0x80FFFFFF = some 0x44
      ∧ storedByte 0x80FFFFFF 0x11223344 0x81000002 = some 0x11
      ∧ storedByte 0x80FFFFFF 0x11223344 0x81000003 = none := by decide +kernel

theorem test_witness_StoredWordReadsBack :
    (core .mips).mem.wf = true
      ∧ ∀ k : Fin 4, (core .mips).isRam (0x80FFFFFC + BitVec.ofNat 32 k) = true := by decide +kernel

/-- P7: `addi $t0, $zero, 5` stored at the start of RAM. -/
theorem test_witness_StoredCodeRuns :
    ∃ t, exec (.mipsSw 9 11 0) (regs2 (core .mips) 9 0x80000000 11 0x20080005) = .next t
      ∧ t.status = .running ∧ State.MayFetch { t with pc := 0x80000000 }
      ∧ decode .mips 0x20080005 = .ok (.mipsAddi 0 8 5)
      ∧ ∀ k : Fin 4, (regs2 (core .mips) 9 0x80000000 11 0x20080005).isRam
          (0x80000000 + BitVec.ofNat 32 k) = true := by
  obtain ⟨t, ht, hs⟩ := shows_some (r := exec (.mipsSw 9 11 0) (regs2 (core .mips) 9 0x80000000 11 0x20080005))
    (f := fun t => (t.status, State.startCause { t with pc := 0x80000000 })) (a := (.running, none))
    (by decide +kernel)
  exact ⟨t, ht, congrArg Prod.fst hs, (State.mayFetch_iff _).2 (congrArg Prod.snd hs), by rfl,
    by decide +kernel⟩

/-- The default I/O map is well-formed, and these addresses lie at the edges of its slots and stubs. -/
theorem test_witness_MmioReads :
    (core .mips).cfg.ioMap.wf = true ∧ (core .mips).romLen ≤ 0x80000000
      ∧ (core .mips).ramLen ≤ 0x70000000
      ∧ (0xF0000003 : Word).toNat = 0xF0000000 + 3 ∧ 3 - 3 % 4 = (core .mips).cfg.ioMap.uartStatus
      ∧ 0x004 - 0x004 % 4 = (core .mips).cfg.ioMap.uartData
      ∧ 0x103 - 0x103 % 4 = (core .mips).cfg.ioMap.timerControl
      ∧ 0x104 - 0x104 % 4 = (core .mips).cfg.ioMap.timerValue
      ∧ 0x203 - 0x203 % 4 = (core .mips).cfg.ioMap.intMask
      ∧ 0x300 - 0x300 % 4 = (core .mips).cfg.ioMap.gpio
      ∧ 0x108 - 0x108 % 4 ∉ (core .mips).cfg.ioMap.slots
      ∧ (0xFFFFFFFF : Word).toNat = 0xF0000000 + 0xFFFFFFF
      ∧ 0xFFFFFFF - 0xFFFFFFF % 4 ∉ (core .mips).cfg.ioMap.slots := by decide +kernel

/-- Besides the slots above: the last byte of each stub range and the byte after the second. -/
theorem test_witness_MmioWrites :
    (core .mips).cfg.ioMap.wf = true ∧ (0xF0000004 : Word).toNat = 0xF0000000 + 0x004
      ∧ 0x004 = (core .mips).cfg.ioMap.uartData
      ∧ (let m := (core .mips).cfg.ioMap
        0x1FFF < m.networkBase + m.networkSize ∧ 0x2000 = m.videoBase
          ∧ 0x2FFF < m.videoBase + m.videoSize ∧ ¬ 0x3000 < m.videoBase + m.videoSize
          ∧ 0x2FFF - 0x2FFF % 4 ∉ m.slots ∧ 0x3000 - 0x3000 % 4 ∉ m.slots) := by decide +kernel

/-- Four bytes from `pc` lie in ROM or in RAM and are 0, in a core with 16 ROM bytes. -/
def zeros (isa : Isa) (pc : Word) : Bool :=
  decide (∀ k : Fin 4, ((core isa).isRam (pc + BitVec.ofNat 32 k) = true
      ∨ (core isa).region (pc + BitVec.ofNat 32 k) = .rom (pc.toNat + k))
    ∧ (core isa).peek (pc + BitVec.ofNat 32 k) = 0x00)

/-- A core whose ROM is `n` zero bytes, at the end of it. -/
def pastRom (isa : Isa) (n : Nat) : State := { core isa with romLen := n, pc := BitVec.ofNat 32 n }

/-- Four bytes from `pc` are unmapped, in a core with 16 ROM bytes. -/
def outside (pc : Word) : Bool :=
  decide (∀ k : Fin 4, 16 ≤ (pc + BitVec.ofNat 32 k).toNat ∧ (pc + BitVec.ofNat 32 k).toNat < 0xF0000000
    ∧ ¬(0x80000000 ≤ (pc + BitVec.ofNat 32 k).toNat
      ∧ (pc + BitVec.ofNat 32 k).toNat < 0x80000000 + 0x01000000))

/-- Just past ROM, and the last four unmapped addresses; and a word of zeros in ROM, at its first and its last
place, and in RAM. -/
theorem test_witness_UnmappedFetchHalts :
    outside 0x00000010 = true ∧ outside 0xEFFFFFFC = true
      ∧ (∀ pc, State.active { core .mips with pc := pc } ∧ State.MayFetch { core .mips with pc := pc })
      ∧ field 0x000000FF 0 8 = 0xFF#8 ∧ field 0xC0C0C000 0 8 = 0x00#8
      ∧ (∀ isa, (core isa).active ∧ (core isa).MayFetch)
      ∧ (core .arm).cfg.isa ≠ .mips ∧ (core .mips).cfg.isa = .mips ∧ (core .mips).known 0 = true
      ∧ State.known { unwritten .mips with cfg := { regReset := .unknown, r0Hardwired := false } } 0 = false
      ∧ zeros .mips 0 = true ∧ zeros .arm 0x0000000C = true ∧ zeros .x86 0x80FFFFFC = true :=
  ⟨by decide +kernel, by decide +kernel,
    fun _ => ⟨loaded_active _ rfl, (State.mayFetch_iff _).2 (by rfl)⟩, by decide, by decide,
    fun _ => ⟨loaded_active _ rfl, core_mayFetch _⟩, by decide, rfl, by decide, by decide +kernel,
    by decide +kernel, by decide +kernel, by decide +kernel⟩

/-- Just past a ROM of 16 bytes, and past one that ends one byte below `RAM_BASE`, with RAM as after a load. -/
theorem test_witness_RunningOffRomHalts :
    (∀ isa n, State.active (pastRom isa n) ∧ State.MayFetch (pastRom isa n))
      ∧ ((pastRom .mips 16).pc.toNat = (pastRom .mips 16).romLen
        ∧ (pastRom .mips 16).romLen + 4 ≤ 0x80000000)
      ∧ ((pastRom .arm 0x7FFFFFFF).pc.toNat = (pastRom .arm 0x7FFFFFFF).romLen
        ∧ (pastRom .arm 0x7FFFFFFF).romLen < 0x80000000 ∧ (pastRom .x86 0x7FFFFFFF).cfg.isa = .x86)
      ∧ (∀ a : Word, 0x80000000 ≤ a.toNat → a.toNat < 0x80000003 →
        (pastRom .arm 0x7FFFFFFF).peek a = 0x00)
      ∧ ((pastRom .arm 0x7FFFFFFF).readWord 0x7FFFFFFF).1 = 0x000000FF
      ∧ ∃ t, step (pastRom .arm 0x7FFFFFFF) = .next t ∧ t.ir = 0x000000FF :=
  ⟨fun _ _ => ⟨loaded_active _ rfl, (State.mayFetch_iff _).2 (by rfl)⟩, by decide +kernel, by decide +kernel,
    fun _ _ _ => rfl, by decide +kernel, shows_some (f := State.ir) (by decide +kernel)⟩

theorem test_witness_RegistersReadBack :
    (core .mips).cfg.isa = .mips ∧ (core .mips).cfg.r0Hardwired = true := ⟨rfl, rfl⟩

theorem test_witness_WrittenRegistersStayWritten :
    (baseOnly false 0x80000000).known 8 = true
      ∧ ∃ t, (baseOnly false 0x80000000).execWord 0x8D090000 = .next t ∧ t.known 9 = true :=
  ⟨by decide +kernel, shows_some (f := fun t => t.known 9) (by decide +kernel)⟩

theorem test_witness_OnlyAddAndSubWriteFlags :
    (∃ t, exec (.x86Add 0 0) (core .x86) = .next t) ∧ ∃ t, exec (.x86Mov 0 0) (core .x86) = .next t :=
  ⟨⟨_, rfl⟩, ⟨_, rfl⟩⟩

theorem test_witness_OnlyStoreWordWritesMemory :
    (∃ t, exec (.mipsLw 8 9 0) (core .mips) = .next t)
      ∧ ∀ rs rt imm, Instr.mipsLw 8 9 0 ≠ .mipsSw rs rt imm :=
  ⟨⟨_, rfl⟩, fun _ _ _ => by simp⟩

/-- In and out of the signed range at both ends, both modes, and an unwritten register. -/
theorem test_witness_MipsAddSubAddi :
    (0x01095020 &&& 0xFC0007FF = (0x00000020 : Word))
      ∧ (let s := regs2 (core .mips) 8 0x7FFFFFFE 9 1
        s.allKnown [8, 9] = true ∧ (s.readReg 8).toInt + (s.readReg 9).toInt = 2 ^ 31 - 1)
      ∧ (let s := regs2 (core .mips) 8 0x7FFFFFFF 9 1
        s.allKnown [8, 9] = true ∧ s.cfg.overflow = .fault
          ∧ (s.readReg 8).toInt + (s.readReg 9).toInt = 2 ^ 31)
      ∧ (let s := regs2 (core .mips) 8 0x80000000 9 1
        (s.readReg 8).toInt - (s.readReg 9).toInt = -2 ^ 31 - 1)
      ∧ (let s := regs2 (core .mips) 8 0x80000001 9 1
        (s.readReg 8).toInt - (s.readReg 9).toInt = -2 ^ 31)
      ∧ (State.allKnown { core .mips with cfg := { overflow := .wrap } } [8, 9] = true)
      ∧ (unwritten .mips).allKnown [8] = false := by decide +kernel

theorem test_witness_MipsLogical :
    (0x01095024 &&& 0xFC0007FF = (0x00000024 : Word)) ∧ (core .mips).allKnown [8, 9] = true
      ∧ (unwritten .mips).allKnown [0, 9] = false ∧ (unwritten .mips).allKnown [0, 0] = true := by
  decide +kernel

theorem test_witness_MipsShifts :
    (0x00094100 &&& 0xFFE0003F = (0x00000000 : Word))
      ∧ (0x00294102 &&& 0xFC00003D = (0x00000000 : Word) ∧ field 0x00294102 21 5 ≠ 0#5)
      ∧ (core .mips).allKnown [9] = true ∧ (unwritten .mips).allKnown [9] = false := by decide +kernel

theorem test_witness_MipsLogicalImmediate :
    (0x3928FFFF &&& 0xFC000000 = (0x38000000 : Word)) ∧ (core .mips).allKnown [9] = true
      ∧ (unwritten .mips).allKnown [9] = false := by decide +kernel

/-- The last aligned word of RAM and the address after it, with and without the check. -/
theorem test_witness_MipsLoadWord :
    (0x8D090004 &&& 0xFC000000 = (0x8C000000 : Word))
      ∧ ((core .mips).known 8 = true ∧ (core .mips).cfg.alignCheck = false)
      ∧ (let s := (checked .mips).writeReg 8 0x80FFFFFC
        s.known 8 = true ∧ s.cfg.alignCheck = true
          ∧ (s.readReg 8 + (0 : BitVec 16).signExtend 32).extractLsb' 0 2 = 0#2
          ∧ (s.readReg 8 + (1 : BitVec 16).signExtend 32).extractLsb' 0 2 ≠ 0#2)
      ∧ (unwritten .mips).known 8 = false := by decide +kernel

theorem test_witness_MipsStoreWord :
    (0xAD090000 &&& 0xFC000000 = (0xAC000000 : Word))
      ∧ ((core .mips).known 8 = true ∧ (core .mips).known 9 = true ∧ (core .mips).mem.wf = true)
      ∧ (let s := (checked .mips).writeReg 8 0x80FFFFFD
        s.known 8 = true ∧ s.known 9 = true ∧ s.cfg.alignCheck = true
          ∧ (s.readReg 8 + (0xFFFF : BitVec 16).signExtend 32).extractLsb' 0 2 = 0#2
          ∧ (s.readReg 8 + (0 : BitVec 16).signExtend 32).extractLsb' 0 2 ≠ 0#2)
      ∧ (unwritten .mips).known 8 = false
      ∧ (baseOnly true 0x80000000).known 8 = true ∧ (baseOnly true 0x80000000).known 9 = false := by
  decide +kernel

theorem test_witness_MipsBranches :
    (0x1500FFFD &&& 0xFC000000 = (0x14000000 : Word))
      ∧ ((core .mips).known 8 = true ∧ (core .mips).readReg 8 = (core .mips).readReg 9)
      ∧ (regs2 (core .mips) 8 9 9 8).readReg 8 ≠ (regs2 (core .mips) 8 9 9 8).readReg 9
      ∧ (unwritten .mips).known 8 = false := by decide +kernel

theorem test_witness_MipsJumpRegister :
    (0x03E00008 &&& 0xFC1FFFFF = (0x00000008 : Word)) ∧ (core .mips).known 31 = true
      ∧ (unwritten .mips).known 31 = false := by decide +kernel

/-- Calls 1, 4 and 10; and each way a register can be without a value. -/
theorem test_witness_MipsSyscall :
    (0x03FFFFCC &&& 0xFC00003F = (0x0000000C : Word))
      ∧ (let s := regs2 (core .mips) 2 1 4 5; s.known 2 = true ∧ s.known 4 = true ∧ s.readReg 2 = 1)
      ∧ (let s := regs2 (core .mips) 2 4 4 0xFFFFFFFF
        s.known 2 = true ∧ s.known 4 = true ∧ s.readReg 2 = 4 ∧ s.cfg.ioMap.wf = true
          ∧ s.romLen ≤ 0x80000000 ∧ s.ramLen ≤ 0x70000000)
      ∧ (let s := (unwritten .mips).writeReg 2 10
        s.known 2 = true ∧ s.readReg 2 ≠ 1 ∧ s.readReg 2 ≠ 4)
      ∧ (unwritten .mips).known 2 = false
      ∧ (let s := (unwritten .mips).writeReg 2 4; s.known 4 = false ∧ s.readReg 2 = 4) := by
  decide +kernel

theorem test_witness_ArmAdd :
    (0xE280E003 &&& 0xFFF00000 = (0xE2800000 : Word)) ∧ (Instr.armAddImm 0 14 0 3).wf = true
      ∧ (0xE08EE00E &&& 0xFFF00FF0 = (0xE0800000 : Word)) ∧ (core .arm).allKnown [14, 14] = true
      ∧ (unwritten .arm).allKnown [14] = false := by decide +kernel

theorem test_witness_ArmSub :
    (0xE242E001 &&& 0xFFF00000 = (0xE2400000 : Word)) ∧ (Instr.armSubImm 2 14 0 1).wf = true
      ∧ (0xE04EE00E &&& 0xFFF00FF0 = (0xE0400000 : Word)) ∧ (core .arm).allKnown [14, 14] = true
      ∧ (unwritten .arm).allKnown [14] = false := by decide +kernel

theorem test_witness_ArmMov :
    (0xE3A0EFFF &&& 0xFFFF0000 = (0xE3A00000 : Word)) ∧ (Instr.armMovImm 14 15 0xFF).wf = true
      ∧ (0xE1A0E00E &&& 0xFFFF0FF0 = (0xE1A00000 : Word)) ∧ (unwritten .arm).allKnown [] = true
      ∧ (core .arm).allKnown [14] = true ∧ (unwritten .arm).allKnown [14] = false := by decide +kernel

theorem test_witness_ArmBranches :
    (0xEBFFFFFE &&& 0xFF000000 = (0xEB000000 : Word)) ∧ (Instr.armBl 0xFFFFFE).wf = true := by
  decide +kernel

theorem test_witness_PpcAddImmediate :
    (0x3880FFFF &&& 0xFC000000 = (0x38000000 : Word)) ∧ (unwritten .powerPc).allKnown [] = true
      ∧ (core .powerPc).allKnown [31] = true ∧ (unwritten .powerPc).allKnown [1] = false := by
  decide +kernel

theorem test_witness_PpcRegisterForms :
    (0x7CC41850 &&& 0xFC0007FF = (0x7C000050 : Word)) ∧ (core .powerPc).allKnown [0, 31] = true
      ∧ (unwritten .powerPc).allKnown [0, 31] = false := by decide +kernel

theorem test_witness_X86AddSub :
    (0xFFFFD801 &&& 0x0000C0FF = (0x0000C001 : Word)) ∧ (core .x86).known (x86Reg 7) = true
      ∧ (unwritten .x86).known (x86Reg 0) = false
      ∧ ∃ t, exec (.x86Mov 0 1) (core .x86) = .next t ∧ t.pc = 2 :=
  ⟨by decide +kernel, by decide +kernel, by decide +kernel,
    shows_some (f := State.pc) (by decide +kernel)⟩

theorem test_witness_X86Mov :
    (0xFFFFC189 &&& 0x0000C0FF = (0x0000C089 : Word)) ∧ (core .x86).allKnown [x86Reg 7] = true
      ∧ (unwritten .x86).allKnown [x86Reg 0] = false := by decide +kernel

end Sys2Proof.Tests
end

/-! SUPPORT and PROOFS. The family `20_memory`: what the bus does in each region, what a write to the MMIO
window does, and where alignment is checked. -/

namespace Sys2Proof

/-! ### Bytes and words -/

/-- The word of four bytes is their concatenation, the first byte lowest (20_memory R36). -/
theorem wordOfBytes_eq_append (b0 b1 b2 b3 : Byte) : wordOfBytes b0 b1 b2 b3 = b3 ++ b2 ++ b1 ++ b0 := by
  apply BitVec.eq_of_getLsbD_eq
  intro i hi
  -- the width as a sum, where the library's lemma on `++` finds it
  change _ = BitVec.getLsbD (w := 8 + 8 + 8 + 8) (b3 ++ b2 ++ b1 ++ b0) i
  simp only [wordOfBytes, place, BitVec.getLsbD_append]
  interval_cases i <;> simp

end Sys2Proof

namespace Sys2Proof.Machine

/-- Replacing a lane of a word sets that byte and no other (20_memory R43). -/
theorem byteOfWord_setLane (v : Word) (b : Byte) (lane : Nat) (h : lane < 4) (k : Fin 4) :
    byteOfWord (setLane v lane b) k = if (k : Nat) = lane then b else byteOfWord v k := by
  interval_cases lane <;> fin_cases k <;> simp [setLane, byteOfWord_wordOfBytes]

/-! ### Byte accesses by region -/

/-- A byte read with its regions written out (20_memory R30, R34). -/
theorem State.readByte_eq (s : State) (a : Word) :
    s.readByte a =
      if a.toNat < s.romLen then (s.peek a, s)
      else if 0x80000000 ≤ a.toNat ∧ a.toNat < 0x80000000 + s.ramLen then (s.peek a, s)
      else if 0xF0000000 ≤ a.toNat then s.ioReadByte (a.toNat - 0xF0000000)
      else (0xFF, s.emit (.busFault .read a)) := by
  unfold State.readByte
  rw [s.region_eq]
  split_ifs <;> rfl

/-- A byte write with its regions written out (20_memory R30, R35). -/
theorem State.writeByte_eq (s : State) (a : Word) (v : Byte) :
    s.writeByte a v =
      if a.toNat < s.romLen then s.emit (.busFault .romWrite a)
      else if 0x80000000 ≤ a.toNat ∧ a.toNat < 0x80000000 + s.ramLen then
        { s with mem := s.mem.write a.toNat v }
      else if 0xF0000000 ≤ a.toNat then s.ioWriteByte (a.toNat - 0xF0000000) a v
      else s.emit (.busFault .write a) := by
  unfold State.writeByte
  rw [s.region_eq]
  split_ifs <;> rfl

/-- With ROM and RAM below the MMIO window, a write from `IO_BASE` on goes to the window (20_memory R30). -/
theorem State.writeByte_io (s : State) (a : Word) (v : Byte) (o : Nat) (hrom : s.romLen ≤ 0x80000000)
    (hram : s.ramLen ≤ 0x70000000) (ha : a.toNat = 0xF0000000 + o) :
    s.writeByte a v = s.ioWriteByte o a v := by
  rw [s.writeByte_eq, if_neg (by omega), if_neg (by omega), if_pos (by omega), ha, Nat.add_sub_cancel_left]

/-! ### The MMIO map -/

/-- The slots of a well-formed map are 4-aligned, inside the window and apart (20_memory R41). -/
theorem IoMap.slots_of_wf {m : IoMap} (h : m.wf = true) :
    (∀ o ∈ m.slots, o % 4 = 0 ∧ o + 4 ≤ 0x10000000) ∧ m.slots.Nodup := by
  simp only [IoMap.wf, Bool.and_eq_true, List.all_eq_true, beq_iff_eq, decide_eq_true_eq] at h
  obtain ⟨⟨⟨⟨hslots, hnodup⟩, -⟩, -⟩, -⟩ := h
  refine ⟨fun o ho => ?_, hnodup⟩
  obtain ⟨⟨⟨haligned, hinside⟩, -⟩, -⟩ := hslots o ho
  exact ⟨haligned, hinside⟩

/-- Each register's slot is resolved to that register, the slots being apart (20_memory R41). -/
theorem ioTarget_of_slot {m : IoMap} (h : m.slots.Nodup) (o : Nat) :
    (o - o % 4 = m.uartStatus → ioTarget m o = .uartStatus)
      ∧ (o - o % 4 = m.uartData → ioTarget m o = .uartData)
      ∧ (o - o % 4 = m.timerControl → ioTarget m o = .timerControl)
      ∧ (o - o % 4 = m.timerValue → ioTarget m o = .timerValue)
      ∧ (o - o % 4 = m.intMask → ioTarget m o = .intMask)
      ∧ (o - o % 4 = m.gpio → ioTarget m o = .gpio) := by
  simp only [IoMap.slots, List.nodup_cons, List.mem_cons, List.not_mem_nil, or_false, not_or] at h
  obtain ⟨hstatus, hdata, hcontrol, hvalue, hmask, -⟩ := h
  refine ⟨?_, ?_, ?_, ?_, ?_, ?_⟩ <;> intro e <;> simp [ioTarget, *, Ne.symm]

/-- An offset in no slot belongs to a stub range or to nothing (20_memory R41). -/
theorem ioTarget_of_not_slot {m : IoMap} {o : Nat} (h : o - o % 4 ∉ m.slots) :
    ioTarget m o =
      if m.networkBase ≤ o ∧ o < m.networkBase + m.networkSize then .networkStub
      else if m.videoBase ≤ o ∧ o < m.videoBase + m.videoSize then .videoStub
      else .unassigned := by
  simp only [IoMap.slots, List.mem_cons, List.not_mem_nil, or_false, not_or] at h
  obtain ⟨hstatus, hdata, hcontrol, hvalue, hmask, hgpio⟩ := h
  simp only [ioTarget, *, if_false]

/-- A write at an offset in no slot is logged, as a stub write in the stub ranges (20_memory R43). -/
theorem State.ioWriteByte_of_not_slot (s : State) (a : Word) (v : Byte) {o : Nat}
    (h : o - o % 4 ∉ s.cfg.ioMap.slots) :
    s.ioWriteByte o a v =
      if (s.cfg.ioMap.networkBase ≤ o ∧ o < s.cfg.ioMap.networkBase + s.cfg.ioMap.networkSize)
          ∨ (s.cfg.ioMap.videoBase ≤ o ∧ o < s.cfg.ioMap.videoBase + s.cfg.ioMap.videoSize)
      then s.emit (.ioStubWrite a v) else s.emit (.ioWriteIgnored a v) := by
  unfold State.ioWriteByte
  rw [ioTarget_of_not_slot h]
  by_cases hnetwork : s.cfg.ioMap.networkBase ≤ o ∧ o < s.cfg.ioMap.networkBase + s.cfg.ioMap.networkSize
  · simp [hnetwork]
  · by_cases hvideo : s.cfg.ioMap.videoBase ≤ o ∧ o < s.cfg.ioMap.videoBase + s.cfg.ioMap.videoSize <;>
      simp [hnetwork, hvideo]

/-! ### `UART_DATA` -/

/-- A byte write to lane `k` of `UART_DATA` transmits on lane 0 and does nothing on the others
(20_memory R43). -/
theorem State.writeByte_uartData (s : State) (a : Word) (v : Byte) (k : Nat) (hk : k < 4)
    (hwf : s.cfg.ioMap.wf = true) (hrom : s.romLen ≤ 0x80000000) (hram : s.ramLen ≤ 0x70000000)
    (ha : a.toNat = 0xF0000000 + (s.cfg.ioMap.uartData + k)) :
    s.writeByte a v = if k = 0 then s.emit (.outChar v) else s := by
  obtain ⟨hslots, hnodup⟩ := IoMap.slots_of_wf hwf
  obtain ⟨haligned, -⟩ := hslots s.cfg.ioMap.uartData (by simp [IoMap.slots])
  obtain ⟨-, hdata, -⟩ := ioTarget_of_slot hnodup (s.cfg.ioMap.uartData + k)
  have lane : (s.cfg.ioMap.uartData + k) % 4 = k := by omega
  rw [s.writeByte_io a v _ hrom hram ha]
  simp [State.ioWriteByte, hdata (by omega), lane]

/-- A word store to the slot of `UART_DATA` transmits its lowest byte and nothing else
(20_memory R37, R43). -/
theorem State.writeWord_uartData (s : State) (a v : Word) (hwf : s.cfg.ioMap.wf = true)
    (hrom : s.romLen ≤ 0x80000000) (hram : s.ramLen ≤ 0x70000000)
    (ha : a.toNat = 0xF0000000 + s.cfg.ioMap.uartData) :
    s.writeWord a v = s.emit (.outChar (byteOfWord v 0)) := by
  obtain ⟨hslots, -⟩ := IoMap.slots_of_wf hwf
  obtain ⟨-, hinside⟩ := hslots s.cfg.ioMap.uartData (by simp [IoMap.slots])
  have first : s.writeByte a (byteOfWord v 0) = s.emit (.outChar (byteOfWord v 0)) := by
    rw [s.writeByte_uartData a _ 0 (by omega) hwf hrom hram ha, if_pos rfl]
  have later (b : Word) (k : Nat) (hk : 0 < k ∧ k < 4)
      (hb : b.toNat = 0xF0000000 + (s.cfg.ioMap.uartData + k)) :
      (s.emit (.outChar (byteOfWord v 0))).writeByte b (byteOfWord v k)
        = s.emit (.outChar (byteOfWord v 0)) := by
    rw [State.writeByte_uartData (s.emit _) b _ k hk.2 hwf hrom hram hb, if_neg (by omega)]
  rw [State.writeWord, first, later (a + 1) 1 (by omega) (by bv_omega),
    later (a + 2) 2 (by omega) (by bv_omega), later (a + 3) 3 (by omega) (by bv_omega)]

/-! ### The alignment checks -/

/-- A word access at a misaligned address halts under `ALIGN_CHECK` (20_memory R39). -/
theorem State.aligned_of_misaligned (s : State) {ea : Word} (k : Result)
    (h : s.cfg.alignCheck = true ∧ ea.extractLsb' 0 2 ≠ 0#2) :
    s.aligned ea k = .next (s.halt (.misaligned s.pc ea)) :=
  if_pos (by simpa [misaligned] using h)

/-- Without `ALIGN_CHECK`, and at an aligned address, a word access goes on (20_memory R39). -/
theorem State.aligned_of_not_misaligned (s : State) {ea : Word} (k : Result)
    (h : ¬(s.cfg.alignCheck = true ∧ ea.extractLsb' 0 2 ≠ 0#2)) : s.aligned ea k = k :=
  if_neg (by simpa [misaligned] using h)

theorem exec_mipsLw_of_known (s : State) (rs rt : BitVec 5) (imm : BitVec 16) (hrs : s.known rs = true) :
    exec (.mipsLw rs rt imm) s =
      s.aligned (s.effectiveAddress rs imm)
        (.next (((s.readWord (s.effectiveAddress rs imm)).2.writeReg rt
          (s.readWord (s.effectiveAddress rs imm)).1).complete (s.pc + 4))) :=
  s.reading_of_known _ _ (by simp [State.allKnown, hrs])

theorem exec_mipsSw_of_known (s : State) (rs rt : BitVec 5) (imm : BitVec 16) (hrs : s.known rs = true)
    (hrt : s.known rt = true) :
    exec (.mipsSw rs rt imm) s =
      s.aligned (s.effectiveAddress rs imm)
        (.next ((s.writeWord (s.effectiveAddress rs imm) (s.readReg rt)).complete (s.pc + 4))) :=
  s.reading_of_known _ _ (by simp [State.allKnown, hrs, hrt])

theorem OnlyReads.ir {s t : State} (h : OnlyReads s t) : t.ir = s.ir := by
  obtain ⟨as, n, rfl⟩ := h; rfl

theorem OnlyReads.instructionCount {s t : State} (h : OnlyReads s t) :
    t.instructionCount = s.instructionCount := by
  obtain ⟨as, n, rfl⟩ := h; rfl

theorem OnlyWrites.ir {s t : State} (h : OnlyWrites s t) : t.ir = s.ir := by
  obtain ⟨m, io, evs, rfl⟩ := h; rfl

theorem OnlyWrites.instructionCount {s t : State} (h : OnlyWrites s t) :
    t.instructionCount = s.instructionCount := by
  obtain ⟨m, io, evs, rfl⟩ := h; rfl

/-- No instruction writes `ir` (40_cycle R74). -/
theorem Does.ir {i : Instr} {s t : State} (h : Does i s t) : t.ir = s.ir := by
  cases h with
  | halts c => rfl
  | jumps t => rfl
  | setsReg d v t hd => simp
  | setsFlags f d v t hi hd => simp
  | loads a d t hd => simp [(s.readWord_onlyReads a).ir]
  | stores a v t => exact (s.writeWord_onlyWrites a v).ir
  | printsInt n t => rfl
  | printsText n a t => exact (State.readString_onlyReads n s a).ir

/-- Executing a word leaves it in `ir`, whether it completes or halts (40_cycle R74, 60_exceptions R134). -/
theorem State.issue_ir (s : State) (w : Word) : ∃ t, s.issue w = .next t ∧ t.ir = w := by
  rcases s.issue_next w with ⟨i, t, -, -, -, ht, hdoes⟩ | ⟨-, ht⟩
  · exact ⟨t, ht, hdoes.ir⟩
  · exact ⟨_, ht, rfl⟩

/-- With no stop due and budget left, a step whose fetch address is refused for its alignment halts
(60_exceptions R138). -/
theorem State.startCause_misaligned (s : State)
    (hstop : s.stopRequested = true → s.instructionCount % s.cfg.stopCheckInterval ≠ 0)
    (hbudget : ∀ n, s.cfg.cycleBudget = some n → s.instructionCount < n)
    (h : s.cfg.alignCheck = true ∧ s.cfg.isa ≠ .x86 ∧ s.pc.extractLsb' 0 2 ≠ 0#2) :
    s.startCause = some (.misaligned s.pc s.pc) := by
  have notDue : s.stopDue = false := by simpa [State.stopDue] using hstop
  have notSpent : s.budgetSpent = false := by
    unfold State.budgetSpent; cases e : s.cfg.cycleBudget <;> simp_all
  have refused : s.fetchMisaligned = true := by simpa [State.fetchMisaligned, misaligned, and_assoc] using h
  simp [State.startCause, notDue, notSpent, refused]

/-! ### The statements -/

/-- Settles O28, from the read's four regions and what a read may change. -/
theorem readByteByRegion : Obligations.ReadByteByRegion :=
  fun s a => ⟨s.readByte_onlyReads a, s.readByte_eq a⟩

/-- Settles O29: the write's four regions; in RAM, memory reads back the byte and keeps its form. -/
theorem writeByteByRegion : Obligations.WriteByteByRegion := by
  intro s a v hwf
  have hpeek := fun b => s.writeByte_peek a b v hwf
  have hmem := s.writeByte_memWf a v hwf
  have heq := s.writeByte_eq a v
  split_ifs at heq ⊢ with hrom hram hio
  · exact heq
  · have isRam : s.isRam a = true := (s.isRam_iff a).2 ⟨by omega, hram⟩
    exact ⟨by rw [heq], hmem, fun b => by simpa [isRam] using hpeek b⟩
  · exact heq
  · exact heq

/-- Settles O30: the composition of the four bytes is their concatenation. -/
theorem readWordIsFourByteReads : Obligations.ReadWordIsFourByteReads := by
  intro s s1 s2 s3 s4 a b0 b1 b2 b3 h0 h1 h2 h3
  simp only [State.readWord, h0, h1, h2, h3, wordOfBytes_eq_append]

/-- Settles O31, from the law of memory after a word write. -/
theorem writeWordIsFourByteWrites : Obligations.WriteWordIsFourByteWrites :=
  fun s a v => ⟨rfl, fun hwf b => s.writeWord_peek a v b hwf⟩

/-- Settles O35: the write goes to the MMIO window, and the slots being apart say what it does there. -/
theorem mmioWrites : Obligations.MmioWrites := by
  intro s a v o lane hwf hrom hram ha hlane
  subst hlane
  have hlane : o % 4 < 4 := Nat.mod_lt _ (by omega)
  have hio := s.writeByte_io a v o hrom hram ha
  obtain ⟨-, hnodup⟩ := IoMap.slots_of_wf hwf
  obtain ⟨status, data, control, value, mask, gpio⟩ := ioTarget_of_slot hnodup o
  refine ⟨fun e => ?_, fun e => ?_, fun e => ?_, fun e => ?_, fun e => ?_, fun e => ?_, fun e => ?_⟩
  · exact ⟨_, by rw [hio, State.ioWriteByte, control e], byteOfWord_setLane _ v _ hlane⟩
  · exact ⟨_, by rw [hio, State.ioWriteByte, mask e], byteOfWord_setLane _ v _ hlane⟩
  · exact ⟨_, by rw [hio, State.ioWriteByte, gpio e], byteOfWord_setLane _ v _ hlane⟩
  · rw [hio, State.ioWriteByte, data e]; rfl
  · rcases e with e | e
    · rw [hio, State.ioWriteByte, status e]; rfl
    · rw [hio, State.ioWriteByte, value e]; rfl
  · rw [hio, s.ioWriteByte_of_not_slot a v e]; rfl
  · exact s.writeWord_uartData a _ hwf hrom hram (by rw [ha, e])

/-- Settles O15: the fetch's check at the start of the step, then the word access's own. -/
theorem alignmentIsChecked : Obligations.AlignmentIsChecked := by
  refine ⟨fun s hactive hstop hbudget => ?_, fun s rs rt imm hrs hrt => ?_⟩
  · split_ifs with h
    · refine ⟨_, ?_, rfl⟩
      rw [step, s.attempt_active _ hactive, s.startCause_misaligned hstop hbudget h]; rfl
    · have mayFetch : s.MayFetch := ⟨hstop, hbudget, fun hcheck hisa => by tauto⟩
      rw [step, s.attempt_mayFetch _ hactive mayFetch]
      exact State.issue_ir _ _
  · have lw := exec_mipsLw_of_known s rs rt imm hrs
    have sw := exec_mipsSw_of_known s rs rt imm hrs hrt
    split_ifs with h <;> refine List.forall_mem_cons.2 ⟨?_, List.forall_mem_singleton.2 ?_⟩
    · exact ⟨_, lw.trans (s.aligned_of_misaligned _ h), rfl⟩
    · exact ⟨_, sw.trans (s.aligned_of_misaligned _ h), rfl⟩
    · refine ⟨_, lw.trans (s.aligned_of_not_misaligned _ h), rfl, ?_, rfl⟩
      simp [(s.readWord_onlyReads _).instructionCount]
    · refine ⟨_, sw.trans (s.aligned_of_not_misaligned _ h), rfl, ?_, rfl⟩
      simp [(s.writeWord_onlyWrites _ _).instructionCount]

end Sys2Proof.Machine

/-! SUPPORT and PROOFS. The family `30_encoding`: when a word has a row's fixed fields, what the decoder answers,
and what a core does with a word that is no instruction. -/

namespace Sys2Proof

/-! ### Masks as lists of fields -/

/-- A field of a field is a field of the word. -/
theorem extractLsb'_field (w : Word) {lo len lo' len' : Nat} (h : lo' + len' ≤ len) :
    (field w lo len).extractLsb' lo' len' = field w (lo + lo') len' := by
  apply BitVec.eq_of_getElem_eq; intro i hi
  have hlt : lo' + i < len := by omega
  simp [field, hlt, Nat.add_assoc]

theorem field_and (v w : Word) (lo len : Nat) : field (v &&& w) lo len = field v lo len &&& field w lo len := by
  apply BitVec.eq_of_getElem_eq; intro i hi; simp [field]

/-- Two words agree under the mask of a field when they agree in the field. -/
theorem and_place_allOnes_eq_iff (v w : Word) (lo len : Nat) :
    v &&& place (BitVec.allOnes len) lo = w &&& place (BitVec.allOnes len) lo
      ↔ field v lo len = field w lo len := by
  constructor
  · intro h
    apply BitVec.eq_of_getElem_eq; intro i hi
    have hbit := congrArg (fun u => u.getLsbD (lo + i)) h
    by_cases hlt : lo + i < 32
    · simpa [field, place, hlt, hi] using hbit
    · simp [field, BitVec.getLsbD_of_ge _ _ (Nat.le_of_not_lt hlt)]
  · intro h
    rw [BitVec.and_comm v, BitVec.and_comm w, place_and, place_and, h]

/-- The mask that covers a list of fields, each given by its lowest bit and its length. -/
def fieldsMask : List (Nat × Nat) → Word
  | [] => 0
  | f :: fs => place (BitVec.allOnes f.2) f.1 ||| fieldsMask fs

/-- Two words agree under the mask of some fields when they agree in each of them. -/
theorem and_fieldsMask_eq_iff (v w : Word) (fs : List (Nat × Nat)) :
    v &&& fieldsMask fs = w &&& fieldsMask fs ↔ ∀ f ∈ fs, field v f.1 f.2 = field w f.1 f.2 := by
  have and_or_eq_iff (a b : Word) :
      v &&& (a ||| b) = w &&& (a ||| b) ↔ v &&& a = w &&& a ∧ v &&& b = w &&& b := by
    simp only [BitVec.eq_of_getLsbD_eq_iff, BitVec.getLsbD_and, BitVec.getLsbD_or]
    grind
  induction fs with
  | nil => simp [fieldsMask]
  | cons f fs ih =>
    simp only [fieldsMask, and_or_eq_iff, and_place_allOnes_eq_iff, ih, List.forall_mem_cons]

/-- A word has the fixed fields of a row when it agrees with the row's pattern in every field that the mask
covers (30_encoding R56). -/
theorem and_eq_iff_fields {m p : Word} (fs : List (Nat × Nat)) (hm : fieldsMask fs = m) (hp : p &&& m = p)
    (w : Word) : w &&& m = p ↔ ∀ f ∈ fs, field w f.1 f.2 = field p f.1 f.2 := by
  rw [← and_fieldsMask_eq_iff, hm, hp]

/-! ### Rows apart -/

/-- Two rows whose patterns differ in a bit that both masks cover have no word in common (30_encoding R56). -/
theorem not_and_eq_both {p m p' m' : Word} (h : p &&& m' ≠ p' &&& m) (w : Word) :
    ¬(w &&& m = p ∧ w &&& m' = p') := by
  rintro ⟨rfl, rfl⟩
  exact h (by ac_rfl)

theorem rowMatches_iff (r : Row) (w : Word) : rowMatches r w = true ↔ w &&& r.mask = r.pat := by
  simp [rowMatches]

/-- In a map whose rows are apart, a word that matches a row is that row's instruction (30_encoding R56). -/
theorem decodeRows_of_mem {rows : List Row} (apart : rows.Pairwise (fun r q => r.pat &&& q.mask ≠ q.pat &&& r.mask))
    {r : Row} (hr : r ∈ rows) {w : Word} (hw : rowMatches r w = true) (no : Reject) :
    decodeRows rows no w = .ok (r.build w) := by
  have first : rows.find? (fun q => rowMatches q w) = some r := by
    induction apart with
    | nil => cases hr
    | @cons q rows hq _ ih =>
      rcases List.mem_cons.1 hr with rfl | hr
      · simp [hw]
      · have hqw : rowMatches q w = false := by
          rw [Bool.eq_false_iff, Ne, rowMatches_iff]
          exact fun h => not_and_eq_both (hq r hr) w ⟨h, (rowMatches_iff r w).1 hw⟩
        rw [List.find?_cons_of_neg (by simp [hqw]), ih hr]
  rw [decodeRows, first]

/-- A word that matches no row is no instruction (30_encoding R65). -/
theorem decodeRows_of_forall_not {rows : List Row} {w : Word} (h : ∀ r ∈ rows, rowMatches r w = false)
    (no : Reject) : decodeRows rows no w = .error no := by
  rw [decodeRows, List.find?_eq_none.2 (by simpa using h)]

open Laws.EncodesRow (rowsOf)

/-! ### What the decoder answers -/

/-- A field that a row fixes has the row's value in every word of the row. -/
theorem field_of_rowMatches {r : Row} {w : Word} (h : rowMatches r w = true) {lo len : Nat} {v : BitVec len}
    (fixed : field r.mask lo len = BitVec.allOnes len ∧ field r.pat lo len = v) : field w lo len = v := by
  obtain ⟨hmask, rfl⟩ := fixed
  rw [← (rowMatches_iff r w).1 h, field_and, hmask, BitVec.and_allOnes]

/-- The class bits of an ARM word are the upper two of bits 27 to 25 (30_encoding R57). -/
theorem field_26_2_eq (w : Word) : field w 26 2 = (field w 25 3).extractLsb' 1 2 :=
  (extractLsb'_field w (by decide : 1 + 2 ≤ 3)).symm

theorem decodeArm_of_branchRow {r : Row} (hr : r ∈ armBranchRows) {w : Word} (hw : rowMatches r w = true) :
    decodeArm w = .ok (r.build w) := by
  have fixed : ∀ r ∈ armBranchRows,
      (field r.mask 28 4 = BitVec.allOnes 4 ∧ field r.pat 28 4 = 0b1110#4)
        ∧ (field r.mask 25 3 = BitVec.allOnes 3 ∧ field r.pat 25 3 = 0b101#3) := by decide
  have condition := field_of_rowMatches hw (fixed r hr).1
  have branch := field_of_rowMatches hw (fixed r hr).2
  rw [decodeArm, if_neg (not_not.2 condition), if_pos branch, decodeRows_of_mem (by decide) hr hw]

theorem decodeArm_of_dataRow {r : Row} (hr : r ∈ armDataRows) {w : Word} (hw : rowMatches r w = true)
    (wf : (r.build w).wf = true) : decodeArm w = .ok (r.build w) := by
  have fixed : ∀ r ∈ armDataRows,
      (field r.mask 28 4 = BitVec.allOnes 4 ∧ field r.pat 28 4 = 0b1110#4)
        ∧ (field r.mask 26 2 = BitVec.allOnes 2 ∧ field r.pat 26 2 = 0b00#2) := by decide
  have condition := field_of_rowMatches hw (fixed r hr).1
  have dataClass := field_of_rowMatches hw (fixed r hr).2
  have noBranch : field w 25 3 ≠ 0b101#3 := fun h => by simp [field_26_2_eq, h] at dataClass
  rw [decodeArm, if_neg (not_not.2 condition), if_neg noBranch, if_pos dataClass,
    decodeRows_of_mem (by decide) hr hw]
  exact if_pos wf

/-- The rows of each map are apart (30_encoding R65). -/
theorem rowsOf_apart (isa : Isa) :
    (rowsOf isa).Pairwise (fun r q => r.pat &&& q.mask ≠ q.pat &&& r.mask) := by
  cases isa <;> decide

/-- A word decodes to `i` just when `i` is well-formed and is what a row of the map reads from it
(30_encoding R56, R59, R65). -/
theorem decode_ok_iff (isa : Isa) (w : Word) (i : Instr) :
    decode isa w = .ok i ↔ (∃ r ∈ rowsOf isa, rowMatches r w = true ∧ i = r.build w) ∧ i.wf = true := by
  constructor
  · intro h
    refine ⟨?_, decode_wf h⟩
    cases isa with
    | mips | powerPc | x86 => exact decodeRows_ok h
    | arm =>
      rcases decodeArm_ok h with ⟨r, hr, hi⟩ | ⟨⟨r, hr, hi⟩, -⟩
      · exact ⟨r, List.mem_append_left _ hr, hi⟩
      · exact ⟨r, List.mem_append_right _ hr, hi⟩
  · rintro ⟨⟨r, hr, hw, rfl⟩, wf⟩
    cases isa with
    | mips | powerPc | x86 => exact decodeRows_of_mem (rowsOf_apart _) hr hw _
    | arm =>
      rcases List.mem_append.1 hr with hr | hr
      · exact decodeArm_of_branchRow hr hw
      · exact decodeArm_of_dataRow hr hw wf

/-- The reading of one row, by its pattern and mask. -/
theorem decode_of_row {isa : Isa} {w : Word} (r : Row) (hr : r ∈ rowsOf isa) (hw : w &&& r.mask = r.pat)
    (wf : (r.build w).wf = true) : decode isa w = .ok (r.build w) :=
  (decode_ok_iff isa w _).2 ⟨⟨r, hr, (rowMatches_iff r w).2 hw, rfl⟩, wf⟩

theorem decode_error_iff (isa : Isa) (w : Word) :
    (∃ r, decode isa w = .error r) ↔ ¬∃ i, decode isa w = .ok i := by
  cases decode isa w <;> simp

/-! ### The map of each instruction set -/

/-- The maps as claims write them hold the decoder's rows (30_encoding R56, R60, R62, R64). -/
theorem opcodeMap_perm (isa : Isa) :
    (Machine.opcodeMap isa).Perm ((rowsOf isa).map (fun r => (r.pat, r.mask))) := by
  cases isa <;> decide

theorem matches_opcodeMap_iff (isa : Isa) (w : Word) :
    (∃ r ∈ Machine.opcodeMap isa, w &&& r.2 = r.1) ↔ ∃ r ∈ rowsOf isa, rowMatches r w = true := by
  simp [(opcodeMap_perm isa).mem_iff, rowMatches_iff]

/-- Only ARM operands are bound by more than the widths of their fields (30_encoding R59). -/
theorem Instr.wf_of_isa_ne_arm {i : Instr} (h : i.isa ≠ .arm) : i.wf = true := by
  revert h; cases i <;> simp [Instr.isa, Instr.wf]

theorem isa_of_mem_rowsOf {isa : Isa} {r : Row} (hr : r ∈ rowsOf isa) (w : Word) : (r.build w).isa = isa := by
  cases isa <;> revert r <;>
    simp [rowsOf, mipsRows, armBranchRows, armDataRows, ppcRows, x86Rows, Instr.isa]

/-- What a data-processing row reads is well-formed when the word does not name `r15`
(30_encoding R59 step 3). -/
theorem armDataRow_wf_iff {r : Row} (hr : r ∈ armDataRows) {w : Word} (hw : rowMatches r w = true) :
    (r.build w).wf = true ↔ ¬ Machine.namesR15 w := by
  have fixed : ∀ r ∈ armDataRows, field r.mask 26 2 = BitVec.allOnes 2 ∧ field r.pat 26 2 = 0b00#2 := by decide
  have dataClass := field_of_rowMatches hw (fixed r hr)
  have form (v : BitVec 1) := field_of_rowMatches hw (lo := 25) (len := 1) (v := v)
  have noRn := field_of_rowMatches hw (lo := 16) (len := 4) (v := 0#4)
  simp only [armDataRows, List.mem_cons, List.not_mem_nil, or_false] at hr
  simp only [Machine.namesR15, dataClass, true_and]
  rcases hr with rfl | rfl | rfl | rfl | rfl | rfl
  · simp [Instr.wf, armRegOk, form 1 (by decide), and_comm]
  · simp [Instr.wf, armRegOk, form 0 (by decide), and_comm, and_left_comm]
  · simp [Instr.wf, armRegOk, form 1 (by decide), and_comm]
  · simp [Instr.wf, armRegOk, form 0 (by decide), and_comm, and_left_comm]
  · simp [Instr.wf, armRegOk, form 1 (by decide), noRn (by decide)]
  · simp [Instr.wf, armRegOk, form 0 (by decide), noRn (by decide)]

/-- A word that matches a row is read as a well-formed instruction, on ARM if it does not name `r15`. -/
theorem row_wf_iff {isa : Isa} {r : Row} (hr : r ∈ rowsOf isa) {w : Word} (hw : rowMatches r w = true) :
    (r.build w).wf = true ↔ (isa = .arm → ¬ Machine.namesR15 w) := by
  by_cases harm : isa = .arm
  · subst harm
    rcases List.mem_append.1 hr with hbranch | hdata
    · have fixed : ∀ r ∈ armBranchRows,
          field r.mask 26 2 = BitVec.allOnes 2 ∧ field r.pat 26 2 = 0b10#2 := by decide
      have branchClass := field_of_rowMatches hw (fixed r hbranch)
      have wf : ∀ r ∈ armBranchRows, (r.build w).wf = true := by simp [armBranchRows, Instr.wf]
      simp [wf r hbranch, Machine.namesR15, branchClass]
    · simp [armDataRow_wf_iff hdata hw]
  · have wf := Instr.wf_of_isa_ne_arm (i := r.build w) (by rwa [isa_of_mem_rowsOf hr])
    simp [wf, harm]

/-- A word is an instruction of a core just when it lies in the core's map (30_encoding R65). -/
theorem exists_decode_ok_iff (isa : Isa) (w : Word) : (∃ i, decode isa w = .ok i) ↔ Machine.InMap isa w := by
  rw [Machine.InMap, matches_opcodeMap_iff]
  constructor
  · rintro ⟨i, hi⟩
    obtain ⟨⟨r, hr, hw, rfl⟩, wf⟩ := (decode_ok_iff isa w i).1 hi
    exact ⟨⟨r, hr, hw⟩, (row_wf_iff hr hw).1 wf⟩
  · rintro ⟨⟨r, hr, hw⟩, hr15⟩
    exact ⟨_, decode_of_row r hr ((rowMatches_iff r w).1 hw) ((row_wf_iff hr hw).2 hr15)⟩

/-! ### ARM words -/

/-- The immediate bit `I` is a bit of the data-processing key `w[31:21]` (30_encoding R57, R59). -/
theorem field_25_1_eq (w : Word) : field w 25 1 = (field w 21 11).extractLsb' 4 1 :=
  (extractLsb'_field w (by decide : 4 + 1 ≤ 11)).symm

/-- The rows of the ARM map, field by field: a branch by `w[31:24]`, or one of the six keys of R59 step 3 with
`S = 0`, no shift in a register form and no `Rn` in a MOV (30_encoding R59, R60). -/
theorem matches_armMap_iff (w : Word) :
    (∃ r ∈ Machine.opcodeMap .arm, w &&& r.2 = r.1) ↔
      field w 24 8 ∈ [0xEA#8, 0xEB#8]
        ∨ field w 21 11 ∈ [0x714#11, 0x704#11, 0x712#11, 0x702#11, 0x71D#11, 0x70D#11]
          ∧ field w 20 1 = 0#1
          ∧ (field w 25 1 = 0#1 → field w 4 8 = 0#8)
          ∧ (field w 21 11 ∈ [0x71D#11, 0x70D#11] → field w 16 4 = 0#4) := by
  have branch (p : Word) (hp) := and_eq_iff_fields (m := 0xFF000000) (p := p) [(24, 8)] (by decide) hp w
  have imm (p : Word) (hp) := and_eq_iff_fields (m := 0xFFF00000) (p := p) [(21, 11), (20, 1)] (by decide) hp w
  have reg (p : Word) (hp) :=
    and_eq_iff_fields (m := 0xFFF00FF0) (p := p) [(21, 11), (20, 1), (4, 8)] (by decide) hp w
  have movImm (p : Word) (hp) :=
    and_eq_iff_fields (m := 0xFFFF0000) (p := p) [(21, 11), (20, 1), (16, 4)] (by decide) hp w
  have movReg (p : Word) (hp) :=
    and_eq_iff_fields (m := 0xFFFF0FF0) (p := p) [(21, 11), (20, 1), (16, 4), (4, 8)] (by decide) hp w
  -- the rows one by one, each mask read as the fields it covers
  simp only [Machine.opcodeMap, List.exists_mem_cons_iff, List.not_mem_nil, false_and, exists_false, or_false]
  rw [imm _ (by decide), reg _ (by decide), imm _ (by decide), reg _ (by decide), movImm _ (by decide),
    movReg _ (by decide), branch _ (by decide), branch _ (by decide), field_25_1_eq]
  simp only [List.forall_mem_cons, List.not_mem_nil, false_imp_iff, implies_true, and_true]
  generalize field w 21 11 = key, field w 24 8 = op, field w 20 1 = S, field w 4 8 = shift, field w 16 4 = rn
  simp only [field, BitVec.ofNat_eq_ofNat, BitVec.reduceExtractLsb', List.mem_cons, List.not_mem_nil, or_false]
  constructor
  · rintro (⟨rfl, rfl⟩ | ⟨rfl, rfl, rfl⟩ | ⟨rfl, rfl⟩ | ⟨rfl, rfl, rfl⟩ | ⟨rfl, rfl, rfl⟩
      | ⟨rfl, rfl, rfl, rfl⟩ | rfl | rfl) <;> simp
  · rintro ((rfl | rfl) | ⟨rfl | rfl | rfl | rfl | rfl | rfl, rfl, hshift, hrn⟩) <;> simp_all

/-- `w[27:25] = 0b101` is a branch, with a link when `w[24]` is set (30_encoding R59 step 2). -/
theorem decode_arm_branch {w : Word} (condition : field w 28 4 = 0b1110#4) (branch : field w 25 3 = 0b101#3) :
    decode .arm w
      = .ok (if field w 24 1 = 1#1 then .armBl (field w 0 24) else .armB (field w 0 24)) := by
  have row {p : Word} (hp : p &&& 0xFF000000 = p ∧ field p 28 4 = 0b1110#4 ∧ field p 25 3 = 0b101#3)
      (link : field w 24 1 = field p 24 1) : w &&& 0xFF000000 = p := by
    obtain ⟨hmask, hcondition, hbranch⟩ := hp
    refine (and_eq_iff_fields [(28, 4), (25, 3), (24, 1)] (by decide) hmask w).2 ?_
    simp [condition, branch, link, hcondition, hbranch]
  split_ifs with link
  · have bl := row (p := 0xEB000000) (by decide) link
    exact decode_of_row (armBranchRows[1]) (by simp [rowsOf, armBranchRows]) bl rfl
  · have noLink : field w 24 1 = 0#1 := (BitVec.eq_zero_or_eq_one _).resolve_right link
    have b := row (p := 0xEA000000) (by decide) noLink
    exact decode_of_row (armBranchRows[0]) (by simp [rowsOf, armBranchRows]) b rfl

/-! ### x86 words -/

/-- A word whose first byte is none of the three opcodes is no x86 instruction (30_encoding R64). -/
theorem decode_x86_of_opcode {w : Word} (h : field w 0 8 ∉ [0x01#8, 0x29#8, 0x89#8]) :
    decode .x86 w = .error .x86NoRow := by
  refine decodeRows_of_forall_not (fun r hr => Bool.eq_false_iff.2 fun hw => h ?_) _
  have fixed : ∀ r ∈ x86Rows,
      field r.mask 0 8 = BitVec.allOnes 8 ∧ field r.pat 0 8 ∈ [0x01#8, 0x29#8, 0x89#8] := by decide
  obtain ⟨hmask, hpat⟩ := fixed r hr
  rwa [field_of_rowMatches hw ⟨hmask, rfl⟩]

/-- Every word with the low 16 bits `89 C0` is `MOV EAX, EAX` (30_encoding R66). -/
theorem decode_x86_mov_self {w : Word} (h : field w 0 16 = 0xC089#16) : decode .x86 w = .ok (.x86Mov 0 0) := by
  have part {lo len : Nat} (hle : lo + len ≤ 16) : field w lo len = (0xC089#16).extractLsb' lo len := by
    rw [← h, extractLsb'_field w hle, Nat.zero_add]
  have row : w &&& 0x0000C0FF = 0x0000C089 := by
    refine (and_eq_iff_fields [(14, 2), (0, 8)] (by decide) (by decide) w).2 ?_
    simp only [List.forall_mem_cons, part (lo := 14) (len := 2) (by decide),
      part (lo := 0) (len := 8) (by decide)]
    simp [field]
  have decoded := decode_of_row (isa := .x86) (x86Rows[2]) (by simp [rowsOf, x86Rows]) row rfl
  rw [decoded]
  simp [x86Rows, part (lo := 11) (len := 3) (by decide), part (lo := 8) (len := 3) (by decide)]

end Sys2Proof

namespace Sys2Proof.Machine

/-! ### Words that are no instruction -/

theorem State.haltedWith_halt (s : State) (c : HaltCause) : HaltedWith s (s.halt c) c := rfl

/-- A word that is no instruction halts the core (30_encoding R65, 60_exceptions R134). -/
theorem State.issue_of_error (s : State) {w : Word} (h : ∃ r, decode s.cfg.isa w = .error r) :
    s.issue w = .next ((s.setIr w).halt (.unsupportedOpcode s.pc w)) := by
  obtain ⟨r, h⟩ := h
  rw [State.issue, h]

/-- A step runs the fetched word on the state after the fetch (40_cycle R74). -/
theorem step_of_mayFetch {s : State} (hactive : s.active) (hfetch : s.MayFetch) :
    step s = (s.readWord s.pc).2.issue (s.readWord s.pc).1 :=
  s.attempt_mayFetch _ hactive hfetch

theorem step_of_decode_error {s : State} (hactive : s.active) (hfetch : s.MayFetch)
    (h : ∃ r, decode s.cfg.isa (s.readWord s.pc).1 = .error r) :
    step s = .next (((s.readWord s.pc).2.setIr (s.readWord s.pc).1).halt
      (.unsupportedOpcode s.pc (s.readWord s.pc).1)) := by
  have reads := s.readWord_onlyReads s.pc
  rw [step_of_mayFetch hactive hfetch, State.issue_of_error _ (by rwa [reads.cfg]), reads.pc]

theorem step_of_decode_ok {s : State} (hactive : s.active) (hfetch : s.MayFetch) {i : Instr}
    (h : decode s.cfg.isa (s.readWord s.pc).1 = .ok i) :
    step s = exec i ((s.readWord s.pc).2.setIr (s.readWord s.pc).1) := by
  rw [step_of_mayFetch hactive hfetch, State.issue, (s.readWord_onlyReads s.pc).cfg, h]

/-- The word that unmapped addresses read as is no instruction of any core (30_encoding R67). -/
theorem decode_unmappedWord (isa : Isa) : ∃ r, decode isa 0xFFFFFFFF = .error r := by
  cases isa <;> exact ⟨_, rfl⟩

/-- A word of zeros is `sll 0, 0, 0` on MIPS and no instruction of the other cores (30_encoding R66, R67). -/
theorem decode_mips_zeroWord : decode .mips 0x00000000 = .ok (.mipsSll 0 0 0) := rfl

theorem decode_zeroWord {isa : Isa} (h : isa ≠ .mips) : ∃ r, decode isa 0x00000000 = .error r := by
  cases isa
  · exact absurd rfl h
  all_goals exact ⟨_, rfl⟩

/-! ### Instructions that write a register's own value to it -/

/-- A completed instruction that writes a register's own value to it does nothing but go on. -/
theorem State.onlyJumps_writeReg_self (s : State) {d : RegIx} (hd : s.known d = true) (target : Word) :
    OnlyJumps s ((s.writeReg d (s.readReg d)).complete target) target := by
  obtain ⟨⟨value, hasValue⟩, rest⟩ := s.writesReg_complete d (s.readReg d) target
  refine ⟨⟨fun r => ?_, fun r => ?_⟩, rest⟩
  · rw [value]
    split_ifs with h
    · rw [h.1]
    · rfl
  · rw [hasValue]
    by_cases h : r = d <;> simp [h, hd]

theorem State.reading_setRegister_self (s : State) {d : RegIx} (hd : s.known d = true) {reads : List RegIx}
    (hreads : ∀ r ∈ reads, r = d) (target : Word) :
    ∃ t, s.reading reads (s.setRegister d (s.readReg d) target) = .next t ∧ OnlyJumps s t target :=
  ⟨_, s.reading_of_known _ _ (List.all_eq_true.2 fun r hr => hreads r hr ▸ hd), s.onlyJumps_writeReg_self hd target⟩

/-- `sll 0, 0, 0` with a register 0 that has a value (30_encoding R66). -/
theorem exec_mipsSll_zero (s : State) (h : s.known 0 = true) :
    ∃ t, exec (.mipsSll 0 0 0) s = .next t ∧ OnlyJumps s t (s.pc + 4) := by
  have shift : s.readReg 0 <<< (0 : BitVec 5).toNat = s.readReg 0 := by simp
  rw [exec, execMipsSll, shift]
  exact s.reading_setRegister_self h (by simp) _

/-! ### The statements -/

/-- Settles O3: each map's rows differ in a bit that both fix, the decoder answers the rows' instructions and no
others, and a step halts on every other word. -/
theorem unmatchedWordsHalt : Obligations.UnmatchedWordsHalt := by
  refine ⟨fun isa => ?_, fun isa w => exists_decode_ok_iff isa w, fun s hactive hfetch hmap => ?_⟩
  · rw [(opcodeMap_perm isa).pairwise_iff fun h w => (h w).imp And.symm, List.pairwise_map]
    exact (rowsOf_apart isa).imp fun h w => not_and_eq_both h w
  · rw [← exists_decode_ok_iff, ← decode_error_iff] at hmap
    exact ⟨_, step_of_decode_error hactive hfetch hmap, State.haltedWith_halt (State.setIr _ _) _⟩

/-- Settles O4, step by step; step 3 from the rows of the map and the words that name `r15`. -/
theorem armClassDecode : Obligations.ArmClassDecode := by
  intro w
  refine ⟨fun condition => ?_, decode_arm_branch, fun condition dataClass => ?_,
    fun condition loadStore => ?_, fun condition noData noLoadStore noBranch => ?_⟩
  · exact ⟨_, if_pos condition⟩
  · have noBranchRow : field w 24 8 ∉ [0xEA#8, 0xEB#8] := by
      have hclass : field w 26 2 = (field w 24 8).extractLsb' 2 2 :=
        (extractLsb'_field w (by decide : 2 + 2 ≤ 8)).symm
      intro h
      simp only [List.mem_cons, List.not_mem_nil, or_false] at h
      rcases h with h | h <;> simp [hclass, h] at dataClass
    rw [exists_decode_ok_iff, InMap, matches_armMap_iff]
    simp only [noBranchRow, false_or, namesR15, dataClass, true_and, forall_const]
    by_cases mov : field w 21 11 ∈ [0x71D#11, 0x70D#11]
    · have rnOk : field w 16 4 = 0#4 → field w 16 4 ≠ 15#4 := fun h => by rw [h]; decide
      simp only [mov, if_true, true_imp_iff]
      tauto
    · simp only [mov, if_false, false_imp_iff]
      tauto
  · have noBranch : field w 25 3 ≠ 0b101#3 := fun h => by simp [field_26_2_eq, h] at loadStore
    exact ⟨.armLoadStore, by simp [decode, decodeArm, condition, noBranch, loadStore]⟩
  · exact ⟨.armOtherClass, by simp [decode, decodeArm, condition, noBranch, noData, noLoadStore]⟩

/-- Settles O6: each word's instruction writes a register's own value to it, and the other two spellings are no
instruction. -/
theorem noOperationWords : Obligations.NoOperationWords := by
  refine ⟨fun s hisa hr0 => ⟨rfl, ?_⟩, fun s h0 => ⟨⟨rfl, ?_⟩, ⟨rfl, ?_⟩, fun w => decode_x86_mov_self, ?_⟩,
    fun s w hactive hfetch hw => ?_⟩
  · exact exec_mipsSll_zero s (by simp [State.known, State.hardwired, hisa, hr0])
  · exact s.reading_setRegister_self h0 (by simp; rfl) _
  · rw [exec, execPpcOr, BitVec.or_self]
    exact s.reading_setRegister_self h0 (by simp) _
  · exact s.reading_setRegister_self h0 (by simp; rfl) _
  · have noInstr : ∃ r, decode s.cfg.isa w = .error r := by
      rcases hw with ⟨hisa, rfl⟩ | ⟨hisa, hbyte⟩
      · rw [hisa]; exact ⟨.ppcNoRow, rfl⟩
      · rw [hisa]; exact ⟨_, decode_x86_of_opcode (by rw [hbyte]; decide)⟩
    exact ⟨_, (s.attempt_mayFetch _ hactive hfetch).trans (s.issue_of_error noInstr), rfl⟩

/-- Settles O36: neither `0xFFFFFFFF` nor, outside MIPS, 0 is an instruction, so a step that fetches it halts; on
MIPS 0 is `sll 0, 0, 0`. -/
theorem unmappedFetchHalts : Obligations.UnmappedFetchHalts := by
  refine ⟨fun s hactive hfetch hunmapped => ?_, decode_unmappedWord, fun w hw => ?_, rfl,
    fun isa => decode_zeroWord, fun s hactive hfetch hzero => ?_⟩
  · have fetched := s.readWord_unmapped s.pc fun k => by
      obtain ⟨hrom, hio, hram⟩ := hunmapped k
      rw [s.region_eq, if_neg (by omega), if_neg hram, if_neg (by omega)]
    rw [step_of_decode_error hactive hfetch (by rw [fetched]; exact decode_unmappedWord _), fetched]
    simp [State.halt, State.setIr, State.emit]
  · exact ⟨_, decode_x86_of_opcode (by rcases hw with hw | hw <;> rw [hw] <;> decide)⟩
  · have fetched : s.readWord s.pc = (0x00000000, s) := by
      have b0 : s.peek s.pc = 0 := by simpa using (hzero 0).2
      have b1 : s.peek (s.pc + 1) = 0 := (hzero 1).2
      have b2 : s.peek (s.pc + 2) = 0 := (hzero 2).2
      have b3 : s.peek (s.pc + 3) = 0 := (hzero 3).2
      rw [s.readWord_stored s.pc fun k => (hzero k).1, b0, b1, b2, b3]
      rfl
    have runs := step_of_decode_ok hactive hfetch (i := .mipsSll 0 0 0)
    rw [fetched] at runs
    refine ⟨fun hisa => ?_, fun hisa h0 => ?_, fun hisa h0 => ?_⟩
    · rw [step_of_decode_error hactive hfetch (by rw [fetched]; exact decode_zeroWord hisa), fetched]
      rfl
    · rw [runs (by rw [hisa]; exact decode_mips_zeroWord)]
      exact exec_mipsSll_zero (s.setIr 0) h0
    · rw [runs (by rw [hisa]; exact decode_mips_zeroWord)]
      exact ⟨_, State.reading_of_unknown _ _ _ (by simpa [State.allKnown] using h0), rfl⟩

end Sys2Proof.Machine

/-! SUPPORT and PROOFS. The family `40_cycle`: how a cycle ends, what halts a core before it fetches, and how far
a run goes. -/

namespace Sys2Proof

/-- The x86 decoder reads the low 16 bits of the word and no others (30_encoding R63, R64). -/
theorem decode_x86_low16 (w : Word) : decode .x86 w = decode .x86 (w &&& 0x0000FFFF#32) := by
  have reads : ∀ r ∈ x86Rows, rowMatches r w = rowMatches r (w &&& 0x0000FFFF#32)
      ∧ r.build w = r.build (w &&& 0x0000FFFF#32) := by
    have reg : field (w &&& 0x0000FFFF#32) 11 3 = field w 11 3 := (field_and _ _ _ _).trans BitVec.and_allOnes
    have rm : field (w &&& 0x0000FFFF#32) 8 3 = field w 8 3 := (field_and _ _ _ _).trans BitVec.and_allOnes
    simp [x86Rows, rowMatches, BitVec.and_assoc, reg, rm]
  unfold decode decodeRows
  rw [← List.find?_congr fun r hr => (reads r hr).1]
  cases found : x86Rows.find? (fun r => rowMatches r w) with
  | none => rfl
  | some r => exact congrArg _ (reads r (List.mem_of_find?_eq_some found)).2

end Sys2Proof

namespace Sys2Proof.Machine

/-! ### The checks at the start of a cycle -/

theorem State.stopDue_iff (s : State) :
    s.stopDue = true ↔ s.stopRequested = true ∧ s.instructionCount % s.cfg.stopCheckInterval = 0 := by
  simp [State.stopDue]

theorem State.budgetSpent_iff (s : State) :
    s.budgetSpent = true ↔ ∃ n, s.cfg.cycleBudget = some n ∧ n ≤ s.instructionCount := by
  unfold State.budgetSpent
  cases s.cfg.cycleBudget <;> simp

/-- The stop check is the first one (40_cycle R78, 60_exceptions R138). -/
theorem State.startCause_eq_stopped_iff (s : State) : s.startCause = some .stopped ↔ s.stopDue = true := by
  unfold State.startCause
  split_ifs <;> simp_all

/-- The budget check is the second one (40_cycle R77, 60_exceptions R138). -/
theorem State.startCause_eq_budgetExhausted_iff (s : State) :
    s.startCause = some .budgetExhausted ↔ s.stopDue = false ∧ s.budgetSpent = true := by
  unfold State.startCause
  split_ifs <;> simp_all

theorem step_of_startCause {s : State} (hactive : s.active) {c : HaltCause} (h : s.startCause = some c) :
    step s = .next (s.halt c) := by
  rw [step, s.attempt_active _ hactive, h]

/-- Where a cycle does not get past its guard, what it would have done does not matter (40_cycle R74). -/
theorem State.attempt_congr_of_not_mayFetch {s : State} (h : ¬(s.active ∧ s.MayFetch)) (k k' : Result) :
    s.attempt k = s.attempt k' := by
  by_cases hactive : s.active
  · rw [s.attempt_active k hactive, s.attempt_active k' hactive]
    cases hc : s.startCause with
    | none => exact absurd ⟨hactive, s.mayFetch_iff.2 hc⟩ h
    | some c => rfl
  · cases hs : s.status with
    | idle => rw [s.attempt_idle k hs, s.attempt_idle k' hs]
    | halted => rw [s.attempt_halted k hs, s.attempt_halted k' hs]
    | loaded => exact absurd (.inl hs) hactive
    | running => exact absurd (.inr hs) hactive

/-! ### How a cycle ends -/

/-- How a cycle that began in `s` ends in `t`: an instruction completed, or the core halted, with its cause
recorded and last in the trace (40_cycle R70, R71, R74). -/
inductive CycleEnds (s t : State) : Prop where
  | completes (status : t.status = .running) (count : t.instructionCount = s.instructionCount + 1)
  | halts (c : HaltCause) (status : t.status = .halted) (count : t.instructionCount = s.instructionCount)
      (cause : t.haltCause = some c) (last : t.trace.getLast? = some (.halted c))

theorem CycleEnds.halt (s : State) (c : HaltCause) : CycleEnds s (s.halt c) :=
  .halts c rfl rfl rfl (by simp)

/-- Only the count of the state a cycle began in matters for its end. -/
theorem CycleEnds.of_count_eq {s u t : State} (h : CycleEnds u t)
    (count : u.instructionCount = s.instructionCount) : CycleEnds s t := by
  cases h with
  | completes status countT => exact .completes status (by rw [countT, count])
  | halts c status countT cause last => exact .halts c status (by rw [countT, count]) cause last

theorem CycleEnds.count_le {s t : State} (h : CycleEnds s t) :
    t.instructionCount ≤ s.instructionCount + 1 := by
  cases h <;> omega

/-- An instruction completes or halts (40_cycle R70). -/
theorem Does.cycleEnds {i : Instr} {s t : State} (h : Does i s t) : CycleEnds s t := by
  cases h with
  | halts c => exact .halt s c
  | jumps t => exact .completes rfl rfl
  | setsReg d v t hd => exact .completes rfl (by simp)
  | setsFlags f d v t hi hd => exact .completes rfl (by simp)
  | loads a d t hd => exact .completes rfl (by simp [(s.readWord_onlyReads a).instructionCount])
  | stores a v t => exact .completes rfl (by simp [(s.writeWord_onlyWrites a v).instructionCount])
  | printsInt n t => exact .completes rfl rfl
  | printsText n a t =>
    exact .completes rfl (by simp [(State.readString_onlyReads n s a).instructionCount])

theorem State.issue_cycleEnds {s t : State} {w : Word} (h : s.issue w = .next t) : CycleEnds s t := by
  rcases s.issue_next w with ⟨i, u, -, -, -, hu, hdoes⟩ | ⟨-, hu⟩ <;> rw [hu] at h <;> cases h
  · exact hdoes.cycleEnds.of_count_eq rfl
  · exact (CycleEnds.halt (s.setIr w) _).of_count_eq rfl

theorem State.fetchAndIssue_cycleEnds {s t : State} (h : s.fetchAndIssue = .next t) : CycleEnds s t :=
  (State.issue_cycleEnds h).of_count_eq (s.readWord_onlyReads s.pc).instructionCount

/-- A guarded cycle starts in an active core, and halts at its start or ends as what it guards does. -/
theorem State.attempt_cycleEnds {s t : State} {k : Result} (hk : k = .next t → CycleEnds s t)
    (h : s.attempt k = .next t) : s.active ∧ CycleEnds s t := by
  obtain ⟨hactive, ⟨c, -, rfl⟩ | ⟨-, h⟩⟩ := State.attempt_next h
  · exact ⟨hactive, .halt s c⟩
  · exact ⟨hactive, hk h⟩

theorem step_cycleEnds {s t : State} (h : step s = .next t) : s.active ∧ CycleEnds s t :=
  State.attempt_cycleEnds State.fetchAndIssue_cycleEnds h

theorem State.execWord_cycleEnds {s t : State} {w : Word} (h : s.execWord w = .next t) :
    s.active ∧ CycleEnds s t :=
  State.attempt_cycleEnds State.issue_cycleEnds h

/-! ### The parameters and the stop flag along a step -/

theorem OnlyReads.stopRequested {s t : State} (h : OnlyReads s t) : t.stopRequested = s.stopRequested := by
  obtain ⟨as, n, rfl⟩ := h; rfl

theorem OnlyWrites.cfg {s t : State} (h : OnlyWrites s t) : t.cfg = s.cfg := by
  obtain ⟨m, io, evs, rfl⟩ := h; rfl

theorem OnlyWrites.stopRequested {s t : State} (h : OnlyWrites s t) : t.stopRequested = s.stopRequested := by
  obtain ⟨m, io, evs, rfl⟩ := h; rfl

/-- No instruction changes a parameter or the stop flag (40_cycle R78, assumption 1). -/
theorem Does.cfg_stopRequested {i : Instr} {s t : State} (h : Does i s t) :
    t.cfg = s.cfg ∧ t.stopRequested = s.stopRequested := by
  cases h with
  | halts c => exact ⟨rfl, rfl⟩
  | jumps t => exact ⟨rfl, rfl⟩
  | setsReg d v t hd => simp
  | setsFlags f d v t hi hd => simp
  | loads a d t hd => simp [(s.readWord_onlyReads a).cfg, (s.readWord_onlyReads a).stopRequested]
  | stores a v t => simp [(s.writeWord_onlyWrites a v).cfg, (s.writeWord_onlyWrites a v).stopRequested]
  | printsInt n t => exact ⟨rfl, rfl⟩
  | printsText n a t =>
    have reads := State.readString_onlyReads n s a
    exact ⟨reads.cfg, reads.stopRequested⟩

theorem step_cfg_stopRequested {s t : State} (h : step s = .next t) :
    t.cfg = s.cfg ∧ t.stopRequested = s.stopRequested := by
  have reads : OnlyReads s s.fetch.2 := s.readWord_onlyReads s.pc
  obtain ⟨-, ⟨c, -, rfl⟩ | ⟨-, ⟨i, -, -, -, hdoes⟩ | rfl⟩⟩ := step_next h
  · exact ⟨rfl, rfl⟩
  · simpa [reads.cfg, reads.stopRequested] using hdoes.cfg_stopRequested
  · simp [reads.cfg, reads.stopRequested]

/-! ### Causes that only the start of a cycle gives -/

/-- A result is no halt for a stop or for the budget: those come from the start of a cycle only
(40_cycle R77, R78). -/
def NoEarlyHalt (r : Result) : Prop :=
  ∀ t, r = .next t → t.status = .halted →
    t.haltCause ≠ some .stopped ∧ t.haltCause ≠ some .budgetExhausted

theorem NoEarlyHalt.complete (s : State) (target : Word) : NoEarlyHalt (.next (s.complete target)) := by
  intro t ht hhalted; cases ht; cases hhalted

theorem NoEarlyHalt.halt (s : State) {c : HaltCause} (h : c ≠ .stopped ∧ c ≠ .budgetExhausted) :
    NoEarlyHalt (.next (s.halt c)) := by
  intro t ht _; cases ht; simpa using h

theorem NoEarlyHalt.reading {s : State} {rs : List RegIx} {k : Result} (h : NoEarlyHalt k) :
    NoEarlyHalt (s.reading rs k) := by
  unfold State.reading
  split
  · exact h
  · exact .halt s (by simp)

theorem NoEarlyHalt.aligned {s : State} {ea : Word} {k : Result} (h : NoEarlyHalt k) :
    NoEarlyHalt (s.aligned ea k) := by
  unfold State.aligned
  split
  · exact .halt s (by simp)
  · exact h

theorem NoEarlyHalt.setRegister (s : State) (d : RegIx) (v t : Word) : NoEarlyHalt (s.setRegister d v t) :=
  .complete _ t

theorem NoEarlyHalt.setChecked (s : State) (o : Bool) (d : RegIx) (v : Word) :
    NoEarlyHalt (s.setChecked o d v) := by
  unfold State.setChecked
  split
  · exact .halt s (by simp)
  · exact .setRegister s d v _

/-- No instruction halts for a stop or for the budget. -/
theorem exec_noEarlyHalt (i : Instr) (s : State) : NoEarlyHalt (exec i s) := by
  cases i with
  | mipsSll | mipsSrl | mipsAnd | mipsOr | mipsNor | mipsAndi | mipsOri | mipsXori
  | armAddImm | armAddReg | armSubImm | armSubReg | armMovReg
  | ppcAddi | ppcSubf | ppcAdd | ppcOr | x86Add | x86Sub | x86Mov => exact .reading (.setRegister _ _ _ _)
  | mipsAdd | mipsSub | mipsAddi => exact .reading (.setChecked _ _ _ _)
  | mipsBeq | mipsBne | mipsJr => exact .reading (.complete _ _)
  | mipsSyscall code =>
    refine .reading ?_
    split
    · exact .reading (.complete _ _)
    · split
      · exact .reading (.complete _ _)
      · exact .halt s (by simp)
  | mipsLw => exact .reading (.aligned (.setRegister _ _ _ _))
  | mipsSw => exact .reading (.aligned (.complete _ _))
  | armMovImm | armBl => exact .setRegister _ _ _ _
  | armB => exact .complete _ _

theorem State.issue_noEarlyHalt (s : State) (w : Word) : NoEarlyHalt (s.issue w) := by
  unfold State.issue
  split
  · exact exec_noEarlyHalt _ _
  · exact .halt _ (by simp)

/-- A step that halts for a stop or for the budget does so at its start. -/
theorem startCause_of_step_halted {s t : State} (h : step s = .next t) (hhalted : t.status = .halted)
    {c : HaltCause} (hcause : t.haltCause = some c) (hc : c = .stopped ∨ c = .budgetExhausted) :
    s.startCause = some c := by
  obtain ⟨-, ⟨d, hstart, rfl⟩ | ⟨-, hissue⟩⟩ := State.attempt_next h
  · rw [hstart, ← hcause, State.halt_haltCause]
  · obtain ⟨noStop, noBudget⟩ := State.issue_noEarlyHalt _ _ t hissue hhalted
    rcases hc with rfl | rfl
    · exact absurd hcause noStop
    · exact absurd hcause noBudget

/-! ### Runs -/

theorem runFor_of_halted (n : Nat) {s : State} (h : s.status = .halted) : runFor n s = .next s := by
  cases n <;> simp [runFor, h]

/-- A run of an active core begins with a step (40_cycle R81). -/
theorem runFor_succ_of_step (n : Nat) {s t : State} (h : step s = .next t) :
    runFor (n + 1) s = runFor n t := by
  obtain ⟨hactive, -⟩ := step_cycleEnds h
  rcases hactive with hs | hs <;> simp [runFor, hs, h]

/-- What every step keeps, every run keeps (40_cycle R81). -/
theorem runFor_invariant {P : State → Prop} (hstep : ∀ s t, P s → step s = .next t → P t) {n : Nat}
    {s t : State} (hs : P s) (h : runFor n s = .next t) : P t := by
  induction n generalizing s with
  | zero =>
    unfold runFor at h
    split at h <;> cases h
    all_goals exact hs
  | succ n ih =>
    unfold runFor at h
    split at h
    · cases h
    · cases h; exact hs
    all_goals
      split at h
      · next u hu => exact ih (hstep s u hs hu) h
      · cases h
      · cases h

/-- An active core has a step (40_cycle R74). -/
theorem exists_step_of_active {s : State} (h : s.active) : ∃ t, step s = .next t := by
  cases hc : s.startCause with
  | some c => exact ⟨_, step_of_startCause h hc⟩
  | none =>
    rw [step_of_mayFetch h (s.mayFetch_iff.2 hc)]
    obtain ⟨t, ht, -⟩ := State.issue_ir (s.readWord s.pc).2 (s.readWord s.pc).1
    exact ⟨t, ht⟩

/-- With the stop flag set and the check due after `m` more instructions, every run of more than `m` steps ends
halted after at most `m` of them (40_cycle R78). -/
theorem runFor_halts_of_stop_due_in (m : Nat) {n : Nat} (hmn : m < n) {s : State} (hactive : s.active)
    (hstop : s.stopRequested = true) (hdue : (s.instructionCount + m) % s.cfg.stopCheckInterval = 0) :
    ∃ t, runFor n s = .next t ∧ t.status = .halted ∧ s.instructionCount ≤ t.instructionCount
      ∧ t.instructionCount ≤ s.instructionCount + m := by
  induction m generalizing n s with
  | zero =>
    have stops := step_of_startCause hactive (s.startCause_eq_stopped_iff.2 (s.stopDue_iff.2 ⟨hstop, hdue⟩))
    obtain ⟨n, rfl⟩ := Nat.exists_eq_add_one_of_ne_zero (Nat.ne_zero_of_lt hmn)
    exact ⟨_, (runFor_succ_of_step n stops).trans (runFor_of_halted n rfl), rfl, le_rfl, le_rfl⟩
  | succ m ih =>
    obtain ⟨t, ht⟩ := exists_step_of_active hactive
    obtain ⟨n, rfl⟩ := Nat.exists_eq_add_one_of_ne_zero (Nat.ne_zero_of_lt hmn)
    rw [runFor_succ_of_step n ht]
    obtain ⟨-, ends⟩ := step_cycleEnds ht
    obtain ⟨hcfg, hstopT⟩ := step_cfg_stopRequested ht
    cases ends with
    | completes status count =>
      have hdueT : (t.instructionCount + m) % t.cfg.stopCheckInterval = 0 := by
        rwa [count, hcfg, Nat.add_right_comm, Nat.add_assoc]
      obtain ⟨u, hu, halted, hle, hge⟩ :=
        ih (Nat.lt_of_succ_lt_succ hmn) (.inr status) (hstopT.trans hstop) hdueT
      exact ⟨u, hu, halted, by omega, by omega⟩
    | halts c status count => exact ⟨t, runFor_of_halted n status, status, by omega, by omega⟩

/-- Within `k` there is a distance from any count to a multiple of `k`. -/
theorem exists_lt_add_mod_eq_zero (a : Nat) {k : Nat} (hk : 1 ≤ k) : ∃ m < k, (a + m) % k = 0 := by
  refine ⟨(k - a % k) % k, Nat.mod_lt _ hk, ?_⟩
  have hlt : a % k < k := Nat.mod_lt _ hk
  rw [Nat.add_mod_mod, ← Nat.mod_add_mod, Nat.add_sub_cancel' hlt.le, Nat.mod_self]

/-- The core has the budget `n`, and its count is within it (40_cycle R77). -/
def State.WithinBudget (n : Nat) (s : State) : Prop :=
  s.cfg.cycleBudget = some n ∧ s.instructionCount ≤ n

/-- A step completes an instruction only while some of the budget is left (40_cycle R77). -/
theorem step_withinBudget {n : Nat} (s t : State) (hs : s.WithinBudget n) (h : step s = .next t) :
    t.WithinBudget n := by
  obtain ⟨hbudget, hle⟩ := hs
  obtain ⟨hcfg, -⟩ := step_cfg_stopRequested h
  refine ⟨by rw [hcfg, hbudget], ?_⟩
  obtain ⟨-, ⟨c, -, rfl⟩ | ⟨hstart, -⟩⟩ := State.attempt_next h
  · exact hle
  · obtain ⟨-, hleft, -⟩ := s.mayFetch_iff.2 hstart
    have := (step_cycleEnds h).2.count_le
    have := hleft n hbudget
    omega

/-! ### `Stop` and `Load` -/

theorem State.stop_eq (s : State) :
    s.stop = if s.status = .loaded ∨ s.status = .running then { s with stopRequested := true } else s := by
  unfold State.stop
  cases s.status <;> simp

/-- A successful load builds the fresh core (70_reset R150). -/
theorem State.load_ok {s t : State} {image : List Byte} {tag : ArchTag} {a : Word} {valid : Bool}
    (h : s.load image tag a valid = .ok t) :
    ∃ isa, tag = .known isa ∧ imageFits image a valid = true ∧ t = s.freshCore image isa a := by
  cases tag with
  | other name => cases h
  | known isa =>
    simp only [State.load] at h
    split_ifs at h with fits
    cases h
    exact ⟨isa, rfl, fits, rfl⟩

/-! ### The statements -/

/-- Settles O11, from the ends of a cycle, the fresh core of a load and what `Stop` sets. -/
theorem statusTransitions : Obligations.StatusTransitions := by
  refine ⟨rfl, fun s t w h => ?_, fun s t image tag a valid h => ?_, fun s => ?_⟩
  · obtain ⟨hactive, ends⟩ := h.elim step_cycleEnds State.execWord_cycleEnds
    refine ⟨hactive, ?_⟩
    cases ends with
    | completes status count => exact .inl ⟨status, count⟩
    | halts c status count cause last => exact .inr ⟨status, count, c, cause, last⟩
  · obtain ⟨isa, -, -, rfl⟩ := State.load_ok h
    rfl
  · rw [s.stop_eq]
    split_ifs <;> rfl

/-- Settles O13: the stop check comes first, no instruction gives its cause, and a due count is fewer than
`STOP_CHECK_INTERVAL` instructions away. -/
theorem stopHaltsTheCore : Obligations.StopHaltsTheCore := by
  refine ⟨State.stop_eq, fun s hactive hstop hdue => ?_, fun s t h hhalted hcause => ?_,
    fun s hactive hstop hk => ?_⟩
  · have start := s.startCause_eq_stopped_iff.2 (s.stopDue_iff.2 ⟨hstop, hdue⟩)
    exact ⟨_, step_of_startCause hactive start, s.haltedWith_halt _⟩
  · exact s.stopDue_iff.1 (s.startCause_eq_stopped_iff.1
      (startCause_of_step_halted h hhalted hcause (.inl rfl)))
  · obtain ⟨m, hm, hdue⟩ := exists_lt_add_mod_eq_zero s.instructionCount hk
    obtain ⟨t, ht, halted, hge, hle⟩ := runFor_halts_of_stop_due_in m hm hactive hstop hdue
    exact ⟨t, ht, halted, hge, by omega⟩

/-- Settles O14: the budget check comes second, no instruction gives its cause, and every step keeps the count
within the budget. -/
theorem budgetHaltsTheCore : Obligations.BudgetHaltsTheCore := by
  refine ⟨fun s n hactive hbudget hspent hstop => ?_, fun s t h hhalted hcause => ?_,
    fun s t n k hbudget hle h => ?_⟩
  · have notDue : s.stopDue = false := by
      rw [Bool.eq_false_iff, Ne, s.stopDue_iff]
      exact fun ⟨hreq, hmod⟩ => hstop hreq hmod
    have start := s.startCause_eq_budgetExhausted_iff.2 ⟨notDue, s.budgetSpent_iff.2 ⟨n, hbudget, hspent⟩⟩
    exact ⟨_, step_of_startCause hactive start, s.haltedWith_halt _⟩
  · have start := startCause_of_step_halted h hhalted hcause (.inr rfl)
    exact s.budgetSpent_iff.1 (s.startCause_eq_budgetExhausted_iff.1 start).2
  · have within : t.WithinBudget n := runFor_invariant step_withinBudget ⟨hbudget, hle⟩ h
    exact within.2

/-- Settles O26: the guard is the step's own, and past it the supplied word is issued. -/
theorem execWordIsStepWithoutFetch : Obligations.ExecWordIsStepWithoutFetch := by
  refine fun s w => ⟨fun h => State.attempt_congr_of_not_mayFetch h _ _, fun hactive hfetch i hi => ?_,
    fun hactive hfetch r hr => ?_, decode_x86_low16 w⟩
  · rw [State.execWord, s.attempt_mayFetch _ hactive hfetch, State.issue, hi]
    rfl
  · exact ⟨_, (s.attempt_mayFetch _ hactive hfetch).trans (s.issue_of_error ⟨r, hr⟩),
      (s.setIr w).haltedWith_halt _⟩

end Sys2Proof.Machine

/-! SUPPORT and PROOFS. The family `41_mips_alu`: the rules of an instruction that reads registers and writes one,
each proved once for every instruction of its shape, and the statements about the MIPS ALU instructions. -/

namespace Sys2Proof

open Laws.EncodesRow (rowsOf)

/-! ### Words of a row -/

/-- The words of the map's row number `n` decode as the row reads them (30_encoding R56, R59). -/
theorem decodesAs_of_row {isa : Isa} {mask pat : Word} {build : Word → Instr} (n : Nat)
    (h : (rowsOf isa)[n]? = some ⟨pat, mask, build⟩) : Machine.DecodesAs isa mask pat build :=
  fun _ hw wf => decode_of_row _ (List.mem_of_getElem? h) hw wf

/-- A word of opcode 0 and function code 0 or 2 is no instruction when its `rs` field is not 0: the shift rows fix
that field, and every other row differs in the opcode or the function code (30_encoding R56). -/
theorem decode_mips_shift_of_rs_ne_zero {w : Word} (shift : w &&& 0xFC00003D = 0x00000000)
    (hrs : field w 21 5 ≠ 0#5) : ∃ r, decode .mips w = .error r := by
  have noRow : ∀ r ∈ rowsOf .mips,
      (field r.mask 21 5 = BitVec.allOnes 5 ∧ field r.pat 21 5 = 0#5)
        ∨ r.pat &&& 0xFC00003D ≠ 0x00000000 &&& r.mask := by decide
  rw [decode_error_iff]
  rintro ⟨i, hi⟩
  obtain ⟨⟨r, hr, hw, -⟩, -⟩ := (decode_ok_iff .mips w i).1 hi
  rcases noRow r hr with rsFixed | apart
  · exact hrs (field_of_rowMatches hw rsFixed)
  · exact not_and_eq_both apart w ⟨(rowMatches_iff r w).1 hw, shift⟩

end Sys2Proof

namespace Sys2Proof.Machine

/-! ### Signed overflow -/

theorem outOfRange_eq_false_iff (n : Int) : outOfRange n = false ↔ -2 ^ 31 ≤ n ∧ n ≤ 2 ^ 31 - 1 := by
  simp [outOfRange]

/-- In wrap mode, and when the exact result is in range, the result is written (41_mips_alu R88). -/
theorem State.setChecked_of_fits (s : State) {n : Int} (d : RegIx) (v : Word)
    (h : s.cfg.overflow = .wrap ∨ (-2 ^ 31 ≤ n ∧ n ≤ 2 ^ 31 - 1)) :
    s.setChecked (outOfRange n) d v = s.setRegister d v (s.pc + 4) := by
  rw [← outOfRange_eq_false_iff] at h
  unfold State.setChecked
  rcases h with wrap | inRange
  · simp [wrap]
  · simp [inRange]

/-- In fault mode an exact result out of range halts the core (41_mips_alu R88). -/
theorem State.setChecked_of_overflow (s : State) {n : Int} (d : RegIx) (v : Word)
    (fault : s.cfg.overflow = .fault) (h : ¬(-2 ^ 31 ≤ n ∧ n ≤ 2 ^ 31 - 1)) :
    s.setChecked (outOfRange n) d v = .next (s.halt (.arithmeticOverflow s.pc s.ir)) := by
  rw [← outOfRange_eq_false_iff, Bool.not_eq_false] at h
  simp [State.setChecked, fault, h]

/-! ### The rules -/

/-- A register without a value halts the core in front of any rule (10_state R28). -/
theorem exec_unmodelled {i : Instr} {s : State} {reads : List RegIx} {k : Result}
    (h : exec i s = s.reading reads k) (unknown : s.allKnown reads = false) :
    ∃ t, exec i s = .next t ∧ HaltedWith s t (.unmodelled s.pc s.ir) :=
  ⟨_, h.trans (s.reading_of_unknown _ _ unknown), s.haltedWith_halt _⟩

/-- An instruction that checks the registers it reads and then writes one follows the register rule. -/
theorem registerRule_of_exec {i : Instr} {reads : List RegIx} {d : RegIx} {v : State → Word} {len : Word}
    (h : ∀ s, exec i s = s.reading reads (s.setRegister d (v s) (s.pc + len))) :
    RegisterRule i reads d v len := by
  refine fun s => ⟨fun known => ?_, exec_unmodelled (h s)⟩
  exact ⟨_, (h s).trans (s.reading_of_known _ _ known), s.writesReg_complete d _ _⟩

/-- An instruction that checks the registers it reads and then writes a checked result follows the rule of the
MIPS adds (41_mips_alu R88). -/
theorem checkedRule_of_exec {i : Instr} {reads : List RegIx} {d : RegIx} {exactResult : State → Int}
    {v : State → Word}
    (h : ∀ s, exec i s = s.reading reads (s.setChecked (outOfRange (exactResult s)) d (v s))) :
    CheckedRule i reads d exactResult v := by
  refine fun s => ⟨fun known fits => ?_, fun known fault overflow => ?_, exec_unmodelled (h s)⟩
  · rw [h s, s.reading_of_known _ _ known, s.setChecked_of_fits d _ fits]
    exact ⟨_, rfl, s.writesReg_complete d _ _⟩
  · rw [h s, s.reading_of_known _ _ known, s.setChecked_of_overflow d _ fault overflow]
    exact ⟨_, rfl, s.haltedWith_halt _⟩

/-! ### The statements -/

/-- Settles O41: each instruction has a row of its own and is one register write behind the overflow check. -/
theorem mipsAddSubAddi : Obligations.MipsAddSubAddi :=
  ⟨decodesAs_of_row 4 rfl, decodesAs_of_row 5 rfl, decodesAs_of_row 11 rfl, fun _ _ _ _ =>
    ⟨checkedRule_of_exec fun _ => rfl, checkedRule_of_exec fun _ => rfl, checkedRule_of_exec fun _ => rfl⟩⟩

/-- Settles O42: each instruction has a row of its own and is one register write. -/
theorem mipsLogical : Obligations.MipsLogical :=
  ⟨decodesAs_of_row 6 rfl, decodesAs_of_row 7 rfl, decodesAs_of_row 8 rfl, fun _ _ _ =>
    ⟨registerRule_of_exec fun _ => rfl, registerRule_of_exec fun _ => rfl, registerRule_of_exec fun _ => rfl⟩⟩

/-- Settles O43: each shift has a row of its own, which fixes the `rs` field to 0, and is one register write. -/
theorem mipsShifts : Obligations.MipsShifts :=
  ⟨decodesAs_of_row 0 rfl, decodesAs_of_row 1 rfl, fun _ => decode_mips_shift_of_rs_ne_zero, fun _ _ _ =>
    ⟨registerRule_of_exec fun _ => rfl, registerRule_of_exec fun _ => rfl⟩⟩

/-- Settles O44: each instruction has a row of its own and is one register write. -/
theorem mipsLogicalImmediate : Obligations.MipsLogicalImmediate :=
  ⟨decodesAs_of_row 12 rfl, decodesAs_of_row 13 rfl, decodesAs_of_row 14 rfl, fun _ _ _ =>
    ⟨registerRule_of_exec fun _ => rfl, registerRule_of_exec fun _ => rfl, registerRule_of_exec fun _ => rfl⟩⟩

end Sys2Proof.Machine

/-! SUPPORT and PROOFS. The family `42_mips_memory`: a register write that follows bus reads, and the statement
about `lw`. -/

namespace Sys2Proof.Machine

/-- A register write after bus reads is a register write on the state before them, but for the trace and the draws,
which are those of the reads (20_memory R34, R42). -/
theorem WritesReg.of_onlyReads {s r t : State} {d : RegIx} {v target : Word} (reads : OnlyReads s r)
    (h : WritesReg r t d v target) :
    OnlyRegWritten s t d v ∧ CompletedAt s t target ∧ t.eflags = s.eflags ∧ SameMemory s t ∧ SameFixed s t
      ∧ t.io = s.io ∧ t.trace = r.trace ∧ t.draws = r.draws := by
  obtain ⟨unmapped, n, rfl⟩ := reads
  exact h

/-- Settles O45: `lw` has a row of its own, and behind the register and alignment checks it is the word read, then
one register write. -/
theorem mipsLoadWord : Obligations.MipsLoadWord := by
  refine ⟨decodesAs_of_row 15 rfl, fun s rs rt imm ea hea => ?_⟩
  obtain rfl : ea = s.effectiveAddress rs imm := hea
  refine ⟨fun known aligned => ?_, fun known check misaligned => ?_, fun unknown => ?_⟩
  · have completes := (exec_mipsLw_of_known s rs rt imm known).trans
      (s.aligned_of_not_misaligned _ fun ⟨check, misaligned⟩ => misaligned (aligned check))
    exact ⟨_, completes, (State.writesReg_complete _ rt _ _).of_onlyReads (s.readWord_onlyReads _)⟩
  · have halts := (exec_mipsLw_of_known s rs rt imm known).trans
      (s.aligned_of_misaligned _ ⟨check, misaligned⟩)
    exact ⟨_, halts, s.haltedWith_halt _⟩
  · exact exec_unmodelled (reads := [rs]) rfl (by simp [State.allKnown, unknown])

end Sys2Proof.Machine

/-! SUPPORT and PROOFS. The family `43_mips_control`: an instruction that only jumps, the end of a string scan, and
the statements about the branches, `jr` and `syscall`. -/

namespace Sys2Proof.Machine

/-! ### Branches and jumps -/

theorem State.allKnown_singleton (s : State) (r : RegIx) : s.allKnown [r] = s.known r := by
  simp [State.allKnown]

/-- An instruction that checks the registers it reads and then only goes on at `target`. -/
theorem onlyJumps_of_exec {i : Instr} {s : State} {reads : List RegIx} {target : Word}
    (h : exec i s = s.reading reads (.next (s.complete target))) (known : s.allKnown reads = true) :
    ∃ t, exec i s = .next t ∧ OnlyJumps s t target :=
  ⟨_, h.trans (s.reading_of_known _ _ known), s.onlyJumps_complete target⟩

theorem exec_mipsBeq (s : State) (rs rt : BitVec 5) (imm : BitVec 16) :
    exec (.mipsBeq rs rt imm) s = s.reading [rs, rt] (.next (s.complete
      (if s.readReg rs = s.readReg rt then s.pc + 4 + (imm.signExtend 32 <<< 2) else s.pc + 4))) := rfl

theorem exec_mipsBne (s : State) (rs rt : BitVec 5) (imm : BitVec 16) :
    exec (.mipsBne rs rt imm) s = s.reading [rs, rt] (.next (s.complete
      (if s.readReg rs = s.readReg rt then s.pc + 4 else s.pc + 4 + (imm.signExtend 32 <<< 2)))) := by
  rw [exec, execMipsBne, ite_not]
  rfl

/-! ### The string scan -/

theorem State.readString_of_zero (n : Nat) {s : State} {a : Word} (h : (s.readByte a).1 = 0x00) :
    State.readString (n + 1) s a = ([], (s.readByte a).2) :=
  if_pos h

theorem State.readString_of_ne_zero (n : Nat) {s : State} {a : Word} (h : (s.readByte a).1 ≠ 0x00) :
    State.readString (n + 1) s a =
      ((s.readByte a).1 :: (State.readString n (s.readByte a).2 (a + 1)).1,
        (State.readString n (s.readByte a).2 (a + 1)).2) :=
  if_neg h

/-- If some address `z` reads as `0x00` however many bytes were read before, a scan with enough fuel to reach it
ends in the string at `a`, which is no longer than the way from `a` up to `z`. -/
theorem State.stringAt_readString {n : Nat} {s : State} {a z : Word}
    (hz : ∀ u, OnlyReads s u → (u.readByte z).1 = 0x00) (hn : (z - a).toNat < n) :
    StringAt s a (State.readString n s a).1 (State.readString n s a).2
      ∧ (State.readString n s a).1.length ≤ (z - a).toNat := by
  induction n generalizing s a with
  | zero => omega
  | succ n ih =>
    by_cases h : (s.readByte a).1 = 0x00
    · rw [State.readString_of_zero n h]
      exact ⟨.stop s a h, Nat.zero_le _⟩
    · have notThere : a ≠ z := by
        rintro rfl
        exact h (hz s (.refl s))
      have closer : (z - (a + 1)).toNat + 1 = (z - a).toNat := by bv_omega
      obtain ⟨rest, length⟩ := ih (fun u hu => hz u ((s.readByte_onlyReads a).trans hu)) (a := a + 1) (by omega)
      rw [State.readString_of_ne_zero n h]
      exact ⟨.more s _ a _ h rest, by rw [List.length_cons]; omega⟩

/-- With ROM and RAM below the MMIO window, `UART_DATA` reads as `0x00` (20_memory R42): the address at which every
string scan has ended. -/
theorem State.readByte_uartData (s : State) (hwf : s.cfg.ioMap.wf = true) (hrom : s.romLen ≤ 0x80000000)
    (hram : s.ramLen ≤ 0x70000000) :
    (s.readByte (BitVec.ofNat 32 (0xF0000000 + s.cfg.ioMap.uartData))).1 = 0x00 := by
  obtain ⟨hslots, hnodup⟩ := IoMap.slots_of_wf hwf
  obtain ⟨haligned, hinside⟩ := hslots s.cfg.ioMap.uartData (by simp [IoMap.slots])
  obtain ⟨-, hdata, -⟩ := ioTarget_of_slot hnodup s.cfg.ioMap.uartData
  have address : (BitVec.ofNat 32 (0xF0000000 + s.cfg.ioMap.uartData)).toNat
      = 0xF0000000 + s.cfg.ioMap.uartData := by
    rw [BitVec.toNat_ofNat, Nat.mod_eq_of_lt (by omega)]
  rw [s.readByte_eq, address, if_neg (by omega), if_neg (by omega), if_pos (by omega), Nat.add_sub_cancel_left,
    State.ioReadByte, hdata (by omega)]

/-- The scan of `syscall` reads the string at any address and takes fewer than `2^32` bytes (43_mips_control R108). -/
theorem State.stringAt_scan (s : State) (a : Word) (hwf : s.cfg.ioMap.wf = true) (hrom : s.romLen ≤ 0x80000000)
    (hram : s.ramLen ≤ 0x70000000) :
    StringAt s a (State.readString stringScanBound s a).1 (State.readString stringScanBound s a).2
      ∧ (State.readString stringScanBound s a).1.length < 2 ^ 32 := by
  have ends : ∀ u, OnlyReads s u →
      (u.readByte (BitVec.ofNat 32 (0xF0000000 + s.cfg.ioMap.uartData))).1 = 0x00 := by
    rintro _ ⟨unmapped, n, rfl⟩
    exact State.readByte_uartData _ hwf hrom hram
  obtain ⟨string, length⟩ := State.stringAt_readString (a := a) ends (BitVec.isLt _)
  exact ⟨string, length.trans_lt (BitVec.isLt _)⟩

/-! ### `syscall` -/

/-- An event after bus reads and the end of the instruction: the reads, the event and nothing else. -/
theorem OnlyReads.emit_complete {s u : State} (reads : OnlyReads s u) (e : Event) (target : Word) :
    SameRegs s ((u.emit e).complete target) ∧ CompletedAt s ((u.emit e).complete target) target
      ∧ u.eflags = s.eflags ∧ SameMemory s ((u.emit e).complete target)
      ∧ SameFixed s ((u.emit e).complete target) ∧ u.io = s.io := by
  obtain ⟨unmapped, n, rfl⟩ := reads
  obtain ⟨regs, completed, eflags, memory, fixed, io, -⟩ := State.onlyJumps_complete (State.emit _ e) target
  exact ⟨regs, completed, eflags, memory, fixed, io⟩

theorem exec_mipsSyscall_of_known (s : State) (code : BitVec 20) (h : s.known 2 = true) :
    exec (.mipsSyscall code) s =
      if s.readReg 2 = 1 then s.reading [4] s.printInt
      else if s.readReg 2 = 4 then s.reading [4] s.printString
      else .next (s.halt (.unsupportedSyscall s.pc (s.readReg 2))) :=
  s.reading_of_known [2] _ ((s.allKnown_singleton 2).trans h)

theorem exec_mipsSyscall_printInt (s : State) (code : BitVec 20) (h : s.known 2 = true) (call : s.readReg 2 = 1) :
    exec (.mipsSyscall code) s = s.reading [4] s.printInt :=
  (exec_mipsSyscall_of_known s code h).trans (if_pos call)

theorem exec_mipsSyscall_printString (s : State) (code : BitVec 20) (h : s.known 2 = true)
    (call : s.readReg 2 = 4) : exec (.mipsSyscall code) s = s.reading [4] s.printString := by
  rw [exec_mipsSyscall_of_known s code h, if_neg (by rw [call]; decide), if_pos call]

/-! ### The statements -/

/-- Settles O47: each branch has a row of its own and only jumps, `bne` with the two targets exchanged. -/
theorem mipsBranches : Obligations.MipsBranches := by
  refine ⟨decodesAs_of_row 9 rfl, decodesAs_of_row 10 rfl, fun s rs rt imm =>
    ⟨fun hrs hrt => ?_, fun unknown => List.forall_mem_cons.2 ?_⟩⟩
  · have known : s.allKnown [rs, rt] = true := by simp [State.allKnown, hrs, hrt]
    exact ⟨onlyJumps_of_exec (exec_mipsBeq s rs rt imm) known, onlyJumps_of_exec (exec_mipsBne s rs rt imm) known⟩
  · have unknown : s.allKnown [rs, rt] = false := by
      rcases unknown with h | h <;> simp [State.allKnown, h]
    exact ⟨exec_unmodelled (exec_mipsBeq s rs rt imm) unknown,
      List.forall_mem_singleton.2 (exec_unmodelled (exec_mipsBne s rs rt imm) unknown)⟩

/-- Settles O48: `jr` has a row of its own and only jumps. -/
theorem mipsJumpRegister : Obligations.MipsJumpRegister :=
  ⟨decodesAs_of_row 2 rfl, fun s rs =>
    ⟨fun known => onlyJumps_of_exec (reads := [rs]) rfl ((s.allKnown_singleton rs).trans known),
      fun unknown => exec_unmodelled (reads := [rs]) rfl ((s.allKnown_singleton rs).trans unknown)⟩⟩

/-- Settles O49: `syscall` has a row of its own; call 1 is one event, call 4 a scan that `UART_DATA` ends and then
one event, and every other case is a halt. -/
theorem mipsSyscall : Obligations.MipsSyscall := by
  refine ⟨decodesAs_of_row 3 rfl, fun s code => ⟨fun known2 known4 call => ?_,
    fun known2 known4 call hwf hrom hram => ?_, fun known2 not1 not4 => ?_, fun unknown => ?_⟩⟩
  · have prints : exec (.mipsSyscall code) s = s.printInt :=
      (exec_mipsSyscall_printInt s code known2 call).trans
        (s.reading_of_known _ _ ((s.allKnown_singleton 4).trans known4))
    obtain ⟨regs, completed, eflags, memory, fixed, io⟩ :=
      (OnlyReads.refl s).emit_complete (.outInt (s.readReg 4).toInt) (s.pc + 4)
    exact ⟨_, prints, regs, completed, eflags, memory, fixed, io, rfl, rfl⟩
  · have prints : exec (.mipsSyscall code) s = s.printString :=
      (exec_mipsSyscall_printString s code known2 call).trans
        (s.reading_of_known _ _ ((s.allKnown_singleton 4).trans known4))
    have reads := State.readString_onlyReads stringScanBound s (s.readReg 4)
    obtain ⟨string, length⟩ := s.stringAt_scan (s.readReg 4) hwf hrom hram
    obtain ⟨regs, completed, eflags, memory, fixed, io⟩ := reads.emit_complete
      (.outText (State.readString stringScanBound s (s.readReg 4)).1) (s.pc + 4)
    exact ⟨_, _, _, prints, string, reads, length, regs, completed, eflags, memory, fixed, io, rfl, rfl⟩
  · have halts := exec_mipsSyscall_of_known s code known2
    rw [if_neg not1, if_neg not4] at halts
    exact ⟨_, halts, s.haltedWith_halt _⟩
  · cases known2 : s.known 2 with
    | false => exact exec_unmodelled (reads := [2]) rfl ((s.allKnown_singleton 2).trans known2)
    | true =>
      obtain ⟨unknown4, call⟩ := unknown.resolve_left (by rw [known2]; decide)
      have unknown4 : s.allKnown [4] = false := (s.allKnown_singleton 4).trans unknown4
      rcases call with call | call
      · exact exec_unmodelled (exec_mipsSyscall_printInt s code known2 call) unknown4
      · exact exec_unmodelled (exec_mipsSyscall_printString s code known2 call) unknown4

end Sys2Proof.Machine

/-! SUPPORT and PROOFS. The family `44_arm`: an instruction that reads no register, and the statements about the ARM
instructions. -/

namespace Sys2Proof.Machine

/-- Reading no register checks nothing. -/
theorem State.reading_nil (s : State) (k : Result) : s.reading [] k = k :=
  s.reading_of_known [] k rfl

/-- MOV of an immediate is a register write in front of which no register is checked (44_arm R116). -/
theorem exec_armMovImm (s : State) (rd rot : BitVec 4) (imm8 : BitVec 8) :
    exec (.armMovImm rd rot imm8) s =
      s.reading [] (s.setRegister (armReg rd) ((imm8.setWidth 32).rotateRight (2 * rot.toNat)) (s.pc + 4)) :=
  (s.reading_nil _).symm

/-! ### The statements -/

/-- Settles O50: each form has a row of its own and is one register write. -/
theorem armAdd : Obligations.ArmAdd :=
  ⟨decodesAs_of_row 2 rfl, decodesAs_of_row 3 rfl, fun _ _ _ _ _ =>
    ⟨registerRule_of_exec fun _ => rfl, registerRule_of_exec fun _ => rfl⟩⟩

/-- Settles O51: each form has a row of its own and is one register write. -/
theorem armSub : Obligations.ArmSub :=
  ⟨decodesAs_of_row 4 rfl, decodesAs_of_row 5 rfl, fun _ _ _ _ _ =>
    ⟨registerRule_of_exec fun _ => rfl, registerRule_of_exec fun _ => rfl⟩⟩

/-- Settles O52: each form has a row of its own and is one register write; the immediate form checks no register. -/
theorem armMov : Obligations.ArmMov :=
  ⟨decodesAs_of_row 6 rfl, decodesAs_of_row 7 rfl, fun rd _ rot imm8 =>
    ⟨registerRule_of_exec fun s => exec_armMovImm s rd rot imm8, registerRule_of_exec fun _ => rfl⟩⟩

/-- Settles O53: each branch has a row of its own; B is a jump and BL a write of `r14` before the jump, and neither
checks a register. -/
theorem armBranches : Obligations.ArmBranches := by
  refine ⟨decodesAs_of_row 0 rfl, decodesAs_of_row 1 rfl, fun s imm24 bias hbias => ?_⟩
  obtain rfl : bias = armPcBiasValue s.cfg.armPcBias := hbias
  exact ⟨⟨_, rfl, s.onlyJumps_complete _⟩, ⟨_, rfl, s.writesReg_complete regLr _ _⟩⟩

end Sys2Proof.Machine

/-! SUPPORT and PROOFS. The family `45_powerpc`: the order in which two registers are checked, and the statements
about the PowerPC instructions. -/

namespace Sys2Proof.Machine

/-- It does not matter in which order two registers are checked: the core halts with the same cause for either. -/
theorem State.reading_pair_comm (s : State) (a b : RegIx) (k : Result) :
    s.reading [a, b] k = s.reading [b, a] k := by
  simp [State.reading, State.allKnown, Bool.and_comm]

/-- `subf` with its sources in the order of the word's fields (45_powerpc R124). -/
theorem exec_ppcSubf (s : State) (rD rA rB : BitVec 5) :
    exec (.ppcSubf rD rA rB) s =
      s.reading [rA, rB] (s.setRegister rD (s.readReg rB - s.readReg rA) (s.pc + 4)) :=
  s.reading_pair_comm rB rA _

/-! ### The statements -/

/-- Settles O54: `addi` has a row of its own and is one register write; the registers it checks and its base both
leave out `rA = 0`. -/
theorem ppcAddImmediate : Obligations.PpcAddImmediate :=
  ⟨decodesAs_of_row 0 rfl, fun _ _ _ => registerRule_of_exec fun _ => rfl⟩

/-- Settles O55: each instruction has a row of its own and is one register write, `or` to its middle field. -/
theorem ppcRegisterForms : Obligations.PpcRegisterForms :=
  ⟨decodesAs_of_row 1 rfl, decodesAs_of_row 2 rfl, decodesAs_of_row 3 rfl, fun d a b =>
    ⟨registerRule_of_exec fun s => exec_ppcSubf s d a b, registerRule_of_exec fun _ => rfl,
      registerRule_of_exec fun _ => rfl⟩⟩

end Sys2Proof.Machine

/-! SUPPORT and PROOFS. The family `46_x86`: the bits of `eflags` after the six flags are written, parity as a count
of 1 bits, and the statements about the x86 instructions. -/

namespace Sys2Proof.Machine

/-! ### The bits of `eflags` -/

/-- A single bit placed in a word is that bit and 0 elsewhere. -/
theorem getLsbD_place_ofBool (b : Bool) (lo k : Nat) (h : lo < 32) :
    (place (BitVec.ofBool b) lo).getLsbD k = (decide (k = lo) && b) := by
  rcases Nat.lt_trichotomy k lo with below | rfl | above
  · simp [place, below, below.ne]
  · simp [place, h]
  · simp [place, above.ne', show k - lo ≠ 0 by omega]

/-- The mask is 1 at the six flags and 0 at every other bit (10_state R21). -/
theorem getLsbD_x86FlagMask (k : Nat) : x86FlagMask.getLsbD k = decide (k ∈ [0, 2, 4, 6, 7, 11]) := by
  rcases Nat.lt_or_ge k 32 with h | h
  · exact (by decide : ∀ j < 32, x86FlagMask.getLsbD j = decide (j ∈ [0, 2, 4, 6, 7, 11])) k h
  · have notFlag : k ∉ [0, 2, 4, 6, 7, 11] := by
      intro hk
      have : k ≤ 11 := (by decide : ∀ j ∈ [0, 2, 4, 6, 7, 11], j ≤ 11) k hk
      omega
    rw [BitVec.getLsbD_of_ge _ _ h, decide_eq_false notFlag]

/-- A bit that is a flag comes from the flags, every other bit from `eflags` before them (10_state R21). -/
theorem getLsbD_withX86Flags (e : Word) (f : X86Flags) (k : Nat) :
    (withX86Flags e f).getLsbD k =
      if k ∈ [0, 2, 4, 6, 7, 11] then (x86FlagBits f).getLsbD k else e.getLsbD k := by
  simp only [withX86Flags, BitVec.getLsbD_or, BitVec.getLsbD_and, BitVec.getLsbD_not, getLsbD_x86FlagMask]
  split_ifs with h
  · simp only [h, decide_true, Bool.not_true, Bool.and_false, Bool.false_or]
  · have noFlag : (x86FlagBits f).getLsbD k = false := by
      simp only [List.mem_cons, List.not_mem_nil, or_false, not_or] at h
      simp [x86FlagBits, getLsbD_place_ofBool, h]
    have inWord : e.getLsbD k = true → k < 32 := BitVec.lt_of_getLsbD
    simpa [noFlag, h] using inWord

/-- The six flags stand at bits 0, 2, 4, 6, 7 and 11 (10_state R21). -/
theorem getLsbD_withX86Flags_flags (e : Word) (f : X86Flags) :
    (withX86Flags e f).getLsbD 0 = f.cf ∧ (withX86Flags e f).getLsbD 2 = f.pf
      ∧ (withX86Flags e f).getLsbD 4 = f.af ∧ (withX86Flags e f).getLsbD 6 = f.zf
      ∧ (withX86Flags e f).getLsbD 7 = f.sf ∧ (withX86Flags e f).getLsbD 11 = f.of := by
  simp (disch := omega) only [getLsbD_withX86Flags, x86FlagBits, BitVec.getLsbD_or, getLsbD_place_ofBool]
  simp

/-! ### Parity -/

/-- The exclusive or of a predicate's values says whether it holds of an odd number of members. -/
theorem foldr_xor_eq_odd_length_filter (p : Nat → Bool) (l : List Nat) :
    l.foldr (fun k odd => p k ^^ odd) false = decide ((l.filter p).length % 2 = 1) := by
  induction l with
  | nil => rfl
  | cons k l ih =>
    rw [List.foldr_cons, ih]
    cases hk : p k
    · simp [hk]
    · rw [List.filter_cons_of_pos hk, List.length_cons, Bool.true_xor, ← decide_not, decide_eq_decide]
      omega

/-- PF is set exactly when the result's lowest byte has an even number of 1 bits (46_x86 R129). -/
theorem evenParity_lowByte_iff (r : Word) :
    evenParity (r.extractLsb' 0 8) = true
      ↔ ((List.range 8).filter (fun k => r.getLsbD k)).length % 2 = 0 := by
  have fold : evenParity (r.extractLsb' 0 8)
      = !(List.range 8).foldr (fun k odd => r.getLsbD k ^^ odd) false := by
    simp [evenParity, List.range_succ]
  rw [fold, foldr_xor_eq_odd_length_filter]
  simp

/-! ### Instructions that write the flags -/

/-- The six flags of an operation on `a` and `b` with result `r`: ADD and SUB differ in CF and OF only
(46_x86 R129). -/
def x86FlagsOf (a b r : Word) (cf of : Bool) : X86Flags where
  cf := cf
  pf := evenParity (r.extractLsb' 0 8)
  af := (a ^^^ b ^^^ r).getLsbD 4
  zf := r == 0
  sf := r.getLsbD 31
  of := of

theorem x86FlagsAre_withX86Flags (e a b r : Word) (cf of : Bool) :
    X86FlagsAre e (withX86Flags e (x86FlagsOf a b r cf of)) a b r cf of := by
  obtain ⟨hcf, hpf, haf, hzf, hsf, hof⟩ := getLsbD_withX86Flags_flags e (x86FlagsOf a b r cf of)
  refine ⟨hcf, ?_, haf, ?_, hsf, hof, fun k hk => (getLsbD_withX86Flags e _ k).trans (if_neg hk)⟩
  · rw [hpf]
    exact evenParity_lowByte_iff r
  · rw [hzf]
    exact beq_iff_eq

/-- An instruction that checks the registers it reads, writes the six flags and then writes one register changes
those and nothing else. -/
theorem setsFlags_of_exec {i : Instr} {s : State} {reads : List RegIx} {d : RegIx} {a b r target : Word}
    {cf of : Bool}
    (h : exec i s = s.reading reads ((s.setX86Flags (x86FlagsOf a b r cf of)).setRegister d r target))
    (known : s.allKnown reads = true) :
    ∃ t, exec i s = .next t ∧ OnlyRegWritten s t d r ∧ CompletedAt s t target
      ∧ X86FlagsAre s.eflags t.eflags a b r cf of ∧ SameMemory s t ∧ SameFixed s t ∧ SameIo s t := by
  obtain ⟨written, completed, eflags, rest⟩ :=
    (s.setX86Flags (x86FlagsOf a b r cf of)).writesReg_complete d r target
  refine ⟨_, h.trans (s.reading_of_known _ _ known), written, completed, ?_, rest⟩
  rw [eflags]
  exact x86FlagsAre_withX86Flags s.eflags a b r cf of

theorem exec_x86Add (s : State) (reg rm : BitVec 3) (a b : Word)
    (ha : a = s.readReg (x86Reg rm)) (hb : b = s.readReg (x86Reg reg)) :
    exec (.x86Add reg rm) s = s.reading [x86Reg rm, x86Reg reg]
      ((s.setX86Flags (x86FlagsOf a b (a + b) (decide (2 ^ 32 ≤ a.toNat + b.toNat))
        (a.getLsbD 31 == b.getLsbD 31 && (a + b).getLsbD 31 != a.getLsbD 31))).setRegister
          (x86Reg rm) (a + b) (s.pc + 2)) := by
  subst ha hb
  rfl

theorem exec_x86Sub (s : State) (reg rm : BitVec 3) (a b : Word)
    (ha : a = s.readReg (x86Reg rm)) (hb : b = s.readReg (x86Reg reg)) :
    exec (.x86Sub reg rm) s = s.reading [x86Reg rm, x86Reg reg]
      ((s.setX86Flags (x86FlagsOf a b (a - b) (decide (a.toNat < b.toNat))
        (a.getLsbD 31 != b.getLsbD 31 && (a - b).getLsbD 31 != a.getLsbD 31))).setRegister
          (x86Reg rm) (a - b) (s.pc + 2)) := by
  subst ha hb
  rfl

/-! ### Instructions that write no flag -/

/-- The register rule writes no flag, whether the instruction completes or halts. -/
theorem RegisterRule.eflags {i : Instr} {reads : List RegIx} {d : RegIx} {v : State → Word} {len : Word}
    (rule : RegisterRule i reads d v len) {s t : State} (h : exec i s = .next t) : t.eflags = s.eflags := by
  obtain ⟨completes, halts⟩ := rule s
  cases known : s.allKnown reads with
  | true =>
    obtain ⟨u, hu, -, -, eflags, -⟩ := completes known
    obtain rfl : u = t := Host.Outcome.next.inj (hu.symm.trans h)
    exact eflags
  | false =>
    obtain ⟨u, hu, halted⟩ := halts known
    obtain rfl : u = t := Host.Outcome.next.inj (hu.symm.trans h)
    rw [halted]

/-- MOV is one register write (46_x86 R132). -/
theorem registerRule_x86Mov (reg rm : BitVec 3) :
    RegisterRule (.x86Mov reg rm) [x86Reg reg] (x86Reg rm) (fun s => s.readReg (x86Reg reg)) 2 :=
  registerRule_of_exec fun _ => rfl

/-! ### The statements -/

/-- Settles O56: ADD and SUB have a row each and are one write of the flags and one of `rm`; MOV follows the register
rule, which writes no flag. -/
theorem x86AddSub : Obligations.X86AddSub := by
  refine ⟨decodesAs_of_row 0 rfl, decodesAs_of_row 1 rfl, fun s reg rm a b ha hb => ?_⟩
  have add := exec_x86Add s reg rm a b ha hb
  have sub := exec_x86Sub s reg rm a b ha hb
  refine ⟨fun hrm hreg => ?_, fun unknown => List.forall_mem_cons.2 ?_,
    fun _ => (registerRule_x86Mov reg rm).eflags⟩
  · have known : s.allKnown [x86Reg rm, x86Reg reg] = true := by simp [State.allKnown, hrm, hreg]
    exact ⟨setsFlags_of_exec add known, setsFlags_of_exec sub known⟩
  · have unknown : s.allKnown [x86Reg rm, x86Reg reg] = false := by
      rcases unknown with h | h <;> simp [State.allKnown, h]
    exact ⟨exec_unmodelled add unknown, List.forall_mem_singleton.2 (exec_unmodelled sub unknown)⟩

/-- Settles O57: MOV has a row of its own and is one register write. -/
theorem x86Mov : Obligations.X86Mov :=
  ⟨decodesAs_of_row 2 rfl, registerRule_x86Mov⟩

end Sys2Proof.Machine

/-! SUPPORT and PROOFS. The family `60_exceptions`: the state a halt is taken in, and that a halting step is precise. -/

namespace Sys2Proof.Machine

/-! ### The state a halt is taken in -/

/-- An instruction that halts the core does nothing else (60_exceptions R137): every other outcome completes. -/
theorem Does.eq_halt {i : Instr} {s t : State} (h : Does i s t) (hhalted : t.status = .halted) :
    ∃ c, t = s.halt c := by
  cases h with
  | halts c => exact ⟨c, rfl⟩
  | jumps | setsReg | setsFlags | loads | stores | printsInt | printsText => cases hhalted

/-- A step that halts does so in the state it began in or in the one after the fetch. -/
theorem step_eq_halt {s t : State} (h : step s = .next t) (hhalted : t.status = .halted) :
    ∃ c, t = s.halt c ∨ t = ((s.readWord s.pc).2.setIr (s.readWord s.pc).1).halt c := by
  obtain ⟨-, ⟨c, -, halt⟩ | ⟨-, ⟨i, -, -, -, does⟩ | halt⟩⟩ := step_next h
  · exact ⟨c, .inl halt⟩
  · exact (does.eq_halt hhalted).imp fun _ => .inr
  · exact ⟨_, .inr halt⟩

/-! ### The statement -/

/-- Settles O17: the state the halt is taken in differs from the one before the step by `ir` and by what the bus
reads of the fetch logged and drew, and the halt adds its status, its cause and its event. -/
theorem haltsArePrecise : Obligations.HaltsArePrecise := by
  intro s t h hhalted
  obtain ⟨c, rfl | rfl⟩ := step_eq_halt h hhalted
  · exact ⟨rfl, rfl, rfl, rfl, rfl, rfl, rfl, rfl, rfl, rfl, rfl, rfl, .inl rfl, c, [], rfl, by simp, .inl rfl⟩
  · obtain ⟨unmapped, n, reads⟩ := s.readWord_onlyReads s.pc
    simp only [reads]
    exact ⟨rfl, rfl, rfl, rfl, rfl, rfl, rfl, rfl, rfl, rfl, rfl, rfl, .inr rfl, c, unmapped, rfl, rfl, .inr rfl⟩

end Sys2Proof.Machine

/-! SUPPORT and PROOFS. The family `70_reset_and_hazards`: which images fit, what the fresh core of a load holds, and
the statements about construction and `Load`. -/

namespace Sys2Proof.Machine

/-! ### Registers that nothing has written -/

/-- In a file of zeros every register reads 0, hardwired or not (10_state R27). -/
theorem State.readReg_of_x_eq_zero {s : State} (h : s.x = Vector.replicate 32 0x00000000) (r : RegIx) :
    s.readReg r = 0x00000000 := by
  unfold State.readReg
  split_ifs
  · rfl
  · simp [h, Vector.get_eq_getElem]

/-- No index, in the file or past it, is recorded as written in an empty written set. -/
theorem State.getElem?_written_ne_some_true {s : State} (h : s.written = Vector.replicate 32 false) (r : Nat) :
    s.written[r]? ≠ some true := by
  rw [h, Vector.getElem?_replicate]
  split_ifs <;> simp

/-- Before any write a register has a value by `REG_RESET = zero` or by being hardwired (10_state R28). -/
theorem State.known_iff_of_written_eq_false {s : State} (h : s.written = Vector.replicate 32 false) (r : RegIx) :
    s.known r = true ↔ s.cfg.regReset = .zero ∨ s.hardwired r = true := by
  simp [State.known, h, Vector.get_eq_getElem]

/-! ### `Load` -/

/-- The refusals of an image, with the sum exact (70_reset R150). -/
theorem imageFits_eq_false_iff (image : List Byte) (a : Word) (valid : Bool) :
    imageFits image a valid = false ↔ valid = false ∨ image.length = 0 ∨ 2 ^ 30 < image.length
      ∨ 0x80000000 < a.toNat + image.length := by
  simp only [imageFits, Bool.and_eq_false_iff, bne_eq_false_iff_eq, decide_eq_false_iff_not, not_le, or_assoc]
  rfl

theorem State.load_of_imageFits (s : State) {image : List Byte} (isa : Isa) {a : Word} {valid : Bool}
    (h : imageFits image a valid = true) : s.load image (.known isa) a valid = .ok (s.freshCore image isa a) :=
  if_pos h

theorem State.load_of_not_imageFits (s : State) {image : List Byte} (isa : Isa) {a : Word} {valid : Bool}
    (h : imageFits image a valid = false) : s.load image (.known isa) a valid = .error .invalidImage :=
  if_neg (Bool.eq_false_iff.1 h)

/-- The registers of a fresh core that have a value (10_state R27, R28). -/
theorem State.known_freshCore (s : State) (image : List Byte) (isa : Isa) (a : Word) (r : RegIx) :
    (s.freshCore image isa a).known r = true ↔
      s.cfg.regReset = .zero ∨ (isa = .mips ∧ s.cfg.r0Hardwired = true ∧ r = 0) :=
  (State.known_iff_of_written_eq_false rfl r).trans (or_congr_right (State.hardwired_iff _ r))

/-- The bytes of a fresh core: 0 below the image, the image, 0 past it (70_reset R150). -/
theorem State.peek_freshCore (s : State) (image : List Byte) (isa : Isa) (a b : Word) :
    (s.freshCore image isa a).peek b
      = if a.toNat ≤ b.toNat then (image[b.toNat - a.toNat]?).getD 0x00 else 0x00 :=
  Memory.read_ofImage image a.toNat b.toNat

/-! ### The statements -/

/-- Settles O23: every field is the value `State.reset` names, and an `Idle` core refuses its step. -/
theorem resetIsConstructedCore : Obligations.ResetIsConstructedCore :=
  ⟨rfl, rfl, rfl, rfl, rfl, rfl, rfl, rfl, rfl, State.readReg_of_x_eq_zero rfl, rfl, rfl, rfl,
    State.getElem?_written_ne_some_true rfl, rfl, State.attempt_idle _ _ rfl⟩

/-- Settles O24: a load is refused just where the image does not fit, and else builds the fresh core, whose bytes
are those of the image's memory and whose registers nothing has written. -/
theorem loadBuildsFreshCore : Obligations.LoadBuildsFreshCore := by
  refine ⟨fun _ _ _ _ _ => rfl, fun s image isa a valid => ?_⟩
  simp only [← imageFits_eq_false_iff]
  split_ifs with refused
  · exact s.load_of_not_imageFits isa refused
  · exact ⟨s.freshCore image isa a, s.load_of_imageFits isa (Bool.eq_true_of_not_eq_false refused),
      rfl, rfl, rfl, rfl, rfl, rfl, rfl, s.known_freshCore image isa a,
      fun r _ => State.readReg_of_x_eq_zero rfl r, rfl, rfl, rfl, rfl, s.peek_freshCore image isa a, rfl,
      State.getElem?_written_ne_some_true rfl, rfl⟩

end Sys2Proof.Machine

/-! SUPPORT and PROOFS. The family `other`, part 1: encoding and decoding are inverse to each other. -/

namespace Sys2Proof

open Laws.EncodesRow (rowsOf)

/-! ### Encoding, then decoding -/

/-- The encoding of every instruction matches a row of its map, and the row builds the instruction from it. -/
theorem encodesRow : ∀ i : Instr, Laws.EncodesRow.Statement i
  | .mipsSll _ _ _ => Laws.EncodesRow.mipsSll _ _ _
  | .mipsSrl _ _ _ => Laws.EncodesRow.mipsSrl _ _ _
  | .mipsJr _ => Laws.EncodesRow.mipsJr _
  | .mipsSyscall _ => Laws.EncodesRow.mipsSyscall _
  | .mipsAdd _ _ _ => Laws.EncodesRow.mipsAdd _ _ _
  | .mipsSub _ _ _ => Laws.EncodesRow.mipsSub _ _ _
  | .mipsAnd _ _ _ => Laws.EncodesRow.mipsAnd _ _ _
  | .mipsOr _ _ _ => Laws.EncodesRow.mipsOr _ _ _
  | .mipsNor _ _ _ => Laws.EncodesRow.mipsNor _ _ _
  | .mipsBeq _ _ _ => Laws.EncodesRow.mipsBeq _ _ _
  | .mipsBne _ _ _ => Laws.EncodesRow.mipsBne _ _ _
  | .mipsAddi _ _ _ => Laws.EncodesRow.mipsAddi _ _ _
  | .mipsAndi _ _ _ => Laws.EncodesRow.mipsAndi _ _ _
  | .mipsOri _ _ _ => Laws.EncodesRow.mipsOri _ _ _
  | .mipsXori _ _ _ => Laws.EncodesRow.mipsXori _ _ _
  | .mipsLw _ _ _ => Laws.EncodesRow.mipsLw _ _ _
  | .mipsSw _ _ _ => Laws.EncodesRow.mipsSw _ _ _
  | .armAddImm _ _ _ _ => Laws.EncodesRow.armAddImm _ _ _ _
  | .armAddReg _ _ _ => Laws.EncodesRow.armAddReg _ _ _
  | .armSubImm _ _ _ _ => Laws.EncodesRow.armSubImm _ _ _ _
  | .armSubReg _ _ _ => Laws.EncodesRow.armSubReg _ _ _
  | .armMovImm _ _ _ => Laws.EncodesRow.armMovImm _ _ _
  | .armMovReg _ _ => Laws.EncodesRow.armMovReg _ _
  | .armB _ => Laws.EncodesRow.armB _
  | .armBl _ => Laws.EncodesRow.armBl _
  | .ppcAddi _ _ _ => Laws.EncodesRow.ppcAddi _ _ _
  | .ppcSubf _ _ _ => Laws.EncodesRow.ppcSubf _ _ _
  | .ppcAdd _ _ _ => Laws.EncodesRow.ppcAdd _ _ _
  | .ppcOr _ _ _ => Laws.EncodesRow.ppcOr _ _ _
  | .x86Add _ _ => Laws.EncodesRow.x86Add _ _
  | .x86Sub _ _ => Laws.EncodesRow.x86Sub _ _
  | .x86Mov _ _ => Laws.EncodesRow.x86Mov _ _

/-- The word of a well-formed instruction decodes to it (30_encoding R56, R60, R62, R64). -/
theorem decode_encodeWord {i : Instr} (wf : i.wf = true) : decode i.isa (encodeWord i) = .ok i := by
  obtain ⟨r, hr, hw, hbuild⟩ := encodesRow i
  exact (decode_ok_iff _ _ _).2 ⟨⟨r, hr, hw, hbuild.symm⟩, wf⟩

/-- The low 16 bits of a word of four bytes are those of its first two bytes (20_memory R36). -/
theorem wordOfBytes_and_low16 (b0 b1 b2 b3 : Byte) :
    wordOfBytes b0 b1 b2 b3 &&& 0x0000FFFF#32 = wordOfBytes b0 b1 0#8 0#8 := by
  have byte (b : Byte) : b &&& 255#8 = b := BitVec.and_allOnes
  simp only [wordOfBytes, or_and_word, place_and]
  simp [field, byte]

/-- The x86 decoder reads the first two bytes of the fetched four (30_encoding R63). -/
theorem decode_x86_wordOfBytes (b0 b1 b2 b3 : Byte) :
    decode .x86 (wordOfBytes b0 b1 b2 b3) = decode .x86 (wordOfBytes b0 b1 0#8 0#8) := by
  rw [decode_x86_low16, wordOfBytes_and_low16]

/-- The decoder reads a well-formed instruction back from the head of any byte sequence. -/
theorem decodeBytes_encode {i : Instr} (wf : i.wf = true) (rest : List Byte) :
    decodeBytes i.isa (encode i ++ rest) = .ok (i, rest) := by
  have decoded := decode_encodeWord wf
  rw [← wordOfBytes_byteOfWord (encodeWord i)] at decoded
  unfold encode
  cases hisa : i.isa with
  | mips | arm | powerPc =>
    rw [hisa] at decoded
    simp [instrLength, List.range_succ, decodeBytes, decoded, Except.map]
  | x86 =>
    rw [hisa, decode_x86_wordOfBytes] at decoded
    simp [instrLength, List.range_succ, decodeBytes, decoded, Except.map]

theorem ok_of_map_pair {x : Except Reject Instr} {i : Instr} {rest rest' : List Byte}
    (h : x.map (fun i => (i, rest')) = .ok (i, rest)) : x = .ok i := by
  cases x with
  | error r => cases h
  | ok j => cases h; rfl

/-- What the decoder reads from four bytes is what their word decodes to (30_encoding R53). -/
theorem decode_of_decodeBytes {isa : Isa} {b0 b1 b2 b3 : Byte} {i : Instr} {rest : List Byte}
    (h : decodeBytes isa [b0, b1, b2, b3] = .ok (i, rest)) :
    decode isa (wordOfBytes b0 b1 b2 b3) = .ok i := by
  cases isa with
  | mips | arm | powerPc => exact ok_of_map_pair h
  | x86 => exact (decode_x86_wordOfBytes b0 b1 b2 b3).trans (ok_of_map_pair h)

/-! ### Decoding, then encoding -/

/-- A field put back where it came from is the word under the field's mask. -/
theorem place_field (w : Word) (lo len : Nat) :
    place (field w lo len) lo = w &&& place (BitVec.allOnes len) lo := by
  rw [BitVec.and_comm, place_and, BitVec.and_comm, BitVec.and_allOnes]

/-- The fields of an instruction's format, each by its lowest bit and its length, in the order in which the format
writes them (30_encoding R54, R57, R61, R63). -/
def formatFields : Instr → List (Nat × Nat)
  | .mipsSll _ _ _ | .mipsSrl _ _ _ | .mipsJr _ | .mipsAdd _ _ _ | .mipsSub _ _ _ | .mipsAnd _ _ _
  | .mipsOr _ _ _ | .mipsNor _ _ _ => [(26, 6), (21, 5), (16, 5), (11, 5), (6, 5), (0, 6)]
  | .mipsSyscall _ => [(26, 6), (6, 20), (0, 6)]
  | .mipsBeq _ _ _ | .mipsBne _ _ _ | .mipsAddi _ _ _ | .mipsAndi _ _ _ | .mipsOri _ _ _ | .mipsXori _ _ _
  | .mipsLw _ _ _ | .mipsSw _ _ _ | .ppcAddi _ _ _ => [(26, 6), (21, 5), (16, 5), (0, 16)]
  | .armAddImm _ _ _ _ | .armSubImm _ _ _ _ | .armMovImm _ _ _ =>
    [(28, 4), (26, 2), (25, 1), (21, 4), (20, 1), (16, 4), (12, 4), (8, 4), (0, 8)]
  | .armAddReg _ _ _ | .armSubReg _ _ _ | .armMovReg _ _ =>
    [(28, 4), (26, 2), (25, 1), (21, 4), (20, 1), (16, 4), (12, 4), (4, 8), (0, 4)]
  | .armB _ | .armBl _ => [(28, 4), (26, 2), (25, 1), (24, 1), (0, 24)]
  | .ppcSubf _ _ _ | .ppcAdd _ _ _ => [(26, 6), (21, 5), (16, 5), (11, 5), (10, 1), (1, 9), (0, 1)]
  | .ppcOr _ _ _ => [(26, 6), (21, 5), (16, 5), (11, 5), (1, 10), (0, 1)]
  | .x86Add _ _ | .x86Sub _ _ | .x86Mov _ _ => [(14, 2), (11, 3), (8, 3), (0, 8)]

/-- A format's fields cover the word, on x86 its low 16 bits. -/
theorem fieldsMask_formatFields (i : Instr) :
    fieldsMask (formatFields i) = if i.isa = .x86 then 0x0000FFFF else 0xFFFFFFFF := by
  cases i <;> rfl

/-- A field as a row reads it: the pattern's value where the row fixes the field, else the word's. -/
def rowField (r : Row) (w : Word) (lo len : Nat) : BitVec len :=
  if field r.mask lo len = BitVec.allOnes len then field r.pat lo len else field w lo len

theorem rowField_eq {r : Row} {w : Word} (hw : rowMatches r w = true) (lo len : Nat) :
    rowField r w lo len = field w lo len := by
  unfold rowField
  split_ifs with fixed
  · exact (field_of_rowMatches hw ⟨fixed, rfl⟩).symm
  · rfl

/-- The fields that a row reads, put together from the left. -/
def rowWord (r : Row) (w : Word) : List (Nat × Nat) → Word
  | [] => 0
  | f :: fs => fs.foldl (fun acc g => acc ||| place (rowField r w g.1 g.2) g.1) (place (rowField r w f.1 f.2) f.1)

/-- Put together, the fields of a word of the row are the word under their mask. -/
theorem rowWord_eq {r : Row} {w : Word} (hw : rowMatches r w = true) (fs : List (Nat × Nat)) :
    rowWord r w fs = w &&& fieldsMask fs := by
  have fold (fs : List (Nat × Nat)) (m : Word) :
      fs.foldl (fun acc g => acc ||| place (rowField r w g.1 g.2) g.1) (w &&& m) = w &&& (m ||| fieldsMask fs) := by
    induction fs generalizing m with
    | nil => simp [fieldsMask]
    | cons g fs ih =>
      rw [List.foldl_cons, rowField_eq hw, place_field, ← BitVec.and_or_distrib_left, ih, fieldsMask,
        BitVec.or_assoc]
  cases fs with
  | nil => simp [rowWord, fieldsMask]
  | cons f fs => rw [rowWord, rowField_eq hw, place_field, fold, fieldsMask]

/-- The encoding of what a row reads writes the fixed fields of the row and the fields it read
(30_encoding R56, R60, R62, R64). -/
theorem encodeWord_build {isa : Isa} {r : Row} (hr : r ∈ rowsOf isa) (w : Word) :
    encodeWord (r.build w) = rowWord r w (formatFields (r.build w)) := by
  cases isa <;> fin_cases hr <;> rfl

/-- A decoded word is the encoding of what it decodes to, on x86 its low 16 bits. -/
theorem encodeWord_of_decode {isa : Isa} {w : Word} {i : Instr} (h : decode isa w = .ok i) :
    encodeWord i = if isa = .x86 then w &&& 0x0000FFFF else w := by
  obtain ⟨⟨r, hr, hw, rfl⟩, -⟩ := (decode_ok_iff isa w i).1 h
  rw [encodeWord_build hr, rowWord_eq hw, fieldsMask_formatFields, isa_of_mem_rowsOf hr]
  split_ifs
  · rfl
  · exact BitVec.and_allOnes

end Sys2Proof

namespace Sys2Proof.Machine

/-- The word of four bytes that begin with the bytes of an instruction decodes to it (20_memory R38). -/
theorem decode_of_encode_head {i : Instr} (wf : i.wf = true) {b0 b1 b2 b3 : Byte}
    (h : encode i <+: [b0, b1, b2, b3]) : decode i.isa (wordOfBytes b0 b1 b2 b3) = .ok i := by
  obtain ⟨rest, h⟩ := h
  exact decode_of_decodeBytes (h ▸ decodeBytes_encode wf rest)

/-- Settles O1: the bytes of an encoding compose to its word, which matches the instruction's row. -/
theorem decodeEncodeAgree : Obligations.DecodeEncodeAgree :=
  fun _ rest wf => decodeBytes_encode wf rest

/-- Settles O2: the row that read the instruction fixes some fields of the word and read all the others. -/
theorem decodedWordsEncodeBack : Obligations.DecodedWordsEncodeBack :=
  fun _ _ _ h => ⟨decode_isa h, decode_wf h, encodeWord_of_decode h⟩

/-- Settles O5: each word is decoded by evaluation. -/
theorem wordsOfTheSpecDecode : Obligations.WordsOfTheSpecDecode :=
  ⟨rfl, rfl, rfl, rfl, rfl, rfl, rfl, rfl, rfl⟩

/-- Settles O7: past the guard the step issues the fetched word, which the bus read. -/
theorem stepRunsDecodedInstruction : Obligations.StepRunsDecodedInstruction :=
  fun s _ hactive hfetch h => ⟨step_of_decode_ok hactive hfetch h, s.readWord_onlyReads s.pc⟩

/-- Settles O8: the four bytes are read without effect, and begin with the instruction's encoding. -/
theorem stepRunsStoredInstruction : Obligations.StepRunsStoredInstruction := by
  intro s i hactive hfetch hisa wf stored bytes
  have fetched := s.readWord_stored s.pc stored
  have atPc : encode i <+: [s.peek s.pc, s.peek (s.pc + 1), s.peek (s.pc + 2), s.peek (s.pc + 3)] := by
    have length : (encode i).length ≤ 4 := by
      unfold encode
      cases i.isa <;> simp [instrLength]
    refine List.prefix_iff_getElem?.2 fun k hk => ?_
    have byte := bytes k hk
    have hk4 : k < 4 := by omega
    rw [List.getElem?_eq_getElem hk] at byte
    rw [byte]
    interval_cases k <;> simp
  have runs := step_of_decode_ok (i := i) hactive hfetch
  rw [fetched] at runs
  rw [runs (hisa ▸ decode_of_encode_head wf atPc), wordOfBytes_eq_append]
  rfl

end Sys2Proof.Machine


/-! SUPPORT and PROOFS. The family `other`, part 2: what every part of a cycle keeps, a cycle keeps. The trace, the
parameters, ROM, the registers' values and the invariant are each one such relation. -/

namespace Sys2Proof.Machine

/-! ### Relations that a cycle keeps -/

theorem OnlyReads.status {s t : State} (h : OnlyReads s t) : t.status = s.status := by
  obtain ⟨as, n, rfl⟩ := h; rfl

theorem OnlyWrites.status {s t : State} (h : OnlyWrites s t) : t.status = s.status := by
  obtain ⟨m, io, evs, rfl⟩ := h; rfl

/-- A relation between the state before and the state after, that holds over each part of a cycle and composes: the
bus accesses, the trace, `ir`, the registers an instruction set has, the x86 flags, and the two ends of a cycle
(40_cycle R74). -/
structure KeptByParts (R : State → State → Prop) : Prop where
  trans : ∀ {s t u}, R s t → R t u → R s u
  reads : ∀ {s t}, OnlyReads s t → R s t
  writeWord : ∀ (s : State) a v, R s (s.writeWord a v)
  emit : ∀ (s : State) e, R s (s.emit e)
  setIr : ∀ (s : State) w, R s (s.setIr w)
  writeReg : ∀ (s : State) (d : RegIx) v, d.toNat < storedRegs s.cfg.isa → R s (s.writeReg d v)
  setX86Flags : ∀ (s : State) f, s.cfg.isa = .x86 → R s (s.setX86Flags f)
  complete : ∀ (s : State) target, s.active → R s (s.complete target)
  halt : ∀ (s : State) c, s.active → R s (s.halt c)

section

variable {R : State → State → Prop} {s t : State}

theorem KeptByParts.of_does (hR : KeptByParts R) {i : Instr} (hactive : s.active) (hisa : i.isa = s.cfg.isa)
    (wf : i.wf = true) (h : Does i s t) : R s t := by
  cases h with
  | halts c => exact hR.halt s c hactive
  | jumps target => exact hR.complete s target hactive
  | setsReg d v target hd =>
    exact hR.trans (hR.writeReg s d v (hisa ▸ hd wf)) (hR.complete _ _ (by simpa [State.active] using hactive))
  | setsFlags f d v target hi hd =>
    have x86 : s.cfg.isa = .x86 := hisa ▸ hi
    refine hR.trans (hR.setX86Flags s f x86) (hR.trans (hR.writeReg _ d v ?_) (hR.complete _ _ ?_))
    · rwa [State.setX86Flags_cfg, x86]
    · simpa [State.active] using hactive
  | loads a d target hd =>
    have reads := s.readWord_onlyReads a
    refine hR.trans (hR.reads reads) (hR.trans (hR.writeReg _ d _ ?_) (hR.complete _ _ ?_))
    · rw [reads.cfg, ← hisa]; exact hd wf
    · simpa [State.active, reads.status] using hactive
  | stores a v target =>
    refine hR.trans (hR.writeWord s a v) (hR.complete _ _ ?_)
    simpa [State.active, (s.writeWord_onlyWrites a v).status] using hactive
  | printsInt n target => exact hR.trans (hR.emit s _) (hR.complete _ _ hactive)
  | printsText n a target =>
    have reads := State.readString_onlyReads n s a
    refine hR.trans (hR.reads reads) (hR.trans (hR.emit _ _) (hR.complete _ _ ?_))
    simpa [State.active, reads.status] using hactive

theorem KeptByParts.of_issue (hR : KeptByParts R) {w : Word} (hactive : s.active) (h : s.issue w = .next t) :
    R s t := by
  refine hR.trans (hR.setIr s w) ?_
  rcases s.issue_next w with ⟨i, u, -, hisa, wf, hu, does⟩ | ⟨-, hu⟩ <;> rw [hu] at h <;> cases h
  · exact hR.of_does hactive hisa wf does
  · exact hR.halt _ _ hactive

theorem KeptByParts.of_attempt (hR : KeptByParts R) {k : Result} (hk : s.active → k = .next t → R s t)
    (h : s.attempt k = .next t) : R s t := by
  obtain ⟨hactive, ⟨c, -, rfl⟩ | ⟨-, h⟩⟩ := State.attempt_next h
  · exact hR.halt s c hactive
  · exact hk hactive h

theorem KeptByParts.of_execWord (hR : KeptByParts R) {w : Word} (h : s.execWord w = .next t) : R s t :=
  hR.of_attempt hR.of_issue h

theorem KeptByParts.of_step (hR : KeptByParts R) (h : step s = .next t) : R s t := by
  refine hR.of_attempt (fun hactive h => ?_) h
  have reads : OnlyReads s s.fetch.2 := s.readWord_onlyReads s.pc
  exact hR.trans (hR.reads reads) (hR.of_issue (by simpa [State.active, reads.status] using hactive) h)

/-- What each part of a cycle keeps, a step and a supplied word keep. -/
theorem KeptByParts.of_cycle (hR : KeptByParts R) {w : Word} (h : step s = .next t ∨ s.execWord w = .next t) :
    R s t :=
  h.elim hR.of_step hR.of_execWord

/-! ### The trace -/

theorem traceGrows_keptByParts : KeptByParts fun s t => s.trace <+: t.trace where
  trans := List.IsPrefix.trans
  reads := by rintro _ _ ⟨unmapped, n, rfl⟩; exact ⟨_, rfl⟩
  writeWord s a v := by
    obtain ⟨m, io, evs, h⟩ := s.writeWord_onlyWrites a v
    exact ⟨evs, by rw [h]⟩
  emit _ _ := ⟨_, rfl⟩
  setIr _ _ := ⟨[], List.append_nil _⟩
  writeReg s d v _ := ⟨[], by simp⟩
  setX86Flags _ _ _ := ⟨[], List.append_nil _⟩
  complete _ _ _ := ⟨[], List.append_nil _⟩
  halt _ _ _ := ⟨_, rfl⟩

/-! ### Registers that have a value -/

theorem known_keptByParts : KeptByParts fun s t => ∀ r, s.known r = true → t.known r = true where
  trans h k r hr := k r (h r hr)
  reads := by rintro _ _ ⟨unmapped, n, rfl⟩ r hr; exact hr
  writeWord s a v r hr := by
    obtain ⟨m, io, evs, h⟩ := s.writeWord_onlyWrites a v
    rw [h]; exact hr
  emit _ _ _ hr := hr
  setIr _ _ _ hr := hr
  writeReg s d v _ r hr := by rw [s.known_writeReg, hr, Bool.true_or]
  setX86Flags _ _ _ _ hr := hr
  complete _ _ _ _ hr := hr
  halt _ _ _ _ hr := hr

/-! ### What no step writes -/

/-- The parameters, the lengths of ROM and RAM, the stop flag and `cpsr` are as they were, and so is, with memory in
canonical form, every byte outside RAM. -/
def SameOutsideRam (s t : State) : Prop :=
  (t.cfg = s.cfg ∧ t.romLen = s.romLen ∧ t.ramLen = s.ramLen ∧ t.stopRequested = s.stopRequested ∧ t.cpsr = s.cpsr)
    ∧ (s.mem.wf = true → t.mem.wf = true
      ∧ ∀ a : Word, a.toNat < 0x80000000 ∨ 0x80000000 + s.ramLen ≤ a.toNat → t.peek a = s.peek a)

theorem SameOutsideRam.of_mem_eq (fixed : t.cfg = s.cfg ∧ t.romLen = s.romLen ∧ t.ramLen = s.ramLen
    ∧ t.stopRequested = s.stopRequested ∧ t.cpsr = s.cpsr) (mem : t.mem = s.mem) : SameOutsideRam s t :=
  ⟨fixed, fun wf => ⟨mem ▸ wf, fun a _ => by rw [State.peek, mem, State.peek]⟩⟩

theorem SameOutsideRam.trans {u : State} (h : SameOutsideRam s t) (k : SameOutsideRam t u) : SameOutsideRam s u := by
  obtain ⟨⟨hcfg, hrom, hram, hstop, hcpsr⟩, hmem⟩ := h
  obtain ⟨⟨kcfg, krom, kram, kstop, kcpsr⟩, kmem⟩ := k
  refine ⟨⟨kcfg.trans hcfg, krom.trans hrom, kram.trans hram, kstop.trans hstop, kcpsr.trans hcpsr⟩, fun wf => ?_⟩
  obtain ⟨wfT, peekT⟩ := hmem wf
  obtain ⟨wfU, peekU⟩ := kmem wfT
  exact ⟨wfU, fun a ha => (peekU a (hram ▸ ha)).trans (peekT a ha)⟩

theorem sameOutsideRam_writeWord (s : State) (a v : Word) : SameOutsideRam s (s.writeWord a v) := by
  refine ⟨?_, fun wf => ⟨s.writeWord_memWf a v wf, fun b hb => ?_⟩⟩
  · obtain ⟨m, io, evs, h⟩ := s.writeWord_onlyWrites a v
    rw [h]
    exact ⟨rfl, rfl, rfl, rfl, rfl⟩
  · have notRam : s.isRam b ≠ true := by rw [Ne, s.isRam_iff]; omega
    rw [s.writeWord_peek a v b wf, if_neg notRam]

theorem sameOutsideRam_keptByParts : KeptByParts SameOutsideRam where
  trans := SameOutsideRam.trans
  reads := by rintro _ _ ⟨unmapped, n, rfl⟩; exact .of_mem_eq ⟨rfl, rfl, rfl, rfl, rfl⟩ rfl
  writeWord := sameOutsideRam_writeWord
  emit _ _ := .of_mem_eq ⟨rfl, rfl, rfl, rfl, rfl⟩ rfl
  setIr _ _ := .of_mem_eq ⟨rfl, rfl, rfl, rfl, rfl⟩ rfl
  writeReg s d v _ := .of_mem_eq (by simp) (by simp)
  setX86Flags _ _ _ := .of_mem_eq ⟨rfl, rfl, rfl, rfl, rfl⟩ rfl
  complete _ _ _ := .of_mem_eq ⟨rfl, rfl, rfl, rfl, rfl⟩ rfl
  halt _ _ _ := .of_mem_eq ⟨rfl, rfl, rfl, rfl, rfl⟩ rfl

/-! ### The invariant -/

/-- `eflags` keeps its reserved bits when the six flags are written (10_state R21). -/
theorem withX86Flags_and_not_mask (e : Word) (f : X86Flags) :
    withX86Flags e f &&& ~~~x86FlagMask = e &&& ~~~x86FlagMask := by
  apply BitVec.eq_of_getLsbD_eq
  intro k hk
  simp only [BitVec.getLsbD_and, BitVec.getLsbD_not, getLsbD_x86FlagMask, getLsbD_withX86Flags]
  split_ifs with flag <;> simp [flag]

/-- The invariant does not speak of `pc`, `ir`, the count, the stop flag, the MMIO registers, the trace and the
draws. -/
theorem State.Inv.of_same (hs : s.Inv)
    (h : t = { s with pc := t.pc, ir := t.ir, instructionCount := t.instructionCount,
                      stopRequested := t.stopRequested, io := t.io, trace := t.trace, draws := t.draws }) : t.Inv := by
  rw [h]
  exact ⟨hs.cfgWf, hs.memWf, hs.memInside, hs.romFits, hs.ramFits, hs.hardwiredZero, hs.unusedZero, hs.cpsrZero,
    hs.eflagsReserved, hs.eflagsX86, hs.haltRecorded, hs.writtenOnlyUnknown⟩

theorem State.Inv.writeWord (hs : s.Inv) (a v : Word) : (s.writeWord a v).Inv := by
  have memWf := s.writeWord_memWf a v hs.memWf
  have cells := s.writeWord_cells a v
  obtain ⟨m, io, evs, h⟩ := s.writeWord_onlyWrites a v
  rw [h] at memWf cells ⊢
  exact { hs with memWf := memWf, memInside := fun c hc => (cells c hc).elim (hs.memInside c) .inr }

/-- A write to a register that the instruction set has leaves the hardwired and the absent registers 0. -/
theorem State.Inv.writeReg (hs : s.Inv) {d : RegIx} (hd : d.toNat < storedRegs s.cfg.isa) (v : Word) :
    (s.writeReg d v).Inv where
  cfgWf := by simpa using hs.cfgWf
  memWf := by simpa using hs.memWf
  memInside := by simpa using hs.memInside
  romFits := by simpa using hs.romFits
  ramFits := by simpa using hs.ramFits
  hardwiredZero r hr := by
    rw [State.writeReg_hardwired] at hr
    rw [s.writeReg_cell, if_neg, hs.hardwiredZero r hr]
    rintro ⟨rfl, notHardwired⟩
    rw [hr] at notHardwired
    cases notHardwired
  unusedZero r hr := by
    rw [State.writeReg_cfg] at hr
    rw [s.writeReg_cell, if_neg, hs.unusedZero r hr]
    rintro ⟨rfl, -⟩
    omega
  cpsrZero := by simpa using hs.cpsrZero
  eflagsReserved := by simpa using hs.eflagsReserved
  eflagsX86 := by simpa using hs.eflagsX86
  haltRecorded := by simpa using hs.haltRecorded
  writtenOnlyUnknown hzero := by
    rw [State.writeReg_cfg] at hzero
    rw [s.writeReg_written_of_zero d v hzero, hs.writtenOnlyUnknown hzero]

theorem State.Inv.setX86Flags (hs : s.Inv) (f : X86Flags) (x86 : s.cfg.isa = .x86) : (s.setX86Flags f).Inv :=
  { hs with
    eflagsReserved := (withX86Flags_and_not_mask s.eflags f).trans hs.eflagsReserved
    eflagsX86 := fun h => absurd x86 h }

/-- An image is loaded and no cause is recorded in an active core. -/
theorem State.Inv.active (hs : s.Inv) (hactive : s.active) : s.ramLen = s.cfg.ramSize ∧ s.haltCause = none := by
  have notIdle : s.status ≠ .idle := by rcases hactive with h | h <;> simp [h]
  have notHalted : s.status ≠ .halted := by rcases hactive with h | h <;> simp [h]
  exact ⟨hs.ramFits.trans (if_neg notIdle), not_not.1 fun h => notHalted (hs.haltRecorded.2 h)⟩

theorem State.Inv.complete (hs : s.Inv) (hactive : s.active) (target : Word) : (s.complete target).Inv := by
  obtain ⟨ramLen, noCause⟩ := hs.active hactive
  exact { hs with
    ramFits := ramLen
    haltRecorded := by simp [noCause] }

theorem State.Inv.halt (hs : s.Inv) (hactive : s.active) (c : HaltCause) : (s.halt c).Inv := by
  obtain ⟨ramLen, -⟩ := hs.active hactive
  exact { hs with
    ramFits := ramLen
    haltRecorded := by simp }

theorem inv_keptByParts : KeptByParts fun s t => s.Inv → t.Inv where
  trans h k hs := k (h hs)
  reads := by rintro _ _ ⟨unmapped, n, rfl⟩ hs; exact hs.of_same rfl
  writeWord _ a v hs := hs.writeWord a v
  emit _ _ hs := hs.of_same rfl
  setIr _ _ hs := hs.of_same rfl
  writeReg _ _ v hd hs := hs.writeReg hd v
  setX86Flags _ f x86 hs := hs.setX86Flags f x86
  complete _ target hactive hs := hs.complete hactive target
  halt _ c hactive hs := hs.halt hactive c

/-- `Stop` keeps the invariant (40_cycle R78). -/
theorem State.Inv.stop (hs : s.Inv) : s.stop.Inv := by
  rw [s.stop_eq]
  split_ifs
  · exact hs.of_same rfl
  · exact hs

/-- In a file of zeros every cell is 0. -/
theorem get_replicate_zero (r : RegIx) : (Vector.replicate 32 (0x00000000 : Word)).get r.toFin = 0 := by
  simp [Vector.get_eq_getElem]

theorem State.reset_inv : State.reset.Inv where
  cfgWf := by decide
  memWf := Memory.wf_nil
  memInside _ hc := absurd hc List.not_mem_nil
  romFits := by decide
  ramFits := rfl
  hardwiredZero r _ := get_replicate_zero r
  unusedZero r _ := get_replicate_zero r
  cpsrZero := rfl
  eflagsReserved := by decide
  eflagsX86 _ := rfl
  haltRecorded := by simp [State.reset]
  writtenOnlyUnknown _ := rfl

/-- A load builds a core that meets the invariant if the parameters keep their limits (70_reset R150). -/
theorem State.freshCore_inv (hwf : s.cfg.wf = true) {image : List Byte} {a : Word} {valid : Bool}
    (fits : imageFits image a valid = true) (isa : Isa) : (s.freshCore image isa a).Inv := by
  have romFits : a.toNat + image.length ≤ ramBase := by
    simp only [imageFits, Bool.and_eq_true, decide_eq_true_eq] at fits
    exact fits.2
  exact { State.reset_inv with
    cfgWf := hwf
    memWf := Memory.wf_ofImage image a.toNat
    memInside := fun c hc => .inl (Memory.mem_ofImage image a.toNat c hc).2
    romFits := romFits
    ramFits := rfl
    hardwiredZero := fun r _ => get_replicate_zero r
    unusedZero := fun r _ => get_replicate_zero r
    eflagsX86 := fun _ => rfl
    haltRecorded := by simp [State.freshCore, State.reset]
    writtenOnlyUnknown := fun _ => rfl }

/-- What each part of a cycle keeps, and a state keeps with itself, a run of any length keeps (40_cycle R81). -/
theorem KeptByParts.of_runFor (hR : KeptByParts R) {n : Nat} (h : runFor n s = .next t) : R s t :=
  runFor_invariant (P := R s) (fun _ _ hs hstep => hR.trans hs (hR.of_step hstep)) (hR.reads (.refl s)) h

end

/-! ### The statements -/

/-- Settles O18: every part of a cycle only adds to the trace. -/
theorem traceOnlyGrows : Obligations.TraceOnlyGrows :=
  ⟨fun _ _ _ => traceGrows_keptByParts.of_cycle, fun _ _ _ => traceGrows_keptByParts.of_runFor⟩

/-- Settles O19: only a word write changes memory, and it writes to RAM. -/
theorem stepsKeepRomAndParameters : Obligations.StepsKeepRomAndParameters := by
  intro s t w wf h
  obtain ⟨⟨cfg, romLen, ramLen, stop, cpsr⟩, mem⟩ := sameOutsideRam_keptByParts.of_cycle h
  exact ⟨cfg, romLen, ramLen, stop, cpsr, (mem wf).2⟩

/-- Settles O20, field by field. -/
theorem resetMeetsInvariant : Obligations.ResetMeetsInvariant :=
  State.reset_inv

/-- Settles O21: each part of a cycle keeps the invariant. -/
theorem stepKeepsInvariant : Obligations.StepKeepsInvariant :=
  fun _ _ hs h => inv_keptByParts.of_step h hs

/-- Settles O22: a supplied word and a run are made of the parts of a cycle, `Stop` sets a flag of which the invariant
does not speak, and a load builds a fresh core. -/
theorem hostOperationsKeepInvariant : Obligations.HostOperationsKeepInvariant := by
  refine fun s hs => ⟨hs.stop, fun w t h => inv_keptByParts.of_execWord h hs,
    fun n t h => inv_keptByParts.of_runFor h hs, fun image tag a valid t h => ?_⟩
  obtain ⟨isa, -, fits, rfl⟩ := State.load_ok h
  exact State.freshCore_inv hs.cfgWf fits isa

/-- Settles O38: only a register write changes which registers have a value, and it adds one. -/
theorem writtenRegistersStayWritten : Obligations.WrittenRegistersStayWritten :=
  fun _ _ _ r h => known_keptByParts.of_cycle h r

end Sys2Proof.Machine


/-! SUPPORT and PROOFS. The family `other`, part 3: which cores step, the order of the halt causes, and how a run
is cut. -/

namespace Sys2Proof.Machine

/-! ### Which cores step -/

/-- A supplied word takes every active core to a next state (40_cycle R83). -/
theorem State.exists_execWord_of_active {s : State} (h : s.active) (w : Word) : ∃ t, s.execWord w = .next t := by
  rw [State.execWord, s.attempt_active _ h]
  split
  · exact ⟨_, rfl⟩
  · obtain ⟨t, ht, -⟩ := s.issue_ir w
    exact ⟨t, ht⟩

/-- A cycle changes the count exactly when it completes an instruction (40_cycle R76). -/
theorem CycleEnds.count {s t : State} (h : CycleEnds s t) :
    t.instructionCount = if t.status = .halted then s.instructionCount else s.instructionCount + 1 := by
  cases h with
  | completes status count => simpa [status] using count
  | halts c status count => simpa [status] using count

theorem State.allKnown_pair_eq_false {s : State} {a b : RegIx} (h : s.known a = false ∨ s.known b = false) :
    s.allKnown [a, b] = false := by
  rcases h with h | h <;> simp [State.allKnown, h]

/-! ### Runs -/

theorem runFor_of_idle (n : Nat) {s : State} (h : s.status = .idle) : runFor n s = .refused .notLoaded := by
  cases n <;> simp [runFor, h]

theorem runFor_zero {s : State} (h : s.status ≠ .idle) : runFor 0 s = .next s := by
  unfold runFor
  split <;> simp_all

theorem State.active_or_halted {s : State} (h : s.status ≠ .idle) : s.active ∨ s.status = .halted := by
  unfold State.active
  cases hs : s.status <;> simp_all

theorem CycleEnds.not_idle {s t : State} (h : CycleEnds s t) : t.status ≠ .idle := by
  cases h with
  | completes status => simp [status]
  | halts c status => simp [status]

/-- Outside `Idle` a run of any length answers a next state (40_cycle R81). -/
theorem exists_runFor (n : Nat) {s : State} (h : s.status ≠ .idle) : ∃ t, runFor n s = .next t := by
  induction n generalizing s with
  | zero => exact ⟨s, runFor_zero h⟩
  | succ n ih =>
    rcases State.active_or_halted h with hactive | hhalted
    · obtain ⟨t, ht⟩ := exists_step_of_active hactive
      rw [runFor_succ_of_step n ht]
      exact ih (step_cycleEnds ht).2.not_idle
    · exact ⟨s, runFor_of_halted _ hhalted⟩

/-- A run may be cut anywhere (40_cycle R81). -/
theorem runFor_add {n : Nat} (m : Nat) {s t : State} (h : runFor n s = .next t) :
    runFor (n + m) s = runFor m t := by
  have notIdle : s.status ≠ .idle := fun idle => by rw [runFor_of_idle n idle] at h; cases h
  induction n generalizing s with
  | zero =>
    rw [runFor_zero notIdle] at h
    cases h
    rw [Nat.zero_add]
  | succ n ih =>
    rcases State.active_or_halted notIdle with hactive | hhalted
    · obtain ⟨u, hu⟩ := exists_step_of_active hactive
      rw [runFor_succ_of_step n hu] at h
      rw [Nat.add_right_comm, runFor_succ_of_step (n + m) hu]
      exact ih h (step_cycleEnds hu).2.not_idle
    · rw [runFor_of_halted _ hhalted] at h
      cases h
      rw [runFor_of_halted _ hhalted, runFor_of_halted _ hhalted]

/-! ### Snapshots -/

/-- A snapshot of some addresses holds what memory holds at them (40_cycle R84). -/
theorem Memory.read_filter (p : Nat → Bool) (m : Memory) {a : Nat} (h : p a = true) :
    Memory.read (m.filter fun c => p c.1) a = m.read a := by
  induction m with
  | nil => rfl
  | cons c m ih =>
    rw [List.filter_cons]
    split_ifs with hc
    · rw [Memory.read_cons, Memory.read_cons, ih]
    · have : c.1 ≠ a := by rintro rfl; exact hc h
      rw [ih, Memory.read_cons, if_neg this]

/-! ### The statements -/

/-- Settles O9: the guard of a cycle, and of a run, turns these cores away. -/
theorem idleAndHaltedCoresDoNotStep : Obligations.IdleAndHaltedCoresDoNotStep :=
  ⟨fun s idle => ⟨s.attempt_idle _ idle, fun _ => s.attempt_idle _ idle, fun n => runFor_of_idle n idle⟩,
    fun s halted => ⟨s.attempt_halted _ halted, fun _ => s.attempt_halted _ halted⟩⟩

/-- Settles O10: an active core halts at its start or issues a word, and every issued word has a next state. -/
theorem activeCoresStep : Obligations.ActiveCoresStep :=
  fun s => ⟨⟨fun ⟨_, h⟩ => (step_cycleEnds h).1, exists_step_of_active⟩,
    fun w => ⟨fun ⟨_, h⟩ => (State.execWord_cycleEnds h).1, fun h => s.exists_execWord_of_active h w⟩⟩

/-- Settles O12, from the two ends of a cycle. -/
theorem completedStepsAreCounted : Obligations.CompletedStepsAreCounted :=
  fun _ _ _ h => (h.elim step_cycleEnds State.execWord_cycleEnds).2.count

/-- Settles O16: the checks at the start of the step in their order, then the decoder, then inside an instruction the
register check before the alignment check. -/
theorem causesAreTakenInOrder : Obligations.CausesAreTakenInOrder := by
  obtain ⟨-, stop, -⟩ := stopHaltsTheCore
  obtain ⟨budget, -⟩ := budgetHaltsTheCore
  refine ⟨fun s hactive => ⟨fun ⟨hstop, hdue⟩ => stop s hactive hstop hdue, fun notDue =>
    ⟨fun n hn spent => budget s n hactive hn spent notDue, fun left check isa misaligned => ?_⟩,
    fun hfetch => ⟨fun r hr => ?_, fun i hi => step_of_decode_ok hactive hfetch hi⟩⟩,
    fun s rs rt rd imm code => ⟨fun unknown => ?_, fun unknown => ?_, fun unknown => ?_,
      fun hrs hrt check misaligned => ?_⟩⟩
  · have start := s.startCause_misaligned notDue left ⟨check, isa, misaligned⟩
    exact ⟨_, step_of_startCause hactive start, s.haltedWith_halt _⟩
  · exact ⟨_, step_of_decode_error hactive hfetch ⟨r, hr⟩, State.haltedWith_halt (State.setIr _ _) _⟩
  · have unknown := State.allKnown_pair_eq_false unknown
    simp only [List.forall_mem_cons, List.not_mem_nil, false_imp_iff, implies_true, and_true]
    exact ⟨exec_unmodelled rfl unknown, exec_unmodelled rfl unknown, exec_unmodelled rfl unknown⟩
  · have unknown : s.allKnown [rs] = false := (s.allKnown_singleton rs).trans unknown
    simp only [List.forall_mem_cons, List.not_mem_nil, false_imp_iff, implies_true, and_true]
    exact ⟨exec_unmodelled rfl unknown, exec_unmodelled rfl unknown⟩
  · exact exec_unmodelled (reads := [2]) rfl ((s.allKnown_singleton 2).trans unknown)
  · simp only [List.forall_mem_cons, List.not_mem_nil, false_imp_iff, implies_true, and_true]
    have refused := fun k => s.aligned_of_misaligned (ea := s.effectiveAddress rs imm) k ⟨check, misaligned⟩
    exact ⟨⟨_, (exec_mipsSw_of_known s rs rt imm hrs hrt).trans (refused _), rfl⟩,
      ⟨_, (exec_mipsLw_of_known s rs rt imm hrs).trans (refused _), rfl⟩⟩

/-- Settles O25: a run outside `Idle` is a run of steps until the first halted state, which it then stays in. -/
theorem runRepeatsSteps : Obligations.RunRepeatsSteps := by
  refine ⟨fun s n => exists_runFor n, fun s t n m h => runFor_add m h, fun s t n m h halted => ?_,
    fun s n => runFor_of_halted n, fun s hactive => ?_⟩
  · exact (runFor_add m h).trans (runFor_of_halted m halted)
  · have notIdle : s.status ≠ .idle := by rcases hactive with h | h <;> simp [h]
    obtain ⟨t, ht⟩ := exists_step_of_active hactive
    refine ⟨runFor_zero notIdle, ?_⟩
    rw [runFor_succ_of_step 0 ht, runFor_zero (step_cycleEnds ht).2.not_idle, ht]

/-- Settles O27: each shown field is the state's own, and a snapshot keeps the listed bytes of its region. -/
theorem inspectionShowsTheCore : Obligations.InspectionShowsTheCore := by
  refine fun s hs => ⟨rfl, rfl, rfl, rfl, rfl, rfl, ?_, fun k hk => ?_, ?_, rfl, rfl, fun a ha => ?_, fun a ha _ => ?_⟩
  · simp only [State.inspect, List.length_map, List.length_range]
    cases s.cfg.isa <;> rfl
  · simp only [State.inspect, List.length_map, List.length_range] at hk ⊢
    rw [List.getElem?_map, List.getElem?_range hk]
    rfl
  · simp only [State.inspect, State.inspectFlags]
    cases s.cfg.isa <;> rfl
  · have inRom : a.toNat < ramBase := ha.trans_le hs.romFits
    exact Memory.read_filter (fun n => decide (n < ramBase)) s.mem (decide_eq_true inRom)
  · exact Memory.read_filter (fun n => decide (ramBase ≤ n)) s.mem (decide_eq_true ha)

end Sys2Proof.Machine


/-! SUPPORT and PROOFS. The family `other`, part 4: registers read back what was written, and what an instruction may
write. -/

namespace Sys2Proof.Machine

/-! ### The hardwired register -/

/-- A hardwired register reads 0 (10_state R15). -/
theorem State.readReg_of_hardwired (s : State) {r : RegIx} (h : s.hardwired r = true) : s.readReg r = 0 :=
  if_pos h

/-- A hardwired register has a value (10_state R28). -/
theorem State.known_of_hardwired (s : State) {r : RegIx} (h : s.hardwired r = true) : s.known r = true := by
  rw [State.known, h, Bool.or_true, Bool.true_or]

/-! ### `eflags` -/

/-- An instruction leaves `eflags` or, on x86, replaces the six flags (10_state R21). -/
theorem Does.eflags {i : Instr} {s t : State} (h : Does i s t) :
    t.eflags = s.eflags ∨ i.isa = .x86 ∧ ∃ f, t.eflags = withX86Flags s.eflags f := by
  cases h with
  | halts | jumps | printsInt => exact .inl rfl
  | setsReg d v target hd => exact .inl (by simp)
  | setsFlags f d v target x86 hd => exact .inr ⟨x86, f, by simp⟩
  | loads a d target hd =>
    obtain ⟨unmapped, n, reads⟩ := s.readWord_onlyReads a
    exact .inl (by simp [reads])
  | stores a v target =>
    obtain ⟨m, io, evs, writes⟩ := s.writeWord_onlyWrites a v
    exact .inl (by simp [writes])
  | printsText n a target =>
    obtain ⟨unmapped, k, reads⟩ := State.readString_onlyReads n s a
    exact .inl (by simp [reads])

/-! ### Memory and the MMIO registers -/

/-- A result leaves memory and the MMIO storage registers of `s` as they were. -/
def KeepsStorage (s : State) (r : Result) : Prop := ∀ t, r = .next t → t.mem = s.mem ∧ t.io = s.io

theorem KeepsStorage.next {s t : State} (h : t.mem = s.mem ∧ t.io = s.io) : KeepsStorage s (.next t) := by
  rintro _ ⟨⟩; exact h

theorem KeepsStorage.reading {s : State} {rs : List RegIx} {k : Result} (h : KeepsStorage s k) :
    KeepsStorage s (s.reading rs k) := by
  unfold State.reading
  split
  · exact h
  · exact .next ⟨rfl, rfl⟩

theorem KeepsStorage.aligned {s : State} {ea : Word} {k : Result} (h : KeepsStorage s k) :
    KeepsStorage s (s.aligned ea k) := by
  unfold State.aligned
  split
  · exact .next ⟨rfl, rfl⟩
  · exact h

/-- A register write keeps the storage of every state that differs from the one written to elsewhere. -/
theorem KeepsStorage.setRegister {s u : State} (h : u.mem = s.mem ∧ u.io = s.io) (d : RegIx) (v t : Word) :
    KeepsStorage s (u.setRegister d v t) :=
  .next (by simpa using h)

theorem KeepsStorage.setChecked (s : State) (o : Bool) (d : RegIx) (v : Word) :
    KeepsStorage s (s.setChecked o d v) := by
  unfold State.setChecked
  split
  · exact .next ⟨rfl, rfl⟩
  · exact .setRegister ⟨rfl, rfl⟩ d v _

theorem OnlyReads.storage {s t : State} (h : OnlyReads s t) : t.mem = s.mem ∧ t.io = s.io := by
  obtain ⟨unmapped, n, rfl⟩ := h; exact ⟨rfl, rfl⟩

/-- No instruction but `sw` writes memory or an MMIO register (10_state R24, 20_memory R40). -/
theorem exec_keepsStorage {i : Instr} (hi : ∀ rs rt imm, i ≠ .mipsSw rs rt imm) (s : State) :
    KeepsStorage s (exec i s) := by
  cases i with
  | mipsSll | mipsSrl | mipsAnd | mipsOr | mipsNor | mipsAndi | mipsOri | mipsXori
  | armAddImm | armAddReg | armSubImm | armSubReg | armMovReg
  | ppcAddi | ppcSubf | ppcAdd | ppcOr | x86Add | x86Sub | x86Mov => exact .reading (.setRegister ⟨rfl, rfl⟩ _ _ _)
  | mipsAdd | mipsSub | mipsAddi => exact .reading (.setChecked _ _ _ _)
  | mipsBeq | mipsBne | mipsJr => exact .reading (.next ⟨rfl, rfl⟩)
  | mipsSyscall code =>
    refine .reading ?_
    split
    · exact .reading (.next ⟨rfl, rfl⟩)
    · split
      · exact .reading (.next (State.readString_onlyReads _ s _).storage)
      · exact .next ⟨rfl, rfl⟩
  | mipsLw => exact .reading (.aligned (.setRegister (s.readWord_onlyReads _).storage _ _ _))
  | mipsSw rs rt imm => exact absurd rfl (hi rs rt imm)
  | armMovImm | armBl => exact .setRegister ⟨rfl, rfl⟩ _ _ _
  | armB => exact .next ⟨rfl, rfl⟩

/-! ### The statements -/

/-- Settles O37, from the laws of a register write; register 0 is the hardwired one. -/
theorem registersReadBack : Obligations.RegistersReadBack := by
  refine fun s d r v => ⟨?_, ?_, fun isa r0 => ?_⟩
  · simp only [← s.hardwired_iff]
    by_cases hr : s.hardwired r = true
    · rw [if_pos hr, State.readReg_of_hardwired _ (by simpa using hr)]
    · rw [if_neg hr, s.readReg_writeReg]
      exact if_congr ⟨And.left, fun h => ⟨h, by rw [← h]; simpa using hr⟩⟩ rfl rfl
  · rw [s.known_writeReg, Bool.or_eq_true, beq_iff_eq, or_comm]
  · have hardwired : s.hardwired 0 = true := (s.hardwired_iff 0).2 ⟨isa, r0, rfl⟩
    exact ⟨s.readReg_of_hardwired hardwired, s.known_of_hardwired hardwired, s.writeReg_of_hardwired 0 v hardwired⟩

/-- Settles O39: only on x86 does an instruction replace the flags, which are not the reserved bits, and there MOV
follows the register rule, which writes no flag. -/
theorem onlyAddAndSubWriteFlags : Obligations.OnlyAddAndSubWriteFlags := by
  intro i s t h
  obtain ⟨u, hu, does⟩ := exec_answers i s
  obtain rfl : u = t := Host.Outcome.next.inj (hu.symm.trans h)
  refine ⟨?_, fun notAddSub => ?_⟩
  · change u.eflags &&& ~~~x86FlagMask = s.eflags &&& ~~~x86FlagMask
    rcases does.eflags with same | ⟨-, f, flags⟩
    · rw [same]
    · rw [flags, withX86Flags_and_not_mask]
  · rcases does.eflags with same | ⟨x86, -⟩
    · exact same
    · cases i with
      | x86Add reg rm => exact absurd rfl (notAddSub reg rm).1
      | x86Sub reg rm => exact absurd rfl (notAddSub reg rm).2
      | x86Mov reg rm => exact (registerRule_x86Mov reg rm).eflags h
      | _ => cases x86

/-- Settles O40: every instruction but `sw` is made of operations that keep the storage. -/
theorem onlyStoreWordWritesMemory : Obligations.OnlyStoreWordWritesMemory :=
  fun _ s t h hi => exec_keepsStorage hi s t h

end Sys2Proof.Machine


/-! SUPPORT and PROOFS. The family `other`, part 5: a stored word is read, and run, where it was stored; the MMIO reads;
and the fetch past the end of ROM. -/

namespace Sys2Proof.Machine

/-! ### A stored word -/

/-- A word whose four bytes lie in RAM is read from there with no effect (20_memory R36). -/
theorem State.readWord_of_peek {s : State} {a v : Word} (ram : ∀ k : Fin 4, s.isRam (a + BitVec.ofNat 32 k) = true)
    (bytes : ∀ k : Fin 4, s.peek (a + BitVec.ofNat 32 k) = byteOfWord v k) : s.readWord a = (v, s) := by
  have stored (k : Fin 4) : ∃ o, s.region (a + BitVec.ofNat 32 k) = .ram o := by
    obtain ⟨hrom, hram⟩ := (s.isRam_iff _).1 (ram k)
    exact ⟨_, by rw [s.region_eq, if_neg (by omega), if_pos hram]⟩
  have b0 : s.peek a = byteOfWord v 0 := by simpa using bytes 0
  have b1 : s.peek (a + 1) = byteOfWord v 1 := bytes 1
  have b2 : s.peek (a + 2) = byteOfWord v 2 := bytes 2
  have b3 : s.peek (a + 3) = byteOfWord v 3 := bytes 3
  rw [s.readWord_stored a fun k => .inr (stored k), b0, b1, b2, b3, wordOfBytes_byteOfWord]

/-- A step of a core with a word of RAM at `pc` runs what that word decodes to (20_memory R51). -/
theorem step_of_word_at_pc {s : State} {v : Word} {i : Instr} (hactive : s.active) (hfetch : s.MayFetch)
    (ram : ∀ k : Fin 4, s.isRam (s.pc + BitVec.ofNat 32 k) = true)
    (bytes : ∀ k : Fin 4, s.peek (s.pc + BitVec.ofNat 32 k) = byteOfWord v k) (h : decode s.cfg.isa v = .ok i) :
    step s = exec i { s with ir := v } := by
  have runs := step_of_decode_ok hactive hfetch (i := i)
  rw [State.readWord_of_peek ram bytes] at runs
  exact runs h

/-- The byte that a word store puts at each of its four addresses (20_memory R37). -/
theorem storedByte_lane (a v : Word) (k : Fin 4) : storedByte a v (a + BitVec.ofNat 32 k) = some (byteOfWord v k) := by
  fin_cases k <;> simp [storedByte]

theorem OnlyWrites.isRam {s t : State} (h : OnlyWrites s t) (a : Word) : t.isRam a = s.isRam a := by
  rw [State.isRam, h.region, State.isRam]

/-- After a word store to RAM memory holds its four bytes there (20_memory R37, R38). -/
theorem State.peek_writeWord_lane {s : State} {a : Word} (v : Word) (wf : s.mem.wf = true)
    (ram : ∀ k : Fin 4, s.isRam (a + BitVec.ofNat 32 k) = true) (k : Fin 4) :
    (s.writeWord a v).peek (a + BitVec.ofNat 32 k) = byteOfWord v k := by
  rw [s.writeWord_peek _ _ _ wf, if_pos (ram k), storedByte_lane, Option.getD_some]

/-- `sw` goes on only after the word write (42_mips_memory R103). -/
theorem exec_mipsSw_running {s t : State} {rs rt : BitVec 5} {imm : BitVec 16}
    (h : exec (.mipsSw rs rt imm) s = .next t) (running : t.status = .running) :
    t = (s.writeWord (s.effectiveAddress rs imm) (s.readReg rt)).complete (s.pc + 4) := by
  rw [exec, execMipsSw, State.reading, State.aligned] at h
  split_ifs at h <;> cases h
  · cases running
  · rfl
  · cases running

/-! ### The statements about stored words -/

/-- Settles O32: memory holds the word's bytes after the store, and the reads have no effect. -/
theorem storedWordReadsBack : Obligations.StoredWordReadsBack := by
  intro s a v wf ram
  have ramAfter (k : Fin 4) : (s.writeWord a v).isRam (a + BitVec.ofNat 32 k) = true :=
    ((s.writeWord_onlyWrites a v).isRam _).trans (ram k)
  have bytes := State.peek_writeWord_lane v wf ram
  refine ⟨State.readWord_of_peek ramAfter bytes, fun k => ?_⟩
  obtain ⟨hrom, hram⟩ := (State.isRam_iff _ _).1 (ramAfter k)
  rw [State.readByte_eq, if_neg (by omega), if_pos hram, bytes]
  rfl

/-- Settles O33: after the store the four bytes at the new `pc` are those of the stored word. -/
theorem storedCodeRuns : Obligations.StoredCodeRuns := by
  intro s t u rs rt imm i wf ram h running hu hfetch hi
  obtain rfl := exec_mipsSw_running h running
  obtain rfl : u = { State.complete _ _ with pc := s.effectiveAddress rs imm } := hu
  have ram : ∀ k : Fin 4, s.isRam (s.effectiveAddress rs imm + BitVec.ofNat 32 k) = true := ram
  have writes := s.writeWord_onlyWrites (s.effectiveAddress rs imm) (s.readReg rt)
  have ramAfter := fun k => (writes.isRam _).trans (ram k)
  have bytes := State.peek_writeWord_lane (s.readReg rt) wf ram
  have decoded := hi
  rw [← writes.cfg] at decoded
  -- of the state after the store only these facts matter
  generalize s.writeWord (s.effectiveAddress rs imm) (s.readReg rt) = w at *
  exact step_of_word_at_pc (.inr rfl) hfetch ramAfter bytes decoded

/-- Settles O46: `sw` has a row of its own, and behind the register and alignment checks it is the word write. -/
theorem mipsStoreWord : Obligations.MipsStoreWord := by
  refine ⟨decodesAs_of_row 16 rfl, fun s rs rt imm ea hea => ?_⟩
  obtain rfl : ea = s.effectiveAddress rs imm := hea
  refine ⟨fun hrs hrt aligned => ?_, fun hrs hrt check misaligned => ?_, fun unknown => ?_⟩
  · have completes := (exec_mipsSw_of_known s rs rt imm hrs hrt).trans
      (s.aligned_of_not_misaligned _ fun ⟨check, misaligned⟩ => misaligned (aligned check))
    have memory := fun wf a => s.writeWord_peek (s.effectiveAddress rs imm) (s.readReg rt) a wf
    refine ⟨_, completes, ?_⟩
    obtain ⟨m, io, evs, writes⟩ := s.writeWord_onlyWrites (s.effectiveAddress rs imm) (s.readReg rt)
    rw [writes] at memory ⊢
    exact ⟨⟨fun _ => rfl, fun _ => rfl⟩, ⟨rfl, rfl, rfl⟩, rfl, ⟨rfl, rfl, rfl, rfl, rfl⟩, rfl, rfl, rfl, rfl, rfl,
      memory⟩
  · have halts := (exec_mipsSw_of_known s rs rt imm hrs hrt).trans
      (s.aligned_of_misaligned _ ⟨check, misaligned⟩)
    exact ⟨_, halts, s.haltedWith_halt _⟩
  · exact exec_unmodelled (reads := [rs, rt]) rfl (State.allKnown_pair_eq_false unknown)

/-! ### MMIO reads -/

/-- With ROM and RAM below the MMIO window, a read from `IO_BASE` on goes to the window (20_memory R30). -/
theorem State.readByte_io (s : State) (a : Word) (o : Nat) (hrom : s.romLen ≤ 0x80000000)
    (hram : s.ramLen ≤ 0x70000000) (ha : a.toNat = 0xF0000000 + o) : s.readByte a = s.ioReadByte o := by
  rw [s.readByte_eq, if_neg (by omega), if_neg (by omega), if_pos (by omega), ha, Nat.add_sub_cancel_left]

/-- An offset in no slot reads as 0 (20_memory R42). -/
theorem State.ioReadByte_of_not_slot (s : State) {o : Nat} (h : o - o % 4 ∉ s.cfg.ioMap.slots) :
    s.ioReadByte o = (0x00, s) := by
  unfold State.ioReadByte
  rw [ioTarget_of_not_slot h]
  split_ifs <;> rfl

/-- Settles O34: the read goes to the MMIO window, and the slots being apart say what it reads there. -/
theorem mmioReads : Obligations.MmioReads := by
  intro s a o lane hwf hrom hram ha hlane
  subst hlane
  obtain ⟨-, hnodup⟩ := IoMap.slots_of_wf hwf
  obtain ⟨status, data, control, value, mask, gpio⟩ := ioTarget_of_slot hnodup o
  rw [s.readByte_io a o hrom hram ha]
  refine ⟨fun e => ?_, fun e => ?_, fun e => ?_, fun e => ?_, fun e => ?_, fun e => ?_, s.ioReadByte_of_not_slot⟩
  · rw [State.ioReadByte, status e]; rfl
  · rw [State.ioReadByte, data e]
  · rw [State.ioReadByte, control e]; rfl
  · rw [State.ioReadByte, value e]
  · rw [State.ioReadByte, mask e]; rfl
  · rw [State.ioReadByte, gpio e]; rfl

/-! ### The fetch past the end of ROM -/

/-- Each byte of a word read is a byte read, after the reads of the bytes below it (20_memory R36). -/
theorem State.byteOfWord_readWord (s : State) (a : Word) (k : Fin 4) :
    ∃ u, OnlyReads s u ∧ byteOfWord (s.readWord a).1 k = (u.readByte (a + BitVec.ofNat 32 k)).1 := by
  have after1 := s.readByte_onlyReads a
  have after2 := after1.trans (State.readByte_onlyReads _ (a + 1))
  have after3 := after2.trans (State.readByte_onlyReads _ (a + 2))
  obtain ⟨byte0, byte1, byte2, byte3⟩ := byteOfWord_wordOfBytes (s.readByte a).1
    ((s.readByte a).2.readByte (a + 1)).1 (((s.readByte a).2.readByte (a + 1)).2.readByte (a + 2)).1
    ((((s.readByte a).2.readByte (a + 1)).2.readByte (a + 2)).2.readByte (a + 3)).1
  fin_cases k
  · exact ⟨s, .refl s, byte0.trans (by simp)⟩
  · exact ⟨_, after1, byte1⟩
  · exact ⟨_, after2, byte2⟩
  · exact ⟨_, after3, byte3⟩

/-- Between the end of ROM and the MMIO window a byte is RAM's or unmapped (20_memory R30, R34). -/
theorem State.readByte_past_rom (s : State) {a : Word} (hrom : s.romLen ≤ a.toNat) (hio : a.toNat < 0xF0000000) :
    (s.readByte a).1 =
      if 0x80000000 ≤ a.toNat ∧ a.toNat < 0x80000000 + s.ramLen then s.peek a else 0xFF := by
  rw [s.readByte_eq, if_neg (by omega), if_neg (by omega : ¬0xF0000000 ≤ a.toNat)]
  split_ifs <;> rfl

/-- A word with a pattern that differs from every row of the map in a bit that both fix is no instruction
(30_encoding R65). -/
theorem decode_of_apart {isa : Isa} {w m p : Word}
    (apart : ∀ r ∈ Laws.EncodesRow.rowsOf isa, r.pat &&& m ≠ p &&& r.mask) (hw : w &&& m = p) :
    ∃ r, decode isa w = .error r := by
  rw [decode_error_iff]
  rintro ⟨i, hi⟩
  obtain ⟨⟨r, hr, hrw, -⟩, -⟩ := (decode_ok_iff isa w i).1 hi
  exact not_and_eq_both (apart r hr) w ⟨(rowMatches_iff r w).1 hrw, hw⟩

/-- A word with lowest byte `0xFF` and highest byte `0x00` or `0xFF` is no instruction of any core: every row of every
map fixes a bit of these two bytes otherwise (30_encoding R56, R60, R62, R64). -/
theorem decode_of_outer_bytes (isa : Isa) {w : Word} (lowest : byteOfWord w 0 = 0xFF)
    (highest : byteOfWord w 3 = 0x00 ∨ byteOfWord w 3 = 0xFF) : ∃ r, decode isa w = .error r := by
  have outer {p : Word} (hp : p &&& 0xFF0000FF = p) (h3 : byteOfWord w 3 = field p 24 8)
      (h0 : byteOfWord w 0 = field p 0 8) : w &&& 0xFF0000FF = p :=
    (and_eq_iff_fields [(24, 8), (0, 8)] (by decide) hp w).2
      (List.forall_mem_cons.2 ⟨h3, List.forall_mem_singleton.2 h0⟩)
  rcases highest with h | h
  · exact decode_of_apart (by cases isa <;> decide) (outer (p := 0x000000FF) (by decide) h lowest)
  · exact decode_of_apart (by cases isa <;> decide) (outer (p := 0xFF0000FF) (by decide) h lowest)

/-- Settles O58: past ROM and below the MMIO window each fetched byte is RAM's or unmapped, the first one unmapped, and
no such word is an instruction on x86 or if RAM's bytes are 0. -/
theorem runningOffRomHalts : Obligations.RunningOffRomHalts := by
  intro s hactive hfetch hpc hrom
  have address (k : Fin 4) : (s.pc + BitVec.ofNat 32 k).toNat = s.romLen + k := by
    rw [BitVec.toNat_add, BitVec.toNat_ofNat, hpc]
    omega
  have bytes (k : Fin 4) : byteOfWord (s.readWord s.pc).1 k
      = if 0x80000000 ≤ (s.pc + BitVec.ofNat 32 k).toNat ∧ (s.pc + BitVec.ofNat 32 k).toNat < 0x80000000 + s.ramLen
        then s.peek (s.pc + BitVec.ofNat 32 k) else 0xFF := by
    obtain ⟨u, ⟨unmapped, n, rfl⟩, byte⟩ := s.byteOfWord_readWord s.pc k
    rw [byte, State.readByte_past_rom _ (by simp [address]) (by rw [address]; omega)]
    rfl
  have lowest : byteOfWord (s.readWord s.pc).1 0 = 0xFF := by
    refine (bytes 0).trans (if_neg ?_)
    rw [address]
    simp only [Fin.val_zero]
    omega
  refine ⟨fun below => ?_, bytes, fun h => ?_⟩
  · obtain ⟨unmapped, -⟩ := unmappedFetchHalts
    exact unmapped s hactive hfetch fun k => by rw [address]; omega
  · have noInstr : ∃ r, decode s.cfg.isa (s.readWord s.pc).1 = .error r := by
      rcases h with x86 | zero
      · rw [x86]
        exact ⟨_, decode_x86_of_opcode (by rw [show field _ 0 8 = 0xFF#8 from lowest]; decide)⟩
      · refine decode_of_outer_bytes _ lowest ?_
        have highest := bytes 3
        split_ifs at highest with ram
        · rw [zero _ ram.1 (by rw [address]; change s.romLen + 3 < _; omega)] at highest
          exact .inl highest
        · exact .inr highest
    exact ⟨_, step_of_decode_error hactive hfetch noInstr, State.haltedWith_halt (State.setIr _ _) _⟩

end Sys2Proof.Machine
